-- ==== Sys2Proof/Word.lean ====
section
/-! DEFINITION. The two widths the block handles: the 32-bit instruction word (R8, R65) and the
byte of the memory image (R45). -/

namespace Sys2Proof

/-- One instruction word of 32 bits (R65). -/
abbrev Word := BitVec 32

/-- One byte of the memory image (R45). -/
abbrev Byte := BitVec 8

end Sys2Proof
end

