-- ==== Sys2Proof/Config.lean ====
section
/-! DEFINITION. What an implementation fixes: the read-only catalogs (R35, R36, R89), the system
literals (R191 to R195), the image base and the image size (R9). A configuration is plain data that
`State` carries and no step changes, so every statement over all states is a statement over all
configurations. Which configurations the spec admits is `Machine/Admission.lean`. -/

namespace Sys2Proof

/-- The seven format tags (R4). -/
inductive Fmt where
  | R | I | S | B | U | J | SYS
deriving DecidableEq, Repr

/-- The rendering class of a format `I` row (R16, R36). -/
inductive SubKind where
  | arith | shift | mem
deriving DecidableEq, Repr

/-- The operand names a range fault records (R200). -/
inductive OperandName where
  | rd | rs1 | rs2 | imm
deriving DecidableEq, Repr

/-- A format `R` row (R36). Codes are integers, not bit fields, so that a catalog value wider than
its field can be written down and meet the fault R37 gives it. -/
structure RRow where
  mnemonic : String
  opcode : Int
  funct3 : Int
  funct7 : Int
deriving DecidableEq, Repr

/-- A format `I` row (R36). -/
structure IRow where
  mnemonic : String
  opcode : Int
  funct3 : Int
  subKind : SubKind
deriving DecidableEq, Repr

/-- A format `S` or format `B` row (R36). -/
structure FunctRow where
  mnemonic : String
  opcode : Int
  funct3 : Int
deriving DecidableEq, Repr

/-- A format `U` or format `J` row (R36). -/
structure OpcodeRow where
  mnemonic : String
  opcode : Int
deriving DecidableEq, Repr

/-- A format `SYS` row: the literal is the whole word (R36, R74). The mnemonic is any string, matched and
printed as it is given (DESIGN CHOICE, log entry 19). -/
structure SysRow where
  mnemonic : String
  literal : Int
deriving DecidableEq, Repr

/-- The parameter `CATALOG`: one table per format, of the row counts of R36. The position of a row
in its table is the row index of R89. -/
structure Catalog where
  r : Vector RRow 8
  i : Vector IRow 12
  s : Vector FunctRow 3
  b : Vector FunctRow 6
  u : Vector OpcodeRow 2
  j : Vector OpcodeRow 1
deriving DecidableEq, Repr

/-- The four parameters of R9. -/
structure Config where
  catalog : Catalog
  sysLiterals : Vector SysRow 5
  imageBase : Nat
  imageBytes : Nat
deriving DecidableEq, Repr

/-- The default catalog, row by row as R89 lists it. -/
def Catalog.default : Catalog where
  r := #v[
    ⟨"add", 0b0110011, 0b000, 0b0000000⟩,
    ⟨"sub", 0b0110011, 0b000, 0b0100000⟩,
    ⟨"and", 0b0110011, 0b111, 0b0000000⟩,
    ⟨"or",  0b0110011, 0b110, 0b0000000⟩,
    ⟨"xor", 0b0110011, 0b100, 0b0000000⟩,
    ⟨"sll", 0b0110011, 0b001, 0b0000000⟩,
    ⟨"srl", 0b0110011, 0b101, 0b0000000⟩,
    ⟨"sra", 0b0110011, 0b101, 0b0100000⟩]
  i := #v[
    ⟨"addi", 0b0010011, 0b000, .arith⟩,
    ⟨"andi", 0b0010011, 0b111, .arith⟩,
    ⟨"ori",  0b0010011, 0b110, .arith⟩,
    ⟨"xori", 0b0010011, 0b100, .arith⟩,
    ⟨"slli", 0b0010011, 0b001, .shift⟩,
    ⟨"srli", 0b0010011, 0b101, .shift⟩,
    ⟨"jalr", 0b1100111, 0b000, .mem⟩,
    ⟨"lb",   0b0000011, 0b000, .mem⟩,
    ⟨"lh",   0b0000011, 0b001, .mem⟩,
    ⟨"lw",   0b0000011, 0b010, .mem⟩,
    ⟨"lbu",  0b0000011, 0b100, .mem⟩,
    ⟨"lhu",  0b0000011, 0b101, .mem⟩]
  s := #v[
    ⟨"sb", 0b0100011, 0b000⟩,
    ⟨"sh", 0b0100011, 0b001⟩,
    ⟨"sw", 0b0100011, 0b010⟩]
  b := #v[
    ⟨"beq",  0b1100011, 0b000⟩,
    ⟨"bne",  0b1100011, 0b001⟩,
    ⟨"blt",  0b1100011, 0b100⟩,
    ⟨"bge",  0b1100011, 0b101⟩,
    ⟨"bltu", 0b1100011, 0b110⟩,
    ⟨"bgeu", 0b1100011, 0b111⟩]
  u := #v[
    ⟨"lui",   0b0110111⟩,
    ⟨"auipc", 0b0010111⟩]
  j := #v[⟨"jal", 0b1101111⟩]

/-- The default `SYS_LITERALS` (R191 to R195). The text of a row is its mnemonic (R190). -/
def Config.defaultSysLiterals : Vector SysRow 5 :=
  #v[⟨"ecall", 0x00000073⟩,
     ⟨"ebreak", 0x00100073⟩,
     ⟨"fence", 0x0FF0000F⟩,
     ⟨"fence.tso", 0x8330000F⟩,
     ⟨"pause", 0x0100000F⟩]

/-- The default configuration of R9 with a given image size: the spec gives `IMAGE_BYTES` no
default (D14, OPEN), so it stays an argument. -/
def Config.withBytes (imageBytes : Nat) : Config where
  catalog := Catalog.default
  sysLiterals := Config.defaultSysLiterals
  imageBase := 0
  imageBytes := imageBytes

/-- The configuration of the one machine the host runs. DESIGN CHOICE (log entry 1): the size 65536
is the model's number, no statement rests on it. -/
def Config.default : Config := Config.withBytes 65536

end Sys2Proof
end

