-- ==== Sys2Proof/Machine/FieldCodec.lean ====
section
/-! DEFINITION. The Field Codec (41_field_codec.md): `packField`, `extractBits`, `concat`, the
serializer, and the truncation and extension functions of R13. Pure functions with no state; a broken
precondition is a `CodecFault`, which the request that meets it raises as `F_CODEC` (R202). -/

namespace Sys2Proof.Machine

/-- How `packField` reads its value (R125). -/
inductive Signedness where
  | signed | unsigned
deriving DecidableEq, Repr

/-- What an `F_CODEC` fault records: the primitive and its arguments (R200). -/
inductive CodecFault where
  /-- `packField` with a width below 1 (R125). -/
  | packWidth (n : Int)
  /-- `packField` of a value that does not fit (R125). -/
  | packMisfit (v n : Int) (s : Signedness)
  /-- `extractBits` of a range that is not inside the pattern (R128). -/
  | extractRange (hi lo : Int)
  /-- `concat` in an encoder of fields whose widths do not sum to 32 (R130). -/
  | concatWidth (sum : Nat)
deriving DecidableEq, Repr

/-- A bit pattern with its width: the "fixed-length bit string" of R125. -/
structure Field where
  width : Nat
  bits : BitVec width
deriving DecidableEq, Repr

/-- `trunc_n(v)`: the `n`-bit pattern of `v mod 2^n` (R13, R82). -/
def trunc (n : Nat) (v : Int) : BitVec n := BitVec.ofInt n v

/-- `sext_n(p)`: `p - 2^n` if the top bit is set, else `p` (R13). -/
def sext {n : Nat} (p : BitVec n) : Int := p.toInt

/-- `zext_n(p)`: the pattern read as an unsigned integer (R13). -/
def zext {n : Nat} (p : BitVec n) : Int := p.toNat

/-- Whether `v` fits an `n`-bit field of the given signedness (R125). -/
def fitsField (v : Int) (n : Nat) : Signedness → Bool
  | .signed => decide (-((2 ^ (n - 1) : Nat) : Int) ≤ v ∧ v ≤ ((2 ^ (n - 1) : Nat) : Int) - 1)
  | .unsigned => decide (0 ≤ v ∧ v ≤ ((2 ^ n : Nat) : Int) - 1)

/-- `packField(v, n, s)` (R125). -/
def packField (v n : Int) (s : Signedness) : Except CodecFault Field :=
  if n < 1 then .error (.packWidth n)
  else if fitsField v n.toNat s then .ok ⟨n.toNat, trunc n.toNat v⟩
  else .error (.packMisfit v n s)

/-- `extractBits(p, hi, lo)` (R128). The answer is an unsigned integer. -/
def extractBits (p : Field) (hi lo : Int) : Except CodecFault Nat :=
  if hi < lo ∨ lo < 0 ∨ (p.width : Int) ≤ hi then .error (.extractRange hi lo)
  else .ok (p.bits.toNat / 2 ^ lo.toNat % 2 ^ (hi - lo + 1).toNat)

/-- `concat(f1, ..., fk)`: the first field in the most significant bits (R130). It does not reorder
(R131). -/
def concatFields : List Field → Field
  | [] => ⟨0, 0#0⟩
  | f :: fs => ⟨f.width + (concatFields fs).width, f.bits ++ (concatFields fs).bits⟩

/-- `concat` as every encoder uses it: the widths must sum to 32 (R130). -/
def concatWord (fs : List Field) : Except CodecFault Word :=
  if h : (concatFields fs).width = 32 then .ok ((concatFields fs).bits.cast h)
  else .error (.concatWidth (concatFields fs).width)

/-- `serialize(w)`: the four bytes of a word, byte0 first (R46, R133). -/
def serialize (w : Word) : List Byte :=
  [w.extractLsb' 0 8, w.extractLsb' 8 8, w.extractLsb' 16 8, w.extractLsb' 24 8]

/-- Reassembly `b0 | b1 << 8 | b2 << 16 | b3 << 24` (R48). -/
def reassemble (b0 b1 b2 b3 : Byte) : Word :=
  b0.setWidth 32 ||| (b1.setWidth 32 <<< 8) ||| (b2.setWidth 32 <<< 16) |||
    (b3.setWidth 32 <<< 24)

end Sys2Proof.Machine
end

