-- ==== Sys2Proof/Syntax.lean ====
section
/-! DEFINITION. The instructions the block encodes: one constructor per catalog row (R89) with the
operands that row uses (R109), in the order `rd`, `rs1`, `rs2`, `imm`. Operands are unbounded
integers, as the request ports are (R119), so that an out-of-range value can be presented and
refused with `F_RANGE`. -/

namespace Sys2Proof

/-- One row of `spec/opcode_table.json` with its operands. `shamt` is the request's `imm` (R156);
the `imm` of a branch or a jump is the full signed byte offset (R21). -/
inductive Instr where
  | add (rd rs1 rs2 : Int)
  | sub (rd rs1 rs2 : Int)
  | and (rd rs1 rs2 : Int)
  | or (rd rs1 rs2 : Int)
  | xor (rd rs1 rs2 : Int)
  | sll (rd rs1 rs2 : Int)
  | srl (rd rs1 rs2 : Int)
  | sra (rd rs1 rs2 : Int)
  | addi (rd rs1 imm : Int)
  | andi (rd rs1 imm : Int)
  | ori (rd rs1 imm : Int)
  | xori (rd rs1 imm : Int)
  | slli (rd rs1 shamt : Int)
  | srli (rd rs1 shamt : Int)
  | jalr (rd rs1 imm : Int)
  | lb (rd rs1 imm : Int)
  | lh (rd rs1 imm : Int)
  | lw (rd rs1 imm : Int)
  | lbu (rd rs1 imm : Int)
  | lhu (rd rs1 imm : Int)
  | sb (rs1 rs2 imm : Int)
  | sh (rs1 rs2 imm : Int)
  | sw (rs1 rs2 imm : Int)
  | beq (rs1 rs2 imm : Int)
  | bne (rs1 rs2 imm : Int)
  | blt (rs1 rs2 imm : Int)
  | bge (rs1 rs2 imm : Int)
  | bltu (rs1 rs2 imm : Int)
  | bgeu (rs1 rs2 imm : Int)
  | lui (rd imm : Int)
  | auipc (rd imm : Int)
  | jal (rd imm : Int)
  | ecall
  | ebreak
  | fence
  | fenceTso
  | pause
deriving DecidableEq, Repr

end Sys2Proof
end

