-- ==== Sys2Proof/WellFormed.lean ====
section
/-! DEFINITION. Which operands are legal: the declared ranges of R10, evenness of `B` and `J` offsets
included. An ill-formed instruction is not refused by the model: presented to the block it raises
`F_RANGE` (R111). `Instr.wf` names the instructions that have a word. -/

namespace Sys2Proof

/-- One operand a row uses: its name, the value presented, and whether the value is legal. -/
structure UsedOperand where
  name : OperandName
  value : Int
  legal : Bool
deriving DecidableEq, Repr

/-- A register operand is legal in [0, 31] (R10). -/
def UsedOperand.reg (name : OperandName) (v : Int) : UsedOperand :=
  ⟨name, v, decide (0 ≤ v ∧ v ≤ 31)⟩

/-- A 12-bit signed immediate is legal in [-2048, 2047] (R10). -/
def UsedOperand.imm12 (v : Int) : UsedOperand :=
  ⟨.imm, v, decide (-2048 ≤ v ∧ v ≤ 2047)⟩

/-- A shift amount is legal in [0, 31] (R10). -/
def UsedOperand.shamt (v : Int) : UsedOperand :=
  ⟨.imm, v, decide (0 ≤ v ∧ v ≤ 31)⟩

/-- A branch offset is legal when even and in [-4096, 4094] (R10). -/
def UsedOperand.offset13 (v : Int) : UsedOperand :=
  ⟨.imm, v, decide (-4096 ≤ v ∧ v ≤ 4094 ∧ v % 2 = 0)⟩

/-- An upper immediate is legal in [-524288, 524287] (R10). -/
def UsedOperand.imm20 (v : Int) : UsedOperand :=
  ⟨.imm, v, decide (-524288 ≤ v ∧ v ≤ 524287)⟩

/-- A jump offset is legal when even and in [-1048576, 1048574] (R10). -/
def UsedOperand.offset21 (v : Int) : UsedOperand :=
  ⟨.imm, v, decide (-1048576 ≤ v ∧ v ≤ 1048574 ∧ v % 2 = 0)⟩

/-- The operands each instruction uses (R109), in the order they are checked (R112). -/
def Instr.operands : Instr → List UsedOperand
  | .add rd rs1 rs2 | .sub rd rs1 rs2 | .and rd rs1 rs2 | .or rd rs1 rs2
  | .xor rd rs1 rs2 | .sll rd rs1 rs2 | .srl rd rs1 rs2 | .sra rd rs1 rs2 =>
    [.reg .rd rd, .reg .rs1 rs1, .reg .rs2 rs2]
  | .addi rd rs1 imm | .andi rd rs1 imm | .ori rd rs1 imm | .xori rd rs1 imm
  | .jalr rd rs1 imm | .lb rd rs1 imm | .lh rd rs1 imm | .lw rd rs1 imm
  | .lbu rd rs1 imm | .lhu rd rs1 imm =>
    [.reg .rd rd, .reg .rs1 rs1, .imm12 imm]
  | .slli rd rs1 shamt | .srli rd rs1 shamt =>
    [.reg .rd rd, .reg .rs1 rs1, .shamt shamt]
  | .sb rs1 rs2 imm | .sh rs1 rs2 imm | .sw rs1 rs2 imm =>
    [.reg .rs1 rs1, .reg .rs2 rs2, .imm12 imm]
  | .beq rs1 rs2 imm | .bne rs1 rs2 imm | .blt rs1 rs2 imm | .bge rs1 rs2 imm
  | .bltu rs1 rs2 imm | .bgeu rs1 rs2 imm =>
    [.reg .rs1 rs1, .reg .rs2 rs2, .offset13 imm]
  | .lui rd imm | .auipc rd imm => [.reg .rd rd, .imm20 imm]
  | .jal rd imm => [.reg .rd rd, .offset21 imm]
  | .ecall | .ebreak | .fence | .fenceTso | .pause => []

/-- Every operand of the instruction is in its declared range (R10, R121). -/
def Instr.wf (i : Instr) : Bool :=
  i.operands.all (·.legal)

/-- The first illegal operand, in the order of R112, with its value. -/
def Instr.firstIllegal (i : Instr) : Option (OperandName × Int) :=
  (i.operands.find? (fun o => !o.legal)).map (fun o => (o.name, o.value))

end Sys2Proof
end

