-- ==== Sys2Proof/Decode.lean ====
section
/-! DEFINITION. The decode port (R26, R136), total on every word, and the encoder of well-formed
instructions by the layouts of R67 to R74. Both are written from the bit tables of 30_encoding.md, not
from the Field Codec; that the block's own encoders (Machine/<Family>.lean, which go through the codec)
give the same words is stated, not assumed. -/

namespace Sys2Proof

open Sys2Proof.Machine (trunc sext zext fitsField reassemble)

/-! ## Match and mask (R90) -/

/-- The `match` and `mask` of a catalog row. -/
structure RowPattern where
  value : Word
  mask : Word
deriving DecidableEq, Repr

/-- A row selects a word when `(w AND mask) = match` (R90). -/
def RowPattern.selects (p : RowPattern) (w : Word) : Bool := w &&& p.mask == p.value

/-- No word is selected by both patterns (R38): they differ in a bit that both masks cover. -/
def RowPattern.disjoint (p q : RowPattern) : Bool :=
  (p.value ^^^ q.value) &&& (p.mask &&& q.mask) != 0

/-- R37 for a row of each kind: every value fits its field. -/
def RRow.fits (x : RRow) : Bool :=
  fitsField x.funct7 7 .unsigned && fitsField x.funct3 3 .unsigned && fitsField x.opcode 7 .unsigned

/-- R37 for a format `I` row. -/
def IRow.fits (x : IRow) : Bool :=
  fitsField x.funct3 3 .unsigned && fitsField x.opcode 7 .unsigned

/-- R37 for a format `S` or `B` row. -/
def FunctRow.fits (x : FunctRow) : Bool :=
  fitsField x.funct3 3 .unsigned && fitsField x.opcode 7 .unsigned

/-- R37 for a format `U` or `J` row. -/
def OpcodeRow.fits (x : OpcodeRow) : Bool := fitsField x.opcode 7 .unsigned

/-- R37 for a `SYS` row. -/
def SysRow.fits (x : SysRow) : Bool := fitsField x.literal 32 .unsigned

/-- The values of a row with the widths of their fields (R36), in the order its encoder packs them. -/
def RRow.values (x : RRow) : List (Int × Nat) := [(x.funct7, 7), (x.funct3, 3), (x.opcode, 7)]

/-- The values of a format `I` row (R36). -/
def IRow.values (x : IRow) : List (Int × Nat) := [(x.funct3, 3), (x.opcode, 7)]

/-- The values of a format `S` or `B` row (R36). -/
def FunctRow.values (x : FunctRow) : List (Int × Nat) := [(x.funct3, 3), (x.opcode, 7)]

/-- The value of a format `U` or `J` row (R36). -/
def OpcodeRow.values (x : OpcodeRow) : List (Int × Nat) := [(x.opcode, 7)]

/-- The value of a `SYS` row (R36). -/
def SysRow.values (x : SysRow) : List (Int × Nat) := [(x.literal, 32)]

/-- Format `R`: bits [31:25], [14:12] and [6:0] are fixed (R90). A row with a value wider than its
field produces no word and selects none. -/
def RRow.pattern (x : RRow) : Option RowPattern :=
  if x.fits then
    some ⟨trunc 7 x.funct7 ++ 0#10 ++ trunc 3 x.funct3 ++ 0#5 ++ trunc 7 x.opcode, 0xFE00707F#32⟩
  else none

/-- Format `I`: a shift row fixes bits [31:25] at zero, the others leave them to the immediate (R90). -/
def IRow.pattern (x : IRow) : Option RowPattern :=
  if x.fits then
    some ⟨0#17 ++ trunc 3 x.funct3 ++ 0#5 ++ trunc 7 x.opcode,
      match x.subKind with
      | .shift => 0xFE00707F#32
      | .arith => 0x0000707F#32
      | .mem => 0x0000707F#32⟩
  else none

/-- Formats `S` and `B`: bits [14:12] and [6:0] are fixed (R90). -/
def FunctRow.pattern (x : FunctRow) : Option RowPattern :=
  if x.fits then some ⟨0#17 ++ trunc 3 x.funct3 ++ 0#5 ++ trunc 7 x.opcode, 0x0000707F#32⟩ else none

/-- Formats `U` and `J`: bits [6:0] are fixed (R90). -/
def OpcodeRow.pattern (x : OpcodeRow) : Option RowPattern :=
  if x.fits then some ⟨0#25 ++ trunc 7 x.opcode, 0x0000007F#32⟩ else none

/-- Format `SYS`: all 32 bits are fixed (R90). -/
def SysRow.pattern (x : SysRow) : Option RowPattern :=
  if x.fits then some ⟨trunc 32 x.literal, 0xFFFFFFFF#32⟩ else none

/-! ## Field extraction (R81, R135) -/

/-- `rd = word[11:7]` (R81). -/
def rdOf (w : Word) : Int := zext (w.extractLsb' 7 5)

/-- `rs1 = word[19:15]` (R81). -/
def rs1Of (w : Word) : Int := zext (w.extractLsb' 15 5)

/-- `rs2 = word[24:20]` (R81). -/
def rs2Of (w : Word) : Int := zext (w.extractLsb' 20 5)

/-- `imm = sext_12(word[31:20])` (R75). -/
def immIOf (w : Word) : Int := sext (w.extractLsb' 20 12)

/-- `shamt = zext_5(word[24:20])` (R76). -/
def shamtOf (w : Word) : Int := zext (w.extractLsb' 20 5)

/-- `imm = sext_12(word[31:25] ‖ word[11:7])` (R77). -/
def immSOf (w : Word) : Int := sext (w.extractLsb' 25 7 ++ w.extractLsb' 7 5)

/-- `imm = sext_13(word[31] ‖ word[7] ‖ word[30:25] ‖ word[11:8] ‖ 0)` (R78). -/
def immBOf (w : Word) : Int :=
  sext (w.extractLsb' 31 1 ++ w.extractLsb' 7 1 ++ w.extractLsb' 25 6 ++ w.extractLsb' 8 4 ++ 0#1)

/-- `imm = sext_20(word[31:12])` (R79). -/
def immUOf (w : Word) : Int := sext (w.extractLsb' 12 20)

/-- `imm = sext_21(word[31] ‖ word[19:12] ‖ word[20] ‖ word[30:21] ‖ 0)` (R80). -/
def immJOf (w : Word) : Int :=
  sext (w.extractLsb' 31 1 ++ w.extractLsb' 12 8 ++ w.extractLsb' 20 1 ++ w.extractLsb' 21 10 ++ 0#1)

/-- The operands a format `R` word carries, given to the row's constructor (R135). -/
def fieldsR (mk : Int → Int → Int → Instr) (w : Word) : Instr := mk (rdOf w) (rs1Of w) (rs2Of w)

/-- Format `I`, sub-kinds `arith` and `mem` (R135). -/
def fieldsI (mk : Int → Int → Int → Instr) (w : Word) : Instr := mk (rdOf w) (rs1Of w) (immIOf w)

/-- Format `I`, sub-kind `shift` (R135). -/
def fieldsShift (mk : Int → Int → Int → Instr) (w : Word) : Instr :=
  mk (rdOf w) (rs1Of w) (shamtOf w)

/-- Format `S` (R135). -/
def fieldsS (mk : Int → Int → Int → Instr) (w : Word) : Instr := mk (rs1Of w) (rs2Of w) (immSOf w)

/-- Format `B` (R135). -/
def fieldsB (mk : Int → Int → Int → Instr) (w : Word) : Instr := mk (rs1Of w) (rs2Of w) (immBOf w)

/-- Format `U` (R135). -/
def fieldsU (mk : Int → Int → Instr) (w : Word) : Instr := mk (rdOf w) (immUOf w)

/-- Format `J` (R135). Format `SYS` gives no operand. -/
def fieldsJ (mk : Int → Int → Instr) (w : Word) : Instr := mk (rdOf w) (immJOf w)

/-! ## The decode port (R136) -/

/-- The row of the catalog an instruction is an encoding of, as its pattern. -/
def Instr.pattern (c : Config) : Instr → Option RowPattern
  | .add _ _ _ => c.catalog.r[0].pattern
  | .sub _ _ _ => c.catalog.r[1].pattern
  | .and _ _ _ => c.catalog.r[2].pattern
  | .or _ _ _ => c.catalog.r[3].pattern
  | .xor _ _ _ => c.catalog.r[4].pattern
  | .sll _ _ _ => c.catalog.r[5].pattern
  | .srl _ _ _ => c.catalog.r[6].pattern
  | .sra _ _ _ => c.catalog.r[7].pattern
  | .addi _ _ _ => c.catalog.i[0].pattern
  | .andi _ _ _ => c.catalog.i[1].pattern
  | .ori _ _ _ => c.catalog.i[2].pattern
  | .xori _ _ _ => c.catalog.i[3].pattern
  | .slli _ _ _ => c.catalog.i[4].pattern
  | .srli _ _ _ => c.catalog.i[5].pattern
  | .jalr _ _ _ => c.catalog.i[6].pattern
  | .lb _ _ _ => c.catalog.i[7].pattern
  | .lh _ _ _ => c.catalog.i[8].pattern
  | .lw _ _ _ => c.catalog.i[9].pattern
  | .lbu _ _ _ => c.catalog.i[10].pattern
  | .lhu _ _ _ => c.catalog.i[11].pattern
  | .sb _ _ _ => c.catalog.s[0].pattern
  | .sh _ _ _ => c.catalog.s[1].pattern
  | .sw _ _ _ => c.catalog.s[2].pattern
  | .beq _ _ _ => c.catalog.b[0].pattern
  | .bne _ _ _ => c.catalog.b[1].pattern
  | .blt _ _ _ => c.catalog.b[2].pattern
  | .bge _ _ _ => c.catalog.b[3].pattern
  | .bltu _ _ _ => c.catalog.b[4].pattern
  | .bgeu _ _ _ => c.catalog.b[5].pattern
  | .lui _ _ => c.catalog.u[0].pattern
  | .auipc _ _ => c.catalog.u[1].pattern
  | .jal _ _ => c.catalog.j[0].pattern
  | .ecall => c.sysLiterals[0].pattern
  | .ebreak => c.sysLiterals[1].pattern
  | .fence => c.sysLiterals[2].pattern
  | .fenceTso => c.sysLiterals[3].pattern
  | .pause => c.sysLiterals[4].pattern

/-- The catalog values, with their widths, that the row of an instruction packs (R36, R37). -/
def Instr.catalogValues (c : Config) : Instr → List (Int × Nat)
  | .add _ _ _ => c.catalog.r[0].values
  | .sub _ _ _ => c.catalog.r[1].values
  | .and _ _ _ => c.catalog.r[2].values
  | .or _ _ _ => c.catalog.r[3].values
  | .xor _ _ _ => c.catalog.r[4].values
  | .sll _ _ _ => c.catalog.r[5].values
  | .srl _ _ _ => c.catalog.r[6].values
  | .sra _ _ _ => c.catalog.r[7].values
  | .addi _ _ _ => c.catalog.i[0].values
  | .andi _ _ _ => c.catalog.i[1].values
  | .ori _ _ _ => c.catalog.i[2].values
  | .xori _ _ _ => c.catalog.i[3].values
  | .slli _ _ _ => c.catalog.i[4].values
  | .srli _ _ _ => c.catalog.i[5].values
  | .jalr _ _ _ => c.catalog.i[6].values
  | .lb _ _ _ => c.catalog.i[7].values
  | .lh _ _ _ => c.catalog.i[8].values
  | .lw _ _ _ => c.catalog.i[9].values
  | .lbu _ _ _ => c.catalog.i[10].values
  | .lhu _ _ _ => c.catalog.i[11].values
  | .sb _ _ _ => c.catalog.s[0].values
  | .sh _ _ _ => c.catalog.s[1].values
  | .sw _ _ _ => c.catalog.s[2].values
  | .beq _ _ _ => c.catalog.b[0].values
  | .bne _ _ _ => c.catalog.b[1].values
  | .blt _ _ _ => c.catalog.b[2].values
  | .bge _ _ _ => c.catalog.b[3].values
  | .bltu _ _ _ => c.catalog.b[4].values
  | .bgeu _ _ _ => c.catalog.b[5].values
  | .lui _ _ => c.catalog.u[0].values
  | .auipc _ _ => c.catalog.u[1].values
  | .jal _ _ => c.catalog.j[0].values
  | .ecall => c.sysLiterals[0].values
  | .ebreak => c.sysLiterals[1].values
  | .fence => c.sysLiterals[2].values
  | .fenceTso => c.sysLiterals[3].values
  | .pause => c.sysLiterals[4].values

/-- The catalog values of the instruction's row fit their fields (R37): only such a row has a pattern. -/
def Instr.rowFits (c : Config) (i : Instr) : Bool := (i.pattern c).isSome

/-- `decode_fields(row, w)` (R135): the operands a word carries for the row of the instruction given; the
given operands are not read. -/
def decodeFields : Instr → Word → Instr
  | .add _ _ _, w => fieldsR .add w
  | .sub _ _ _, w => fieldsR .sub w
  | .and _ _ _, w => fieldsR .and w
  | .or _ _ _, w => fieldsR .or w
  | .xor _ _ _, w => fieldsR .xor w
  | .sll _ _ _, w => fieldsR .sll w
  | .srl _ _ _, w => fieldsR .srl w
  | .sra _ _ _, w => fieldsR .sra w
  | .addi _ _ _, w => fieldsI .addi w
  | .andi _ _ _, w => fieldsI .andi w
  | .ori _ _ _, w => fieldsI .ori w
  | .xori _ _ _, w => fieldsI .xori w
  | .slli _ _ _, w => fieldsShift .slli w
  | .srli _ _ _, w => fieldsShift .srli w
  | .jalr _ _ _, w => fieldsI .jalr w
  | .lb _ _ _, w => fieldsI .lb w
  | .lh _ _ _, w => fieldsI .lh w
  | .lw _ _ _, w => fieldsI .lw w
  | .lbu _ _ _, w => fieldsI .lbu w
  | .lhu _ _ _, w => fieldsI .lhu w
  | .sb _ _ _, w => fieldsS .sb w
  | .sh _ _ _, w => fieldsS .sh w
  | .sw _ _ _, w => fieldsS .sw w
  | .beq _ _ _, w => fieldsB .beq w
  | .bne _ _ _, w => fieldsB .bne w
  | .blt _ _ _, w => fieldsB .blt w
  | .bge _ _ _, w => fieldsB .bge w
  | .bltu _ _ _, w => fieldsB .bltu w
  | .bgeu _ _ _, w => fieldsB .bgeu w
  | .lui _ _, w => fieldsU .lui w
  | .auipc _ _, w => fieldsU .auipc w
  | .jal _ _, w => fieldsJ .jal w
  | .ecall, _ => .ecall
  | .ebreak, _ => .ebreak
  | .fence, _ => .fence
  | .fenceTso, _ => .fenceTso
  | .pause, _ => .pause

/-- One instruction per catalog row, in the order of R89, with 0 at every operand. -/
def catalogRows : List Instr :=
  [.add 0 0 0, .sub 0 0 0, .and 0 0 0, .or 0 0 0, .xor 0 0 0, .sll 0 0 0, .srl 0 0 0, .sra 0 0 0] ++
  [.addi 0 0 0, .andi 0 0 0, .ori 0 0 0, .xori 0 0 0, .slli 0 0 0, .srli 0 0 0] ++
  [.jalr 0 0 0, .lb 0 0 0, .lh 0 0 0, .lw 0 0 0, .lbu 0 0 0, .lhu 0 0 0] ++
  [.sb 0 0 0, .sh 0 0 0, .sw 0 0 0] ++
  [.beq 0 0 0, .bne 0 0 0, .blt 0 0 0, .bge 0 0 0, .bltu 0 0 0, .bgeu 0 0 0] ++
  [.lui 0 0, .auipc 0 0, .jal 0 0] ++
  [.ecall, .ebreak, .fence, .fenceTso, .pause]

/-- Whether the row of `i` selects `w` (R90). -/
def Instr.selectedBy (c : Config) (w : Word) (i : Instr) : Bool :=
  match i.pattern c with
  | some p => p.selects w
  | none => false

/-- The answers of the decode port. -/
inductive DecodeVerdict where
  /-- Exactly one row selects the word: the row and the word's operands (R136). -/
  | row (i : Instr)
  /-- No row selects the word (R92, R136). -/
  | notInCatalog
  /-- Two rows select the word: only under a catalog the spec does not admit (R38). -/
  | ambiguous
  /-- Fewer than four bytes: no word to decode (R65). -/
  | shortOfAWord
deriving DecidableEq, Repr

/-- `decode(w)` (R136). It never raises a fault and reads no state. -/
def decode (c : Config) (w : Word) : DecodeVerdict :=
  match catalogRows.filter (Instr.selectedBy c w) with
  | [] => .notInCatalog
  | [row] => .row (decodeFields row w)
  | _ :: _ :: _ => .ambiguous

/-- The decode port on bytes in image order, byte0 first (R46, R48). -/
def decodeBytes (c : Config) : List Byte → DecodeVerdict
  | b0 :: b1 :: b2 :: b3 :: _ => decode c (reassemble b0 b1 b2 b3)
  | _ => .shortOfAWord

/-- The instruction of a verdict, if it is one. -/
def DecodeVerdict.instr? : DecodeVerdict → Option Instr
  | .row i => some i
  | .notInCatalog => none
  | .ambiguous => none
  | .shortOfAWord => none

/-- The instruction the decoder reads from a word numbered as the opcode table numbers it. Every row
is one 32-bit word (R65), stored little-endian (R46), so bit 0 is bit 0 of the word. -/
def decodeTableWord (nbits w : Nat) : Option Instr :=
  (decode Config.default (BitVec.ofNat 32 (w % 2 ^ nbits))).instr?

/-! ## The encoder (R67 to R74), one layout per format -/

/-- Format `R` (R67). -/
def wordR (x : RRow) (rd rs1 rs2 : Int) : Word :=
  trunc 7 x.funct7 ++ trunc 5 rs2 ++ trunc 5 rs1 ++ trunc 3 x.funct3 ++ trunc 5 rd ++ trunc 7 x.opcode

/-- Format `I`, sub-kinds `arith` and `mem` (R68). -/
def wordI (x : IRow) (rd rs1 imm : Int) : Word :=
  trunc 12 imm ++ trunc 5 rs1 ++ trunc 3 x.funct3 ++ trunc 5 rd ++ trunc 7 x.opcode

/-- Format `I`, sub-kind `shift` (R69). -/
def wordShift (x : IRow) (rd rs1 shamt : Int) : Word :=
  0b0000000#7 ++ trunc 5 shamt ++ trunc 5 rs1 ++ trunc 3 x.funct3 ++ trunc 5 rd ++ trunc 7 x.opcode

/-- Format `S` (R70, R77). -/
def wordS (x : FunctRow) (rs1 rs2 imm : Int) : Word :=
  let t := trunc 12 imm
  t.extractLsb' 5 7 ++ trunc 5 rs2 ++ trunc 5 rs1 ++ trunc 3 x.funct3 ++ t.extractLsb' 0 5 ++
    trunc 7 x.opcode

/-- Format `B` (R71, R78). -/
def wordB (x : FunctRow) (rs1 rs2 imm : Int) : Word :=
  let t := trunc 13 imm
  t.extractLsb' 12 1 ++ t.extractLsb' 5 6 ++ trunc 5 rs2 ++ trunc 5 rs1 ++ trunc 3 x.funct3 ++
    t.extractLsb' 1 4 ++ t.extractLsb' 11 1 ++ trunc 7 x.opcode

/-- Format `U` (R72). -/
def wordU (x : OpcodeRow) (rd imm : Int) : Word :=
  trunc 20 imm ++ trunc 5 rd ++ trunc 7 x.opcode

/-- Format `J` (R73, R80). -/
def wordJ (x : OpcodeRow) (rd imm : Int) : Word :=
  let t := trunc 21 imm
  t.extractLsb' 20 1 ++ t.extractLsb' 1 10 ++ t.extractLsb' 11 1 ++ t.extractLsb' 12 8 ++
    trunc 5 rd ++ trunc 7 x.opcode

/-- Format `SYS`: the literal (R74). -/
def wordSys (x : SysRow) : Word := trunc 32 x.literal

/-- The word of a well-formed instruction under a configuration. -/
def encodeWith (c : Config) : Instr → Word
  | .add rd rs1 rs2 => wordR c.catalog.r[0] rd rs1 rs2
  | .sub rd rs1 rs2 => wordR c.catalog.r[1] rd rs1 rs2
  | .and rd rs1 rs2 => wordR c.catalog.r[2] rd rs1 rs2
  | .or rd rs1 rs2 => wordR c.catalog.r[3] rd rs1 rs2
  | .xor rd rs1 rs2 => wordR c.catalog.r[4] rd rs1 rs2
  | .sll rd rs1 rs2 => wordR c.catalog.r[5] rd rs1 rs2
  | .srl rd rs1 rs2 => wordR c.catalog.r[6] rd rs1 rs2
  | .sra rd rs1 rs2 => wordR c.catalog.r[7] rd rs1 rs2
  | .addi rd rs1 imm => wordI c.catalog.i[0] rd rs1 imm
  | .andi rd rs1 imm => wordI c.catalog.i[1] rd rs1 imm
  | .ori rd rs1 imm => wordI c.catalog.i[2] rd rs1 imm
  | .xori rd rs1 imm => wordI c.catalog.i[3] rd rs1 imm
  | .slli rd rs1 shamt => wordShift c.catalog.i[4] rd rs1 shamt
  | .srli rd rs1 shamt => wordShift c.catalog.i[5] rd rs1 shamt
  | .jalr rd rs1 imm => wordI c.catalog.i[6] rd rs1 imm
  | .lb rd rs1 imm => wordI c.catalog.i[7] rd rs1 imm
  | .lh rd rs1 imm => wordI c.catalog.i[8] rd rs1 imm
  | .lw rd rs1 imm => wordI c.catalog.i[9] rd rs1 imm
  | .lbu rd rs1 imm => wordI c.catalog.i[10] rd rs1 imm
  | .lhu rd rs1 imm => wordI c.catalog.i[11] rd rs1 imm
  | .sb rs1 rs2 imm => wordS c.catalog.s[0] rs1 rs2 imm
  | .sh rs1 rs2 imm => wordS c.catalog.s[1] rs1 rs2 imm
  | .sw rs1 rs2 imm => wordS c.catalog.s[2] rs1 rs2 imm
  | .beq rs1 rs2 imm => wordB c.catalog.b[0] rs1 rs2 imm
  | .bne rs1 rs2 imm => wordB c.catalog.b[1] rs1 rs2 imm
  | .blt rs1 rs2 imm => wordB c.catalog.b[2] rs1 rs2 imm
  | .bge rs1 rs2 imm => wordB c.catalog.b[3] rs1 rs2 imm
  | .bltu rs1 rs2 imm => wordB c.catalog.b[4] rs1 rs2 imm
  | .bgeu rs1 rs2 imm => wordB c.catalog.b[5] rs1 rs2 imm
  | .lui rd imm => wordU c.catalog.u[0] rd imm
  | .auipc rd imm => wordU c.catalog.u[1] rd imm
  | .jal rd imm => wordJ c.catalog.j[0] rd imm
  | .ecall => wordSys c.sysLiterals[0]
  | .ebreak => wordSys c.sysLiterals[1]
  | .fence => wordSys c.sysLiterals[2]
  | .fenceTso => wordSys c.sysLiterals[3]
  | .pause => wordSys c.sysLiterals[4]

/-- The word of a well-formed instruction under the default catalog. -/
def encode (i : Instr) : Word := encodeWith Config.default i

end Sys2Proof
end

