-- ==== Sys2Proof/Machine/Admission.lean ====
section
/-! DEFINITION. Which configurations the spec admits (R87, R50). `Config.fits` is the field widths of R37: a
configuration that breaks them is run, and the first request that packs a malformed value raises `F_CODEC`
(R37, R202). `Config.structured` is everything else, asked of the values that fit their fields (log entries
6, 7 and 19 for what the model settles): a configuration that breaks it is refused (R38, R50;
93_implementation_defined.md U16). A value that does not
fit has its own treatment in U16, `F_CODEC`, so it never makes a check of `Config.structured` fail (log
entry 5). -/

namespace Sys2Proof

open Sys2Proof.Machine (fitsField)

/-- The catalog holds the rows R85 and R89 name, in that order. -/
def Catalog.namesOk (c : Catalog) : Bool :=
  c.r.toList.map (·.mnemonic) == ["add", "sub", "and", "or", "xor", "sll", "srl", "sra"] &&
  c.i.toList.map (·.mnemonic) ==
    ["addi", "andi", "ori", "xori", "slli", "srli", "jalr", "lb", "lh", "lw", "lbu", "lhu"] &&
  c.s.toList.map (·.mnemonic) == ["sb", "sh", "sw"] &&
  c.b.toList.map (·.mnemonic) == ["beq", "bne", "blt", "bge", "bltu", "bgeu"] &&
  c.u.toList.map (·.mnemonic) == ["lui", "auipc"] &&
  c.j.toList.map (·.mnemonic) == ["jal"]

/-- The sub-kind of every format `I` row (R155 to R157). -/
def Catalog.subKindsOk (c : Catalog) : Bool :=
  c.i.toList.map (·.subKind) ==
    [.arith, .arith, .arith, .arith, .shift, .shift, .mem, .mem, .mem, .mem, .mem, .mem]

/-- Two values of an `n`-bit field are equal, if both fit it. -/
def sameWhereFit (n : Nat) (v w : Int) : Bool :=
  !(fitsField v n .unsigned && fitsField w n .unsigned) || v == w

/-- Two values of an `n`-bit field are different, if both fit it. -/
def differWhereFit (n : Nat) (v w : Int) : Bool :=
  !(fitsField v n .unsigned && fitsField w n .unsigned) || v != w

/-- Every two values of an `n`-bit field that fit it are equal. -/
def allSameWhereFit (n : Nat) (vs : List Int) : Bool := vs.all fun v => vs.all (sameWhereFit n v)

/-- Every value is different from every later one, where both fit the `n`-bit field. -/
def allDifferWhereFit (n : Nat) : List Int → Bool
  | [] => true
  | v :: vs => vs.all (differWhereFit n v) && allDifferWhereFit n vs

/-- The pairs of function codes of every two format `R` rows are different, where they fit. -/
def functPairsDiffer : List RRow → Bool
  | [] => true
  | x :: xs =>
    xs.all (fun y => differWhereFit 7 x.funct7 y.funct7 || differWhereFit 3 x.funct3 y.funct3) &&
    functPairsDiffer xs

/-- R85 (a) and (b): one opcode; `add`, `and`, `or`, `xor`, `sll` and `srl` share one `funct7`, `sub`
and `sra` share the other; `srl` and `sra` have the same `funct3`; all eight pairs are distinct. -/
def Catalog.rOk (c : Catalog) : Bool :=
  allSameWhereFit 7 (c.r.toList.map (·.opcode)) &&
  allSameWhereFit 7 ([c.r[0], c.r[2], c.r[3], c.r[4], c.r[5], c.r[6]].map (·.funct7)) &&
  sameWhereFit 7 c.r[1].funct7 c.r[7].funct7 &&
  [c.r[0], c.r[2], c.r[3], c.r[4], c.r[5], c.r[6]].all (fun x =>
    [c.r[1], c.r[7]].all fun y => differWhereFit 7 x.funct7 y.funct7) &&
  sameWhereFit 3 c.r[6].funct3 c.r[7].funct3 &&
  functPairsDiffer c.r.toList

/-- R85 (c): no load row has an opcode of an arithmetic-immediate or shift row. -/
def Catalog.iOk (c : Catalog) : Bool :=
  [c.i[7], c.i[8], c.i[9], c.i[10], c.i[11]].all fun l =>
    [c.i[0], c.i[1], c.i[2], c.i[3], c.i[4], c.i[5]].all fun a => differWhereFit 7 l.opcode a.opcode

/-- R85 (d) and (e): "one opcode, three function codes", "one opcode, six function codes". -/
def functRowsOk (rows : List FunctRow) : Bool :=
  allSameWhereFit 7 (rows.map (·.opcode)) && allDifferWhereFit 3 (rows.map (·.funct3))

/-- R85 (f): two distinct opcodes. -/
def Catalog.uOk (c : Catalog) : Bool := differWhereFit 7 c.u[0].opcode c.u[1].opcode

/-- R85 (i): the numbers the source gives, for `add` and `addi`. -/
def Catalog.fixedOk (c : Catalog) : Bool :=
  sameWhereFit 7 c.r[0].opcode 0b0110011 && sameWhereFit 3 c.r[0].funct3 0 &&
  sameWhereFit 7 c.r[0].funct7 0 &&
  sameWhereFit 7 c.i[0].opcode 0b0010011 && sameWhereFit 3 c.i[0].funct3 0

/-- The five system rows have five names (DEDUCED, log entry 7: R108 selects "the row" of a name). Nothing
else is asked of a name. That names with capitals, spaces or characters outside ASCII, and the empty name,
are admitted is the model's (DESIGN CHOICE, log entry 19: R95 calls every text lower-case ASCII, and R87 and
R224 set no condition on the form of a `SYS_LITERALS` mnemonic). -/
def Config.sysNamesOk (c : Config) : Bool := decide (c.sysLiterals.toList.map (·.mnemonic)).Nodup

/-- The patterns of all rows, in the order of R89. -/
def Config.patterns (c : Config) : List (Option RowPattern) :=
  c.catalog.r.toList.map RRow.pattern ++ c.catalog.i.toList.map IRow.pattern ++
  c.catalog.s.toList.map FunctRow.pattern ++ c.catalog.b.toList.map FunctRow.pattern ++
  c.catalog.u.toList.map OpcodeRow.pattern ++ c.catalog.j.toList.map OpcodeRow.pattern ++
  c.sysLiterals.toList.map SysRow.pattern

/-- Every pattern of the list is disjoint from every later one. -/
def pairwiseDisjoint : List RowPattern → Bool
  | [] => true
  | p :: ps => ps.all p.disjoint && pairwiseDisjoint ps

/-- R38: no word is produced by two rows. The words a row produces are the words its pattern selects,
so this is disjointness of the patterns of the rows that have one. -/
def Config.disambiguated (c : Config) : Bool := pairwiseDisjoint (c.patterns.filterMap id)

/-- `IMAGE_BASE` is a multiple of 4 (R50). -/
def Config.baseAligned (c : Config) : Bool := c.imageBase % 4 == 0

/-- R87 and R50 but for the field widths of R37, asked of the values that fit, and that the system rows have
different names (log entries 5, 6, 7 and 19). -/
def Config.structured (c : Config) : Bool :=
  c.catalog.namesOk && c.catalog.subKindsOk && c.catalog.rOk && c.catalog.iOk &&
  functRowsOk c.catalog.s.toList && functRowsOk c.catalog.b.toList && c.catalog.uOk &&
  c.catalog.fixedOk && c.sysNamesOk && c.disambiguated && c.baseAligned

/-- R37 for every row: the field widths. -/
def Config.fits (c : Config) : Bool :=
  c.catalog.r.toList.all RRow.fits && c.catalog.i.toList.all IRow.fits &&
  c.catalog.s.toList.all FunctRow.fits && c.catalog.b.toList.all FunctRow.fits &&
  c.catalog.u.toList.all OpcodeRow.fits && c.catalog.j.toList.all OpcodeRow.fits &&
  c.sysLiterals.toList.all SysRow.fits

/-- A configuration the spec admits (R87). -/
def Config.admitted (c : Config) : Bool := c.structured && c.fits

end Sys2Proof
end

