-- ==== Sys2Proof/Machine/State.lean ====
section
/-! DEFINITION. The state of the block (R33, R34, R221), its inputs (R21, R23, R24, R220), its response
port (R22), and the state right after reset. -/

namespace Sys2Proof.Machine

/-- `fault_cause` (R30); its numeric codes are `FaultCause.code`. -/
inductive FaultCause where
  | none | range | select | codec | io
deriving DecidableEq, Repr

/-- The format tag of a request: one of the seven (R4), or any other (R106). -/
inductive FmtTag where
  | known (f : Fmt)
  | other (name : String)
deriving DecidableEq, Repr

/-- A request (R21). Operands are unbounded integers (R119). -/
inductive Request where
  | directed (tag : FmtTag) (mn : String) (rd rs1 rs2 imm : Int)
  | random (tag : FmtTag)
deriving DecidableEq, Repr

/-- What the outside presents between two steps: a request (R21) or the reset input (R220). -/
inductive Input where
  | request (req : Request)
  | reset
deriving DecidableEq, Repr

/-- What `F_SELECT` records beside the format tag: "the mnemonic or row index", if any (R200). -/
inductive SelectKey where
  | none
  | mnemonic (mn : String)
  | rowIndex (r : Int)
deriving DecidableEq, Repr

/-- The information recorded with each fault (R200). -/
inductive FaultInfo where
  | range (operand : OperandName) (value : Int)
  | select (tag : FmtTag) (key : SelectKey)
  | codec (what : CodecFault)
  | io (addr : Nat)
deriving DecidableEq, Repr

/-- A response (R22); `fault` carries the information of R118. -/
inductive Response where
  | ok (word : Word) (asm : String) (addr : Nat)
  | fault (cause : FaultCause) (info : FaultInfo)
  | halted (cause : FaultCause)
deriving DecidableEq, Repr

/-- The memory image: the written bytes, addresses strictly rising. An address that is not listed is
unwritten and holds no value (R53). -/
abbrev Memory := List Host.Cell

/-- Reasons a read by the consumer of the image has no answer. No step of the block raises one: the
block never reads its image (R32). -/
inductive Fault where
  /-- Raised by `State.readImage` for an address inside the image that no request wrote since reset:
  the byte has no value (R53, U2). Safe: nothing can be proved of such a byte. -/
  | imageByteUnwritten (addr : Nat)
  /-- Raised by `State.readImage` for an address outside the address space of R45. Safe. -/
  | addressOutsideImage (addr : Nat)
deriving DecidableEq, Repr

/-- Reasons a step is refused. -/
inductive Refusal where
  /-- An instruction without a meaning; no arm of `exec` uses it. Safe. -/
  | notModelled (mnemonic : String)
  /-- Raised by `step` for a configuration the spec does not admit, field widths apart (R38, R50, R87,
  U16: "the model is not defined for them"). Safe. -/
  | configNotAdmitted
deriving DecidableEq, Repr

/-- The block. `cfg` is the parameters of R9, which nothing changes (R35). `inputs`, `draws` and
`sinkOk` are the model's view of the outside (log entry 2): what is presented at the request and reset
input, at the random input port and at the image port's status input, oldest first. -/
structure State where
  cfg : Config
  inputs : List Input
  draws : List Int
  sinkOk : List Bool
  faultCause : FaultCause
  imgPtr : Nat
  image : Memory
  response : Option Response
deriving DecidableEq, Repr

/-- The block right after reset (R221) under a configuration and with given inputs waiting. -/
def State.resetWith (cfg : Config) (inputs : List Input) (draws : List Int) (sinkOk : List Bool) :
    State where
  cfg := cfg
  inputs := inputs
  draws := draws
  sinkOk := sinkOk
  faultCause := .none
  imgPtr := cfg.imageBase
  image := []
  response := none

/-- The machine right after reset: the default parameters of R9 (image size: log entry 1), nothing
presented yet (log entry 2). -/
def State.reset : State := State.resetWith Config.default [] [] []

end Sys2Proof.Machine
end

