-- ==== Sys2Proof/Machine/Operands.lean ====
section
/-! DEFINITION. The range checks of a request (R109, R111, R112) and the assembly text (R95 to R99),
one definition per operand form. -/

namespace Sys2Proof.Machine

/-! ## Range checks -/

/-- `lo <= v <= hi`. -/
def inRange (lo hi v : Int) : Bool := decide (lo ≤ v) && decide (v ≤ hi)

/-- The offset is a multiple of 2 (R78, R80). -/
def isEven (v : Int) : Bool := v % 2 == 0

/-- One operand check: the operand, its value and whether it passes. -/
structure OperandCheck where
  name : OperandName
  value : Int
  pass : Bool
deriving DecidableEq, Repr

/-- A register index in [0, 31] (R10). Every index is legal in every register field, 0 included (R18,
R28). -/
def checkReg (name : OperandName) (v : Int) : OperandCheck := ⟨name, v, inRange 0 31 v⟩

/-- The 12-bit signed immediate of formats `I` and `S` (R10). -/
def checkImm12 (v : Int) : OperandCheck := ⟨.imm, v, inRange (-2048) 2047 v⟩

/-- The shift amount of `slli` and `srli` (R10, R17). -/
def checkShamt (v : Int) : OperandCheck := ⟨.imm, v, inRange 0 31 v⟩

/-- The offset of format `B`: in range and even (R10, R111). -/
def checkOffsetB (v : Int) : OperandCheck := ⟨.imm, v, inRange (-4096) 4094 v && isEven v⟩

/-- The immediate of format `U` (R10). -/
def checkImm20 (v : Int) : OperandCheck := ⟨.imm, v, inRange (-524288) 524287 v⟩

/-- The offset of format `J`: in range and even (R10, R111). -/
def checkOffsetJ (v : Int) : OperandCheck := ⟨.imm, v, inRange (-1048576) 1048574 v && isEven v⟩

/-- The first check that fails names the operand and value of `F_RANGE` (R112). -/
def firstViolation : List OperandCheck → Option (OperandName × Int)
  | [] => none
  | k :: ks => if k.pass then firstViolation ks else some (k.name, k.value)

/-- Format `R` uses `rd`, `rs1`, `rs2` (R109). -/
def checksR (rd rs1 rs2 : Int) : List OperandCheck :=
  [checkReg .rd rd, checkReg .rs1 rs1, checkReg .rs2 rs2]

/-- Format `I` `arith` and `mem` use `rd`, `rs1`, `imm` (R109). -/
def checksI (rd rs1 imm : Int) : List OperandCheck :=
  [checkReg .rd rd, checkReg .rs1 rs1, checkImm12 imm]

/-- Format `I` `shift` uses `rd`, `rs1` and `imm` as the shift amount (R109). -/
def checksShift (rd rs1 shamt : Int) : List OperandCheck :=
  [checkReg .rd rd, checkReg .rs1 rs1, checkShamt shamt]

/-- Format `S` uses `rs1`, `rs2`, `imm` (R109). -/
def checksS (rs1 rs2 imm : Int) : List OperandCheck :=
  [checkReg .rs1 rs1, checkReg .rs2 rs2, checkImm12 imm]

/-- Format `B` uses `rs1`, `rs2` and an even `imm` (R109). -/
def checksB (rs1 rs2 imm : Int) : List OperandCheck :=
  [checkReg .rs1 rs1, checkReg .rs2 rs2, checkOffsetB imm]

/-- Format `U` uses `rd`, `imm` (R109). -/
def checksU (rd imm : Int) : List OperandCheck := [checkReg .rd rd, checkImm20 imm]

/-- Format `J` uses `rd` and an even `imm` (R109). -/
def checksJ (rd imm : Int) : List OperandCheck := [checkReg .rd rd, checkOffsetJ imm]

/-! ## Assembly text -/

/-- Signed decimal: a leading `-` for negative values, no `+`, no leading zeros (R97). -/
def sdec (v : Int) : String := toString v

/-- A register operand prints as `x` and its index in decimal (R96). -/
def xreg (v : Int) : String := "x" ++ sdec v

/-- `<mn> x<rd>, x<rs1>, x<rs2>` (R98). -/
def textR (mn : String) (rd rs1 rs2 : Int) : String :=
  mn ++ " " ++ xreg rd ++ ", " ++ xreg rs1 ++ ", " ++ xreg rs2

/-- `<mn> x<rd>, x<rs1>, <imm>`, the immediate or the shift amount (R98). -/
def textI (mn : String) (rd rs1 imm : Int) : String :=
  mn ++ " " ++ xreg rd ++ ", " ++ xreg rs1 ++ ", " ++ sdec imm

/-- `<mn> x<rd>, <imm>(x<rs1>)` (R98). -/
def textMem (mn : String) (rd rs1 imm : Int) : String :=
  mn ++ " " ++ xreg rd ++ ", " ++ sdec imm ++ "(" ++ xreg rs1 ++ ")"

/-- `<mn> x<rs2>, <imm>(x<rs1>)`: the data register prints first (R98, R170). -/
def textS (mn : String) (rs1 rs2 imm : Int) : String :=
  mn ++ " " ++ xreg rs2 ++ ", " ++ sdec imm ++ "(" ++ xreg rs1 ++ ")"

/-- `<mn> x<rs1>, x<rs2>, <imm>`, the full signed offset (R98, R175). -/
def textB (mn : String) (rs1 rs2 imm : Int) : String :=
  mn ++ " " ++ xreg rs1 ++ ", " ++ xreg rs2 ++ ", " ++ sdec imm

/-- `<mn> x<rd>, <imm>`, formats `U` and `J` (R98). -/
def textU (mn : String) (rd imm : Int) : String := mn ++ " " ++ xreg rd ++ ", " ++ sdec imm

end Sys2Proof.Machine

namespace Sys2Proof

open Sys2Proof.Machine

/-- The text of an instruction under a configuration: the mnemonic of its row and the template of its
format (R98, R100). No pseudo-instruction and no alias is printed (R99). -/
def Instr.text (c : Config) : Instr → String
  | .add rd rs1 rs2 => textR c.catalog.r[0].mnemonic rd rs1 rs2
  | .sub rd rs1 rs2 => textR c.catalog.r[1].mnemonic rd rs1 rs2
  | .and rd rs1 rs2 => textR c.catalog.r[2].mnemonic rd rs1 rs2
  | .or rd rs1 rs2 => textR c.catalog.r[3].mnemonic rd rs1 rs2
  | .xor rd rs1 rs2 => textR c.catalog.r[4].mnemonic rd rs1 rs2
  | .sll rd rs1 rs2 => textR c.catalog.r[5].mnemonic rd rs1 rs2
  | .srl rd rs1 rs2 => textR c.catalog.r[6].mnemonic rd rs1 rs2
  | .sra rd rs1 rs2 => textR c.catalog.r[7].mnemonic rd rs1 rs2
  | .addi rd rs1 imm => textI c.catalog.i[0].mnemonic rd rs1 imm
  | .andi rd rs1 imm => textI c.catalog.i[1].mnemonic rd rs1 imm
  | .ori rd rs1 imm => textI c.catalog.i[2].mnemonic rd rs1 imm
  | .xori rd rs1 imm => textI c.catalog.i[3].mnemonic rd rs1 imm
  | .slli rd rs1 shamt => textI c.catalog.i[4].mnemonic rd rs1 shamt
  | .srli rd rs1 shamt => textI c.catalog.i[5].mnemonic rd rs1 shamt
  | .jalr rd rs1 imm => textMem c.catalog.i[6].mnemonic rd rs1 imm
  | .lb rd rs1 imm => textMem c.catalog.i[7].mnemonic rd rs1 imm
  | .lh rd rs1 imm => textMem c.catalog.i[8].mnemonic rd rs1 imm
  | .lw rd rs1 imm => textMem c.catalog.i[9].mnemonic rd rs1 imm
  | .lbu rd rs1 imm => textMem c.catalog.i[10].mnemonic rd rs1 imm
  | .lhu rd rs1 imm => textMem c.catalog.i[11].mnemonic rd rs1 imm
  | .sb rs1 rs2 imm => textS c.catalog.s[0].mnemonic rs1 rs2 imm
  | .sh rs1 rs2 imm => textS c.catalog.s[1].mnemonic rs1 rs2 imm
  | .sw rs1 rs2 imm => textS c.catalog.s[2].mnemonic rs1 rs2 imm
  | .beq rs1 rs2 imm => textB c.catalog.b[0].mnemonic rs1 rs2 imm
  | .bne rs1 rs2 imm => textB c.catalog.b[1].mnemonic rs1 rs2 imm
  | .blt rs1 rs2 imm => textB c.catalog.b[2].mnemonic rs1 rs2 imm
  | .bge rs1 rs2 imm => textB c.catalog.b[3].mnemonic rs1 rs2 imm
  | .bltu rs1 rs2 imm => textB c.catalog.b[4].mnemonic rs1 rs2 imm
  | .bgeu rs1 rs2 imm => textB c.catalog.b[5].mnemonic rs1 rs2 imm
  | .lui rd imm => textU c.catalog.u[0].mnemonic rd imm
  | .auipc rd imm => textU c.catalog.u[1].mnemonic rd imm
  | .jal rd imm => textU c.catalog.j[0].mnemonic rd imm
  | .ecall => c.sysLiterals[0].mnemonic
  | .ebreak => c.sysLiterals[1].mnemonic
  | .fence => c.sysLiterals[2].mnemonic
  | .fenceTso => c.sysLiterals[3].mnemonic
  | .pause => c.sysLiterals[4].mnemonic

end Sys2Proof
end

