-- ==== Sys2Proof/Machine/Flags.lean ====
section
/-! DEFINITION. The block's only status flag, `fault_cause` (R30). No encoding rule writes a flag
("Flags written: none", R15): only a request that raises a fault does, once, and only reset clears it. -/

namespace Sys2Proof.Machine

/-- The numeric codes of R30 and R200. -/
def FaultCause.code : FaultCause → BitVec 3
  | .none => 0#3
  | .range => 1#3
  | .select => 2#3
  | .codec => 3#3
  | .io => 4#3

/-- The cause a fault's information belongs to (R200). -/
def FaultInfo.cause : FaultInfo → FaultCause
  | .range _ _ => .range
  | .select _ _ => .select
  | .codec _ => .codec
  | .io _ => .io

/-- The block is halted while `fault_cause != NONE` (R30, R207). -/
def State.halted (s : State) : Bool := s.faultCause != .none

end Sys2Proof.Machine
end

