-- ==== Sys2Proof/Machine/Ops.lean ====
section
/-! DEFINITION. The named operations: the memory image, the response port, fault entry (R118, R206), the
halted answer (R107), `emit` (R117), the request every meaning performs (R105), and reset (R220). -/

namespace Sys2Proof.Machine

/-! ## The memory image (R45) -/

/-- The canonical form: addresses strictly rising. -/
def Memory.wf : Memory → Bool
  | [] => true
  | [_] => true
  | a :: b :: m => decide (a.1 < b.1) && Memory.wf (b :: m)

/-- The byte at an address, `none` while it is unwritten (R53). -/
def Memory.read : Memory → Nat → Option Byte
  | [], _ => none
  | c :: m, a => if c.1 = a then some c.2 else Memory.read m a

/-- `MemWrite(addr, 1, b)` (R14): it keeps the canonical form. -/
def Memory.write : Memory → Nat → Byte → Memory
  | [], a, b => [(a, b)]
  | c :: m, a, b =>
    if a < c.1 then (a, b) :: c :: m
    else if a = c.1 then (a, b) :: m
    else c :: Memory.write m a b

/-- Bytes written at consecutive addresses, the first at `a` (R47). -/
def Memory.writeBytes (m : Memory) (a : Nat) : List Byte → Memory
  | [] => m
  | b :: bs => Memory.writeBytes (m.write a b) (a + 1) bs

/-- The four byte writes of one word (R47). -/
def Memory.writeWord (m : Memory) (a : Nat) (w : Word) : Memory := m.writeBytes a (serialize w)

/-! ## What the outside reads -/

/-- The address lies in the address space of R45. -/
def State.inImage (s : State) (a : Nat) : Bool :=
  decide (s.cfg.imageBase ≤ a) && decide (a < s.cfg.imageBase + s.cfg.imageBytes)

/-- The consumer's read of one byte of the image: no value for an unwritten byte (R53). -/
def State.readImage (s : State) (a : Nat) : Except Fault Byte :=
  if s.inImage a then
    match s.image.read a with
    | some b => .ok b
    | none => .error (.imageByteUnwritten a)
  else .error (.addressOutsideImage a)

/-- The little-endian 16-bit unit at `a` (R49). -/
def State.readHalf (s : State) (a : Nat) : Except Fault (BitVec 16) :=
  match s.readImage a, s.readImage (a + 1) with
  | .ok b0, .ok b1 => .ok (b1 ++ b0)
  | .error e, _ => .error e
  | .ok _, .error e => .error e

/-- The little-endian 32-bit unit at `a` (R48, R49). -/
def State.readWord (s : State) (a : Nat) : Except Fault Word :=
  match s.readImage a, s.readImage (a + 1), s.readImage (a + 2), s.readImage (a + 3) with
  | .ok b0, .ok b1, .ok b2, .ok b3 => .ok (reassemble b0 b1 b2 b3)
  | .error e, _, _, _ => .error e
  | .ok _, .error e, _, _ => .error e
  | .ok _, .ok _, .error e, _ => .error e
  | .ok _, .ok _, .ok _, .error e => .error e

/-- The status port (R25): `fault_cause` and `img_ptr`. -/
def State.statusPort (s : State) : BitVec 3 × Nat := (s.faultCause.code, s.imgPtr)

/-- The number of words emitted, `(img_ptr - IMAGE_BASE) / 4` (R213). -/
def State.wordsEmitted (s : State) : Nat := (s.imgPtr - s.cfg.imageBase) / 4

/-- The decode port of the block (R26): it reads the catalog and no other state. -/
def State.decodePort (s : State) (w : Word) : DecodeVerdict := decode s.cfg w

/-! ## Responses and faults -/

/-- Put a response on the port (R22). -/
def respond (r : Response) (s : State) : State := { s with response := some r }

/-- Fault entry, the one operation for every fault (R118, R206): the cause is recorded, the response is
`Fault(F)` with its information, no image byte is written and `img_ptr` stays. -/
def takeFault (info : FaultInfo) (s : State) : State :=
  respond (.fault info.cause info) { s with faultCause := info.cause }

/-- The answer of the halted block (R107): nothing else changes. -/
def respondHalted (s : State) : State := respond (.halted s.faultCause) s

/-- Reset (R220), the only return from a fault (R208): the catalogs and the waiting inputs stay, no draw
is made, no response is pending. -/
def applyReset (s : State) : State :=
  { s with faultCause := .none, imgPtr := s.cfg.imageBase, image := [], response := none }

/-- The capacity check of R56: the word at `img_ptr` ends inside the image. -/
def State.hasRoom (s : State) : Bool :=
  decide (s.imgPtr + 4 ≤ s.cfg.imageBase + s.cfg.imageBytes)

/-- `emit(word, asm)` (R117): capacity, then one sample of `sink_ok`, then the four writes, the advance
of `img_ptr` and the response. While the sink does not answer the step holds (R227): the state is
unchanged. -/
def emit (word : Word) (asm : String) (s : State) : State :=
  if s.hasRoom then
    match s.sinkOk with
    | [] => s
    | false :: later => takeFault (.io s.imgPtr) { s with sinkOk := later }
    | true :: later =>
      respond (.ok word asm s.imgPtr)
        { s with
          sinkOk := later
          image := s.image.writeWord s.imgPtr word
          imgPtr := s.imgPtr + 4 }
  else takeFault (.io s.imgPtr) s

/-! ## The request -/

/-- What an encoder rule returns: the word and its text (R22). -/
structure Encoded where
  word : Word
  asm : String
deriving DecidableEq, Repr

/-- One request for a selected row (R105): halt test, range checks, encoding, emission, in the priority
of R205. Every meaning is this operation on its row's checks and encoding. -/
def performRequest (checks : List OperandCheck) (encoding : Except CodecFault Encoded) (s : State) :
    Host.Outcome State Fault Refusal :=
  if s.halted then .next (respondHalted s)
  else
    match firstViolation checks with
    | some (name, value) => .next (takeFault (.range name value) s)
    | none =>
      match encoding with
      | .error e => .next (takeFault (.codec e) s)
      | .ok x => .next (emit x.word x.asm s)

/-! ## One request outstanding (R226) -/

/-- The block takes the oldest input and the draws the request issued; the response port is empty while
the request is performed. -/
def State.accept (s : State) (draws : List Int) : State :=
  { s with inputs := s.inputs.tail, draws := draws, response := none }

/-- A step that put no response on the port was held (R227): then nothing has happened, the request
stays outstanding and its draws are not consumed. -/
def settle (before : State) : Host.Outcome State Fault Refusal → Host.Outcome State Fault Refusal
  | .next t => if t.response.isNone then .next before else .next t
  | .fault e => .fault e
  | .refused r => .refused r

end Sys2Proof.Machine
end

