-- ==== Sys2Proof/Machine/ArithRegister.lean ====
section
/-! DEFINITION. Format `R`, the arithmetic-register encoder (42_arith_register.md). -/

namespace Sys2Proof.Machine

/-- The family rule of format `R` (R145). -/
def encodeR (x : RRow) (rd rs1 rs2 : Int) : Except CodecFault Encoded := do
  let funct7 ← packField x.funct7 7 .unsigned
  let f2 ← packField rs2 5 .unsigned
  let f1 ← packField rs1 5 .unsigned
  let funct3 ← packField x.funct3 3 .unsigned
  let fd ← packField rd 5 .unsigned
  let opcode ← packField x.opcode 7 .unsigned
  let word ← concatWord [funct7, f2, f1, funct3, fd, opcode]
  return ⟨word, textR x.mnemonic rd rs1 rs2⟩

/-- `add` (R146): row `R[0]`. -/
def execAdd (rd rs1 rs2 : Int) (s : State) : Host.Outcome State Fault Refusal :=
  performRequest (checksR rd rs1 rs2) (encodeR s.cfg.catalog.r[0] rd rs1 rs2) s

/-- `sub` (R147): row `R[1]`. -/
def execSub (rd rs1 rs2 : Int) (s : State) : Host.Outcome State Fault Refusal :=
  performRequest (checksR rd rs1 rs2) (encodeR s.cfg.catalog.r[1] rd rs1 rs2) s

/-- `and` (R148): row `R[2]`. -/
def execAnd (rd rs1 rs2 : Int) (s : State) : Host.Outcome State Fault Refusal :=
  performRequest (checksR rd rs1 rs2) (encodeR s.cfg.catalog.r[2] rd rs1 rs2) s

/-- `or` (R149): row `R[3]`. -/
def execOr (rd rs1 rs2 : Int) (s : State) : Host.Outcome State Fault Refusal :=
  performRequest (checksR rd rs1 rs2) (encodeR s.cfg.catalog.r[3] rd rs1 rs2) s

/-- `xor` (R150): row `R[4]`. -/
def execXor (rd rs1 rs2 : Int) (s : State) : Host.Outcome State Fault Refusal :=
  performRequest (checksR rd rs1 rs2) (encodeR s.cfg.catalog.r[4] rd rs1 rs2) s

/-- `sll` (R151): row `R[5]`. -/
def execSll (rd rs1 rs2 : Int) (s : State) : Host.Outcome State Fault Refusal :=
  performRequest (checksR rd rs1 rs2) (encodeR s.cfg.catalog.r[5] rd rs1 rs2) s

/-- `srl` (R152): row `R[6]`. -/
def execSrl (rd rs1 rs2 : Int) (s : State) : Host.Outcome State Fault Refusal :=
  performRequest (checksR rd rs1 rs2) (encodeR s.cfg.catalog.r[6] rd rs1 rs2) s

/-- `sra` (R153): row `R[7]`. -/
def execSra (rd rs1 rs2 : Int) (s : State) : Host.Outcome State Fault Refusal :=
  performRequest (checksR rd rs1 rs2) (encodeR s.cfg.catalog.r[7] rd rs1 rs2) s

end Sys2Proof.Machine
end

