-- ==== Sys2Proof/Machine/Branch.lean ====
section
/-! DEFINITION. Format `B`, the branch encoder (45_branch.md). No target is computed (R182). -/

namespace Sys2Proof.Machine

/-- The family rule of format `B` (R175): bit 0 of the offset is dropped, bit 11 stands next to the
opcode. -/
def encodeB (x : FunctRow) (rs1 rs2 imm : Int) : Except CodecFault Encoded := do
  let t ← packField imm 13 .signed
  let b12 ← packField (← extractBits t 12 12) 1 .unsigned
  let b10 ← packField (← extractBits t 10 5) 6 .unsigned
  let f2 ← packField rs2 5 .unsigned
  let f1 ← packField rs1 5 .unsigned
  let funct3 ← packField x.funct3 3 .unsigned
  let b4 ← packField (← extractBits t 4 1) 4 .unsigned
  let b11 ← packField (← extractBits t 11 11) 1 .unsigned
  let opcode ← packField x.opcode 7 .unsigned
  let word ← concatWord [b12, b10, f2, f1, funct3, b4, b11, opcode]
  return ⟨word, textB x.mnemonic rs1 rs2 imm⟩

/-- `beq` (R176): row `B[0]`. -/
def execBeq (rs1 rs2 imm : Int) (s : State) : Host.Outcome State Fault Refusal :=
  performRequest (checksB rs1 rs2 imm) (encodeB s.cfg.catalog.b[0] rs1 rs2 imm) s

/-- `bne` (R177): row `B[1]`. -/
def execBne (rs1 rs2 imm : Int) (s : State) : Host.Outcome State Fault Refusal :=
  performRequest (checksB rs1 rs2 imm) (encodeB s.cfg.catalog.b[1] rs1 rs2 imm) s

/-- `blt` (R178): row `B[2]`. -/
def execBlt (rs1 rs2 imm : Int) (s : State) : Host.Outcome State Fault Refusal :=
  performRequest (checksB rs1 rs2 imm) (encodeB s.cfg.catalog.b[2] rs1 rs2 imm) s

/-- `bge` (R179): row `B[3]`. -/
def execBge (rs1 rs2 imm : Int) (s : State) : Host.Outcome State Fault Refusal :=
  performRequest (checksB rs1 rs2 imm) (encodeB s.cfg.catalog.b[3] rs1 rs2 imm) s

/-- `bltu` (R180): row `B[4]`. -/
def execBltu (rs1 rs2 imm : Int) (s : State) : Host.Outcome State Fault Refusal :=
  performRequest (checksB rs1 rs2 imm) (encodeB s.cfg.catalog.b[4] rs1 rs2 imm) s

/-- `bgeu` (R181): row `B[5]`. -/
def execBgeu (rs1 rs2 imm : Int) (s : State) : Host.Outcome State Fault Refusal :=
  performRequest (checksB rs1 rs2 imm) (encodeB s.cfg.catalog.b[5] rs1 rs2 imm) s

end Sys2Proof.Machine
end

