-- ==== Sys2Proof/Machine/Immediate.lean ====
section
/-! DEFINITION. Format `I`, the immediate-arithmetic, load and `jalr` encoder (43_immediate.md). -/

namespace Sys2Proof.Machine

/-- The word of sub-kinds `arith` and `mem` (R155, R157). -/
def packI (x : IRow) (rd rs1 imm : Int) : Except CodecFault Word := do
  let fi ← packField imm 12 .signed
  let f1 ← packField rs1 5 .unsigned
  let funct3 ← packField x.funct3 3 .unsigned
  let fd ← packField rd 5 .unsigned
  let opcode ← packField x.opcode 7 .unsigned
  concatWord [fi, f1, funct3, fd, opcode]

/-- The family rule of sub-kind `arith` (R155). -/
def encodeArith (x : IRow) (rd rs1 imm : Int) : Except CodecFault Encoded := do
  let word ← packI x rd rs1 imm
  return ⟨word, textI x.mnemonic rd rs1 imm⟩

/-- The family rule of sub-kind `shift` (R156): the upper seven bits are packed as zero (R17). -/
def encodeShift (x : IRow) (rd rs1 shamt : Int) : Except CodecFault Encoded := do
  let zero7 ← packField 0 7 .unsigned
  let fs ← packField shamt 5 .unsigned
  let f1 ← packField rs1 5 .unsigned
  let funct3 ← packField x.funct3 3 .unsigned
  let fd ← packField rd 5 .unsigned
  let opcode ← packField x.opcode 7 .unsigned
  let word ← concatWord [zero7, fs, f1, funct3, fd, opcode]
  return ⟨word, textI x.mnemonic rd rs1 shamt⟩

/-- The family rule of sub-kind `mem` (R157): the word of `arith`, its own text. -/
def encodeMem (x : IRow) (rd rs1 imm : Int) : Except CodecFault Encoded := do
  let word ← packI x rd rs1 imm
  return ⟨word, textMem x.mnemonic rd rs1 imm⟩

/-- `addi` (R158): row `I[0]`. -/
def execAddi (rd rs1 imm : Int) (s : State) : Host.Outcome State Fault Refusal :=
  performRequest (checksI rd rs1 imm) (encodeArith s.cfg.catalog.i[0] rd rs1 imm) s

/-- `andi` (R159): row `I[1]`. -/
def execAndi (rd rs1 imm : Int) (s : State) : Host.Outcome State Fault Refusal :=
  performRequest (checksI rd rs1 imm) (encodeArith s.cfg.catalog.i[1] rd rs1 imm) s

/-- `ori` (R160): row `I[2]`. -/
def execOri (rd rs1 imm : Int) (s : State) : Host.Outcome State Fault Refusal :=
  performRequest (checksI rd rs1 imm) (encodeArith s.cfg.catalog.i[2] rd rs1 imm) s

/-- `xori` (R161): row `I[3]`. -/
def execXori (rd rs1 imm : Int) (s : State) : Host.Outcome State Fault Refusal :=
  performRequest (checksI rd rs1 imm) (encodeArith s.cfg.catalog.i[3] rd rs1 imm) s

/-- `slli` (R162): row `I[4]`. -/
def execSlli (rd rs1 shamt : Int) (s : State) : Host.Outcome State Fault Refusal :=
  performRequest (checksShift rd rs1 shamt) (encodeShift s.cfg.catalog.i[4] rd rs1 shamt) s

/-- `srli` (R163): row `I[5]`. -/
def execSrli (rd rs1 shamt : Int) (s : State) : Host.Outcome State Fault Refusal :=
  performRequest (checksShift rd rs1 shamt) (encodeShift s.cfg.catalog.i[5] rd rs1 shamt) s

/-- `jalr` (R164): row `I[6]`. -/
def execJalr (rd rs1 imm : Int) (s : State) : Host.Outcome State Fault Refusal :=
  performRequest (checksI rd rs1 imm) (encodeMem s.cfg.catalog.i[6] rd rs1 imm) s

/-- `lb` (R165): row `I[7]`. -/
def execLb (rd rs1 imm : Int) (s : State) : Host.Outcome State Fault Refusal :=
  performRequest (checksI rd rs1 imm) (encodeMem s.cfg.catalog.i[7] rd rs1 imm) s

/-- `lh` (R166): row `I[8]`. -/
def execLh (rd rs1 imm : Int) (s : State) : Host.Outcome State Fault Refusal :=
  performRequest (checksI rd rs1 imm) (encodeMem s.cfg.catalog.i[8] rd rs1 imm) s

/-- `lw` (R167): row `I[9]`. -/
def execLw (rd rs1 imm : Int) (s : State) : Host.Outcome State Fault Refusal :=
  performRequest (checksI rd rs1 imm) (encodeMem s.cfg.catalog.i[9] rd rs1 imm) s

/-- `lbu` (R168): row `I[10]`. -/
def execLbu (rd rs1 imm : Int) (s : State) : Host.Outcome State Fault Refusal :=
  performRequest (checksI rd rs1 imm) (encodeMem s.cfg.catalog.i[10] rd rs1 imm) s

/-- `lhu` (R169): row `I[11]`. -/
def execLhu (rd rs1 imm : Int) (s : State) : Host.Outcome State Fault Refusal :=
  performRequest (checksI rd rs1 imm) (encodeMem s.cfg.catalog.i[11] rd rs1 imm) s

end Sys2Proof.Machine
end

