-- ==== Sys2Proof/Machine/Jump.lean ====
section
/-! DEFINITION. Format `J`, the jump encoder (47_jump.md). No target is computed (R189). -/

namespace Sys2Proof.Machine

/-- The family rule of format `J` (R187): bit 0 of the offset is dropped. -/
def encodeJ (x : OpcodeRow) (rd imm : Int) : Except CodecFault Encoded := do
  let t ← packField imm 21 .signed
  let b20 ← packField (← extractBits t 20 20) 1 .unsigned
  let b10 ← packField (← extractBits t 10 1) 10 .unsigned
  let b11 ← packField (← extractBits t 11 11) 1 .unsigned
  let b19 ← packField (← extractBits t 19 12) 8 .unsigned
  let fd ← packField rd 5 .unsigned
  let opcode ← packField x.opcode 7 .unsigned
  let word ← concatWord [b20, b10, b11, b19, fd, opcode]
  return ⟨word, textU x.mnemonic rd imm⟩

/-- `jal` (R187): row `J[0]`. -/
def execJal (rd imm : Int) (s : State) : Host.Outcome State Fault Refusal :=
  performRequest (checksJ rd imm) (encodeJ s.cfg.catalog.j[0] rd imm) s

end Sys2Proof.Machine
end

