-- ==== Sys2Proof/Machine/Store.lean ====
section
/-! DEFINITION. Format `S`, the store encoder (44_store.md). -/

namespace Sys2Proof.Machine

/-- The family rule of format `S` (R170): the immediate is packed once and split. -/
def encodeS (x : FunctRow) (rs1 rs2 imm : Int) : Except CodecFault Encoded := do
  let t ← packField imm 12 .signed
  let hi ← packField (← extractBits t 11 5) 7 .unsigned
  let f2 ← packField rs2 5 .unsigned
  let f1 ← packField rs1 5 .unsigned
  let funct3 ← packField x.funct3 3 .unsigned
  let lo ← packField (← extractBits t 4 0) 5 .unsigned
  let opcode ← packField x.opcode 7 .unsigned
  let word ← concatWord [hi, f2, f1, funct3, lo, opcode]
  return ⟨word, textS x.mnemonic rs1 rs2 imm⟩

/-- `sb` (R171): row `S[0]`. -/
def execSb (rs1 rs2 imm : Int) (s : State) : Host.Outcome State Fault Refusal :=
  performRequest (checksS rs1 rs2 imm) (encodeS s.cfg.catalog.s[0] rs1 rs2 imm) s

/-- `sh` (R172): row `S[1]`. -/
def execSh (rs1 rs2 imm : Int) (s : State) : Host.Outcome State Fault Refusal :=
  performRequest (checksS rs1 rs2 imm) (encodeS s.cfg.catalog.s[1] rs1 rs2 imm) s

/-- `sw` (R173): row `S[2]`. -/
def execSw (rs1 rs2 imm : Int) (s : State) : Host.Outcome State Fault Refusal :=
  performRequest (checksS rs1 rs2 imm) (encodeS s.cfg.catalog.s[2] rs1 rs2 imm) s

end Sys2Proof.Machine
end

