-- ==== Sys2Proof/Machine/System.lean ====
section
/-! DEFINITION. Format `SYS`, the fixed-encoding encoder (48_system.md). The words are data to the block: a
fence orders nothing and `ecall` and `ebreak` raise nothing (R59, R209). -/

namespace Sys2Proof.Machine

/-- The family rule of format `SYS` (R190): no operand is read. -/
def encodeSys (x : SysRow) : Except CodecFault Encoded := do
  let literal ← packField x.literal 32 .unsigned
  let word ← concatWord [literal]
  return ⟨word, x.mnemonic⟩

/-- `ecall` (R191): row `SYS[0]`. -/
def execEcall (s : State) : Host.Outcome State Fault Refusal :=
  performRequest [] (encodeSys s.cfg.sysLiterals[0]) s

/-- `ebreak` (R192): row `SYS[1]`. -/
def execEbreak (s : State) : Host.Outcome State Fault Refusal :=
  performRequest [] (encodeSys s.cfg.sysLiterals[1]) s

/-- `fence` (R193): row `SYS[2]`. -/
def execFence (s : State) : Host.Outcome State Fault Refusal :=
  performRequest [] (encodeSys s.cfg.sysLiterals[2]) s

/-- `fence.tso` (R194): row `SYS[3]`. -/
def execFenceTso (s : State) : Host.Outcome State Fault Refusal :=
  performRequest [] (encodeSys s.cfg.sysLiterals[3]) s

/-- `pause` (R195): row `SYS[4]`. -/
def execPause (s : State) : Host.Outcome State Fault Refusal :=
  performRequest [] (encodeSys s.cfg.sysLiterals[4]) s

end Sys2Proof.Machine
end

