-- ==== Sys2Proof/Machine/UpperImmediate.lean ====
section
/-! DEFINITION. Format `U`, the upper-immediate encoder (46_upper_immediate.md). -/

namespace Sys2Proof.Machine

/-- The family rule of format `U` (R183). -/
def encodeU (x : OpcodeRow) (rd imm : Int) : Except CodecFault Encoded := do
  let fi ← packField imm 20 .signed
  let fd ← packField rd 5 .unsigned
  let opcode ← packField x.opcode 7 .unsigned
  let word ← concatWord [fi, fd, opcode]
  return ⟨word, textU x.mnemonic rd imm⟩

/-- `lui` (R184): row `U[0]`. -/
def execLui (rd imm : Int) (s : State) : Host.Outcome State Fault Refusal :=
  performRequest (checksU rd imm) (encodeU s.cfg.catalog.u[0] rd imm) s

/-- `auipc` (R185): row `U[1]`. -/
def execAuipc (rd imm : Int) (s : State) : Host.Outcome State Fault Refusal :=
  performRequest (checksU rd imm) (encodeU s.cfg.catalog.u[1] rd imm) s

end Sys2Proof.Machine
end

