-- ==== Sys2Proof/Machine/Select.lean ====
section
/-! DEFINITION. The first half of a step: which row and operands a request names (R106, R108, R110), and
the draws a random request issues (R113 to R115), each checked as it is made (R205). -/

namespace Sys2Proof

/-- The mnemonics of the catalog of a format, in row order. -/
def Config.mnemonics (c : Config) : Fmt → List String
  | .R => c.catalog.r.toList.map (·.mnemonic)
  | .I => c.catalog.i.toList.map (·.mnemonic)
  | .S => c.catalog.s.toList.map (·.mnemonic)
  | .B => c.catalog.b.toList.map (·.mnemonic)
  | .U => c.catalog.u.toList.map (·.mnemonic)
  | .J => c.catalog.j.toList.map (·.mnemonic)
  | .SYS => c.sysLiterals.toList.map (·.mnemonic)

/-- The sub-kind of row `k` of the format `I` catalog (R36). -/
def Config.subKindAt (c : Config) (k : Nat) : Option SubKind :=
  (c.catalog.i.toList.map (·.subKind))[k]?

end Sys2Proof

namespace Sys2Proof.Machine

/-- The outcome of `select(req)` (R105), with the draws that are left. -/
inductive Selection where
  /-- A draw the request issues has no answer yet: the request holds (R227). -/
  | waits
  /-- `F_SELECT` or `F_RANGE`; the draws already taken are consumed (R118). -/
  | raises (info : FaultInfo) (left : List Int)
  /-- The selected row with its operands. -/
  | runs (i : Instr) (left : List Int)
deriving DecidableEq, Repr

/-! ## Rows by index (R89) -/

/-- The rows of format `R` in the order of R89, as constructors. -/
def rowsR : List (Int → Int → Int → Instr) :=
  [.add, .sub, .and, .or, .xor, .sll, .srl, .sra]

/-- The rows of format `I` in the order of R89. -/
def rowsI : List (Int → Int → Int → Instr) :=
  [.addi, .andi, .ori, .xori, .slli, .srli, .jalr, .lb, .lh, .lw, .lbu, .lhu]

/-- The rows of format `S` in the order of R89. -/
def rowsS : List (Int → Int → Int → Instr) := [.sb, .sh, .sw]

/-- The rows of format `B` in the order of R89. -/
def rowsB : List (Int → Int → Int → Instr) := [.beq, .bne, .blt, .bge, .bltu, .bgeu]

/-- The rows of format `U` in the order of R89. -/
def rowsU : List (Int → Int → Instr) := [.lui, .auipc]

/-- The row of format `J`. -/
def rowsJ : List (Int → Int → Instr) := [.jal]

/-- The rows of format `SYS` in the order of R89. -/
def rowsSys : List Instr := [.ecall, .ebreak, .fence, .fenceTso, .pause]

/-! ## Directed requests (R108) -/

/-- Row `k` of a format with the operands the format uses; the others are ignored (R109, R110). -/
def rowAt (f : Fmt) (k : Nat) (rd rs1 rs2 imm : Int) : Option Instr :=
  match f with
  | .R => rowsR[k]?.map (fun mk => mk rd rs1 rs2)
  | .I => rowsI[k]?.map (fun mk => mk rd rs1 imm)
  | .S => rowsS[k]?.map (fun mk => mk rs1 rs2 imm)
  | .B => rowsB[k]?.map (fun mk => mk rs1 rs2 imm)
  | .U => rowsU[k]?.map (fun mk => mk rd imm)
  | .J => rowsJ[k]?.map (fun mk => mk rd imm)
  | .SYS => rowsSys[k]?

/-- The row of the catalog of `f` whose mnemonic is exactly `mn` (R108, D29). -/
def rowNamed (c : Config) (f : Fmt) (mn : String) (rd rs1 rs2 imm : Int) : Option Instr :=
  rowAt f ((c.mnemonics f).idxOf mn) rd rs1 rs2 imm

/-! ## Draws (R23) -/

/-- One operand draw from [lo, hi]. The operand is `scale` times the draw (R114); an answer outside the
range raises `F_RANGE` for the operand (R111, R113). -/
def drawOperand (name : OperandName) (lo hi scale : Int) (draws : List Int)
    (k : Int → List Int → Selection) : Selection :=
  match draws with
  | [] => .waits
  | v :: left => if inRange lo hi v then k (scale * v) left else .raises (.range name (scale * v)) left

/-- A register draw from [0, 31]. -/
def drawReg (name : OperandName) (draws : List Int) (k : Int → List Int → Selection) : Selection :=
  drawOperand name 0 31 1 draws k

/-- The row draw: an index outside the catalog raises `F_SELECT` (R113). -/
def drawRow (f : Fmt) (rows : Nat) (draws : List Int) (k : Nat → List Int → Selection) : Selection :=
  match draws with
  | [] => .waits
  | r :: left =>
    if inRange 0 (rows - 1) r then k r.toNat left else .raises (.select (.known f) (.rowIndex r)) left

/-- The row is selected; an index beyond the table would raise `F_SELECT`. -/
def runRow (f : Fmt) (k : Nat) (rd rs1 rs2 imm : Int) (left : List Int) : Selection :=
  match rowAt f k rd rs1 rs2 imm with
  | some i => .runs i left
  | none => .raises (.select (.known f) (.rowIndex k)) left

/-- `r`, `rd`, `rs1`, `rs2` (R113). -/
def drawR (draws : List Int) : Selection :=
  drawRow .R 8 draws fun r d => drawReg .rd d fun rd d => drawReg .rs1 d fun rs1 d =>
    drawReg .rs2 d fun rs2 d => runRow .R r rd rs1 rs2 0 d

/-- `r`, `rd`, `rs1`, then a shift amount or an immediate by the row's sub-kind (R113). -/
def drawI (c : Config) (draws : List Int) : Selection :=
  drawRow .I 12 draws fun r d => drawReg .rd d fun rd d => drawReg .rs1 d fun rs1 d =>
    match c.subKindAt r with
    | some .shift => drawOperand .imm 0 31 1 d fun imm d => runRow .I r rd rs1 0 imm d
    | some .arith => drawOperand .imm (-2048) 2047 1 d fun imm d => runRow .I r rd rs1 0 imm d
    | some .mem => drawOperand .imm (-2048) 2047 1 d fun imm d => runRow .I r rd rs1 0 imm d
    | none => .raises (.select (.known .I) (.rowIndex r)) d

/-- `r`, `rs1`, `rs2`, `imm` (R113). -/
def drawS (draws : List Int) : Selection :=
  drawRow .S 3 draws fun r d => drawReg .rs1 d fun rs1 d => drawReg .rs2 d fun rs2 d =>
    drawOperand .imm (-2048) 2047 1 d fun imm d => runRow .S r 0 rs1 rs2 imm d

/-- `r`, `rs1`, `rs2`, `k`; the offset is `k * 2` (R113, R114). -/
def drawB (draws : List Int) : Selection :=
  drawRow .B 6 draws fun r d => drawReg .rs1 d fun rs1 d => drawReg .rs2 d fun rs2 d =>
    drawOperand .imm (-2048) 2047 2 d fun imm d => runRow .B r 0 rs1 rs2 imm d

/-- `c`, `rd`, `imm`; 0 is `lui`, 1 is `auipc` (R113, R115). -/
def drawU (draws : List Int) : Selection :=
  drawRow .U 2 draws fun r d => drawReg .rd d fun rd d =>
    drawOperand .imm (-524288) 524287 1 d fun imm d => runRow .U r rd 0 0 imm d

/-- `rd`, `v`; the offset is `v * 2`; no row is drawn (R113, R188). -/
def drawJ (draws : List Int) : Selection :=
  drawReg .rd draws fun rd d =>
    drawOperand .imm (-524288) 524287 2 d fun imm d => runRow .J 0 rd 0 0 imm d

/-- `r` alone (R113, R196). -/
def drawSys (draws : List Int) : Selection :=
  drawRow .SYS 5 draws fun r d => runRow .SYS r 0 0 0 0 d

/-- The draws of a random request by format (R113). -/
def selectRandom (c : Config) (f : Fmt) (draws : List Int) : Selection :=
  match f with
  | .R => drawR draws
  | .I => drawI c draws
  | .S => drawS draws
  | .B => drawB draws
  | .U => drawU draws
  | .J => drawJ draws
  | .SYS => drawSys draws

/-- `select(req)` (R105): the format tag, then the mnemonic or the draws (R106, R108, R113, R205). -/
def select (c : Config) (req : Request) (draws : List Int) : Selection :=
  match req with
  | .directed (.other name) _ _ _ _ _ => .raises (.select (.other name) .none) draws
  | .random (.other name) => .raises (.select (.other name) .none) draws
  | .directed (.known f) mn rd rs1 rs2 imm =>
    match rowNamed c f mn rd rs1 rs2 imm with
    | some i => .runs i draws
    | none => .raises (.select (.known f) (.mnemonic mn)) draws
  | .random (.known f) => selectRandom c f draws

end Sys2Proof.Machine

namespace Sys2Proof

open Sys2Proof.Machine

/-! ## The directed request of an instruction -/

/-- The format of an instruction (R89). -/
def Instr.fmt : Instr → Fmt
  | .add _ _ _ | .sub _ _ _ | .and _ _ _ | .or _ _ _ | .xor _ _ _ | .sll _ _ _ | .srl _ _ _
  | .sra _ _ _ => .R
  | .addi _ _ _ | .andi _ _ _ | .ori _ _ _ | .xori _ _ _ | .slli _ _ _ | .srli _ _ _ | .jalr _ _ _
  | .lb _ _ _ | .lh _ _ _ | .lw _ _ _ | .lbu _ _ _ | .lhu _ _ _ => .I
  | .sb _ _ _ | .sh _ _ _ | .sw _ _ _ => .S
  | .beq _ _ _ | .bne _ _ _ | .blt _ _ _ | .bge _ _ _ | .bltu _ _ _ | .bgeu _ _ _ => .B
  | .lui _ _ | .auipc _ _ => .U
  | .jal _ _ => .J
  | .ecall | .ebreak | .fence | .fenceTso | .pause => .SYS

/-- The index of an instruction's row in the catalog of its format (R89). -/
def Instr.rowIndex : Instr → Nat
  | .add _ _ _ => 0 | .sub _ _ _ => 1 | .and _ _ _ => 2 | .or _ _ _ => 3
  | .xor _ _ _ => 4 | .sll _ _ _ => 5 | .srl _ _ _ => 6 | .sra _ _ _ => 7
  | .addi _ _ _ => 0 | .andi _ _ _ => 1 | .ori _ _ _ => 2 | .xori _ _ _ => 3
  | .slli _ _ _ => 4 | .srli _ _ _ => 5 | .jalr _ _ _ => 6 | .lb _ _ _ => 7
  | .lh _ _ _ => 8 | .lw _ _ _ => 9 | .lbu _ _ _ => 10 | .lhu _ _ _ => 11
  | .sb _ _ _ => 0 | .sh _ _ _ => 1 | .sw _ _ _ => 2
  | .beq _ _ _ => 0 | .bne _ _ _ => 1 | .blt _ _ _ => 2 | .bge _ _ _ => 3
  | .bltu _ _ _ => 4 | .bgeu _ _ _ => 5
  | .lui _ _ => 0 | .auipc _ _ => 1
  | .jal _ _ => 0
  | .ecall => 0 | .ebreak => 1 | .fence => 2 | .fenceTso => 3 | .pause => 4

/-- The mnemonic of an instruction's row under a configuration. -/
def Instr.mnemonic (c : Config) (i : Instr) : String :=
  ((c.mnemonics i.fmt)[i.rowIndex]?).getD ""

/-- The directed request for an instruction, with 0 at every operand its format does not use (R21). -/
def Instr.toRequest (c : Config) (i : Instr) : Request :=
  let mn := i.mnemonic c
  let f := FmtTag.known i.fmt
  match i with
  | .add rd rs1 rs2 | .sub rd rs1 rs2 | .and rd rs1 rs2 | .or rd rs1 rs2
  | .xor rd rs1 rs2 | .sll rd rs1 rs2 | .srl rd rs1 rs2 | .sra rd rs1 rs2 =>
    .directed f mn rd rs1 rs2 0
  | .addi rd rs1 imm | .andi rd rs1 imm | .ori rd rs1 imm | .xori rd rs1 imm
  | .slli rd rs1 imm | .srli rd rs1 imm
  | .jalr rd rs1 imm | .lb rd rs1 imm | .lh rd rs1 imm | .lw rd rs1 imm
  | .lbu rd rs1 imm | .lhu rd rs1 imm =>
    .directed f mn rd rs1 0 imm
  | .sb rs1 rs2 imm | .sh rs1 rs2 imm | .sw rs1 rs2 imm
  | .beq rs1 rs2 imm | .bne rs1 rs2 imm | .blt rs1 rs2 imm | .bge rs1 rs2 imm
  | .bltu rs1 rs2 imm | .bgeu rs1 rs2 imm =>
    .directed f mn 0 rs1 rs2 imm
  | .lui rd imm | .auipc rd imm | .jal rd imm => .directed f mn rd 0 0 imm
  | .ecall | .ebreak | .fence | .fenceTso | .pause => .directed f mn 0 0 0 0

end Sys2Proof
end

