-- ==== Sys2Proof/Machine/TopLevel.lean ====
section
/-! DEFINITION. The encoder top level (40_encoder_top.md): what one step does with the oldest input. -/

namespace Sys2Proof.Machine

/-- One request (R105): the halt test (R107), the selection, then the selected row on the accepted
request. A held request (R227) leaves the state as it was. -/
def performInputRequest (req : Request) (s : State) : Host.Outcome State Fault Refusal :=
  if s.halted then .next (respondHalted (s.accept s.draws))
  else
    match select s.cfg req s.draws with
    | .waits => .next s
    | .raises info left => .next (takeFault info (s.accept left))
    | .runs i left => settle s (exec i (s.accept left))

/-- A configuration the spec does not admit, field widths apart, is refused before anything else (R38,
R50, R87, R224). -/
def ifStructured (c : Config) (answer : Host.Outcome State Fault Refusal) :
    Host.Outcome State Fault Refusal :=
  if c.structured then answer else .refused .configNotAdmitted

/-- One step on the oldest input. With no input the block is idle and keeps its state (R217); the reset
input acts between requests, in the halted state too (R207, R220). -/
def performInput (s : State) : Host.Outcome State Fault Refusal :=
  match s.inputs with
  | [] => ifStructured s.cfg (.next s)
  | .reset :: later => ifStructured s.cfg (.next (applyReset { s with inputs := later }))
  | .request req :: _ => ifStructured s.cfg (performInputRequest req s)

/-- The word numbered as the opcode table numbers it: every row is one 32-bit word (R65). -/
def tableWord (nbits w : Nat) : Word := BitVec.ofNat 32 (w % 2 ^ nbits)

/-- Present the directed request of an instruction as the oldest input, and a ready sink if no sink
answer is waiting (log entry 3). -/
def presentInstr (i : Instr) (s : State) : State :=
  { s with
    inputs := .request (i.toRequest s.cfg) :: s.inputs
    sinkOk := if s.sinkOk.isEmpty then [true] else s.sinkOk }

end Sys2Proof.Machine
end

