-- ==== Sys2Proof/Machine/Step.lean ====
section
/-! DEFINITION. One step of the machine, and how the host presents an instruction to it. -/

namespace Sys2Proof.Machine

/-- One step of the block: the oldest input, or idle (`performInput`). -/
def step (s : State) : Host.Outcome State Fault Refusal := performInput s

/-- The block fetches nothing (R223): its next instruction is the oldest request. The word is read by
the block's own decode port and the directed request of its row and operands is presented. A word that
is no word of the catalog has no request, and the state is left as it is (log entry 3). -/
def State.withFetchWord (s : State) (nbits w : Nat) : State :=
  match s.decodePort (tableWord nbits w) with
  | .row i => presentInstr i s
  | .notInCatalog => s
  | .ambiguous => s
  | .shortOfAWord => s

end Sys2Proof.Machine
end

