-- ==== Sys2Proof/Safety.lean ====
section
/-! DEFINITION. What a safe run is: the invariants of the block's state, and the states a reset block
can reach with the words it has emitted since reset. -/

namespace Sys2Proof.Machine

/-- `img_ptr` (R31, R50, R56): at or above `IMAGE_BASE`, a whole number of words from it, inside the
image. -/
def PtrInv (s : State) : Prop :=
  s.cfg.imageBase ≤ s.imgPtr ∧ (s.imgPtr - s.cfg.imageBase) % 4 = 0 ∧
    s.imgPtr ≤ s.cfg.imageBase + s.cfg.imageBytes

/-- The written bytes are exactly those from `IMAGE_BASE` up to `img_ptr`, in order (R29, R52, R54). -/
def ImageInv (s : State) : Prop :=
  s.image.map Prod.fst = List.range' s.cfg.imageBase (s.imgPtr - s.cfg.imageBase)

/-- Every word of the image is a word of the catalog with legal operands (R91, R92, R121). -/
def WordsInv (s : State) : Prop :=
  ∀ k, s.cfg.imageBase + 4 * k + 4 ≤ s.imgPtr →
    ∃ w i, s.readWord (s.cfg.imageBase + 4 * k) = .ok w ∧ i.wf = true ∧ decode s.cfg w = .row i

/-- The invariant every step keeps. -/
def Inv (s : State) : Prop :=
  s.cfg.structured = true ∧ PtrInv s ∧ ImageInv s ∧ WordsInv s

/-- The word of the `Ok` response of a step, if the step gave one. -/
def okWord (before after : State) : Option Word :=
  if after.inputs.length < before.inputs.length then
    match after.response with
    | some (.ok w _ _) => some w
    | some (.fault _ _) => none
    | some (.halted _) => none
    | none => none
  else none

/-- The step answered a request with `Ok`. -/
def answeredOk (before after : State) : Bool := (okWord before after).isSome

/-- The words of the `Ok` responses since reset, after a step: a reset input starts the list again. -/
def okWords (before after : State) (words : List Word) : List Word :=
  match before.inputs with
  | .reset :: _ => []
  | .request _ :: _ => words ++ (okWord before after).toList
  | [] => words

/-- `Reaches s words`: some block that was reset under a structured configuration reaches `s`, and `words`
are the words of the `Ok` responses since its last reset, oldest first. Between steps the outside may
present more inputs, draws and sink answers (R20, R27). -/
inductive Reaches : State → List Word → Prop where
  | start (cfg : Config) (inputs : List Input) (draws : List Int) (sinkOk : List Bool) :
      cfg.structured = true → Reaches (State.resetWith cfg inputs draws sinkOk) []
  | arrive (s : State) (words : List Word) (inputs : List Input) (draws : List Int)
      (sinkOk : List Bool) :
      Reaches s words →
      Reaches { s with
        inputs := s.inputs ++ inputs, draws := s.draws ++ draws, sinkOk := s.sinkOk ++ sinkOk } words
  | step (s t : State) (words : List Word) :
      Reaches s words → step s = .next t → Reaches t (okWords s t words)

end Sys2Proof.Machine
end

