-- ==== Sys2Proof/Certificates/Slice0/Obligations.lean ====
section
/-! DEFINITION. The statements for the provers. `Sys2Proof.Spec` holds the vocabulary they share, written
from the rules and not from the operations of the model: when a request can be completed, and what an
`Ok` response and a fault leave. -/

namespace Sys2Proof.Spec

open Sys2Proof Sys2Proof.Machine

/-! ## Declared ranges (R10) and field patterns (R13) -/

/-- A register index in [0, 31]. -/
abbrev InReg (v : Int) : Prop := 0 ≤ v ∧ v ≤ 31

/-- A 12-bit signed immediate. -/
abbrev InImm12 (v : Int) : Prop := -2048 ≤ v ∧ v ≤ 2047

/-- A shift amount. -/
abbrev InShamt (v : Int) : Prop := 0 ≤ v ∧ v ≤ 31

/-- An even branch offset. -/
abbrev InOffset13 (v : Int) : Prop := -4096 ≤ v ∧ v ≤ 4094 ∧ v % 2 = 0

/-- An upper immediate. -/
abbrev InImm20 (v : Int) : Prop := -524288 ≤ v ∧ v ≤ 524287

/-- An even jump offset. -/
abbrev InOffset21 (v : Int) : Prop := -1048576 ≤ v ∧ v ≤ 1048574 ∧ v % 2 = 0

/-- `trunc_n(v)`: the `n`-bit pattern of `v mod 2^n` (R13). -/
abbrev field (n : Nat) (v : Int) : BitVec n := BitVec.ofInt n v

/-- Bits `hi` down to `lo` of a pattern, as a pattern (R11). -/
abbrev bits {n : Nat} (p : BitVec n) (hi lo : Nat) : BitVec (hi + 1 - lo) := p.extractLsb' lo (hi + 1 - lo)

/-! ## What a request needs, and what it leaves -/

/-- The image can take the next word: it has room for it (R56) and the sink answers `true` (R24). -/
structure CanEmit (s : State) : Prop where
  room : s.imgPtr + 4 ≤ s.cfg.imageBase + s.cfg.imageBytes
  sink : s.sinkOk.head? = some true

/-- The default tables of R89 and R191 to R195, at any image base and size. -/
structure DefaultTables (s : State) : Prop where
  catalog : s.cfg.catalog = Catalog.default
  literals : s.cfg.sysLiterals = Config.defaultSysLiterals

/-- `t` is what `Ok(w, asm, img_ptr)` leaves of `s` (R22, R47, R117): four bytes at `img_ptr`, byte0 first,
`img_ptr + 4`, no fault recorded, every other byte as before. -/
structure Emitted (s : State) (w : Word) (asm : String) (t : State) : Prop where
  response : t.response = some (.ok w asm s.imgPtr)
  pointer : t.imgPtr = s.imgPtr + 4
  cause : t.faultCause = .none
  byte0 : t.image.read s.imgPtr = some (bits w 7 0)
  byte1 : t.image.read (s.imgPtr + 1) = some (bits w 15 8)
  byte2 : t.image.read (s.imgPtr + 2) = some (bits w 23 16)
  byte3 : t.image.read (s.imgPtr + 3) = some (bits w 31 24)
  others : ∀ a, a < s.imgPtr ∨ s.imgPtr + 4 ≤ a → t.image.read a = s.image.read a

/-- `t` is what a fault with information `info` leaves of `s` (R118, R206). -/
structure Faulted (s : State) (info : FaultInfo) (t : State) : Prop where
  cause : t.faultCause = info.cause
  response : t.response = some (.fault info.cause info)
  pointer : t.imgPtr = s.imgPtr
  image : ∀ a, t.image.read a = s.image.read a

/-- A catalog value does not fit its unsigned field (R37). -/
abbrev Misfit (value : Int) (width : Nat) : Prop := ¬ (0 ≤ value ∧ value < 2 ^ width)

/-- Each value of the second list is the one of the first, or does not fit its field. -/
def Malforms : List (Int × Nat) → List (Int × Nat) → Prop :=
  List.Forall₂ fun before after => after = before ∨ (after.2 = before.2 ∧ Misfit after.1 after.2)

/-- `d` is `c` with some catalog values and literals, any number of them, made too wide for their fields:
mnemonics, sub-kinds and the image parameters are as in `c`. -/
structure MalformedFrom (c d : Config) : Prop where
  mnemonics : ∀ f, d.mnemonics f = c.mnemonics f
  subKinds : ∀ k, d.subKindAt k = c.subKindAt k
  base : d.imageBase = c.imageBase
  bytes : d.imageBytes = c.imageBytes
  values : ∀ i : Instr, Malforms (i.catalogValues c) (i.catalogValues d)

/-- The step took an input: the outside presents one input fewer. -/
abbrev TookInput (s t : State) : Prop := t.inputs.length < s.inputs.length

/-! ## One row of each format, under the default tables -/

/-- Format `R` (R145): `word = funct7 ‖ rs2 ‖ rs1 ‖ funct3 ‖ rd ‖ 0110011`, or `F_RANGE` for the first
register outside [0, 31]. -/
def RegisterRow (mk : Int → Int → Int → Instr) (mn : String) (funct7 : BitVec 7) (funct3 : BitVec 3) :
    Prop :=
  ∀ (s : State) (rd rs1 rs2 : Int), DefaultTables s → s.faultCause = .none →
    (InReg rd → InReg rs1 → InReg rs2 → CanEmit s → ∃ t, exec (mk rd rs1 rs2) s = .next t ∧
      Emitted s (funct7 ++ field 5 rs2 ++ field 5 rs1 ++ funct3 ++ field 5 rd ++ 0b0110011#7)
        (mn ++ " x" ++ toString rd ++ ", x" ++ toString rs1 ++ ", x" ++ toString rs2) t) ∧
    (¬ InReg rd → ∃ t, exec (mk rd rs1 rs2) s = .next t ∧ Faulted s (.range .rd rd) t) ∧
    (InReg rd → ¬ InReg rs1 → ∃ t, exec (mk rd rs1 rs2) s = .next t ∧ Faulted s (.range .rs1 rs1) t) ∧
    (InReg rd → InReg rs1 → ¬ InReg rs2 →
      ∃ t, exec (mk rd rs1 rs2) s = .next t ∧ Faulted s (.range .rs2 rs2) t)

/-- Format `I` `arith` (R155): `word = trunc_12(imm) ‖ rs1 ‖ funct3 ‖ rd ‖ 0010011`. -/
def ArithRow (mk : Int → Int → Int → Instr) (mn : String) (funct3 : BitVec 3) : Prop :=
  ∀ (s : State) (rd rs1 imm : Int), DefaultTables s → s.faultCause = .none →
    (InReg rd → InReg rs1 → InImm12 imm → CanEmit s → ∃ t, exec (mk rd rs1 imm) s = .next t ∧
      Emitted s (field 12 imm ++ field 5 rs1 ++ funct3 ++ field 5 rd ++ 0b0010011#7)
        (mn ++ " x" ++ toString rd ++ ", x" ++ toString rs1 ++ ", " ++ toString imm) t) ∧
    (¬ InReg rd → ∃ t, exec (mk rd rs1 imm) s = .next t ∧ Faulted s (.range .rd rd) t) ∧
    (InReg rd → ¬ InReg rs1 → ∃ t, exec (mk rd rs1 imm) s = .next t ∧ Faulted s (.range .rs1 rs1) t) ∧
    (InReg rd → InReg rs1 → ¬ InImm12 imm →
      ∃ t, exec (mk rd rs1 imm) s = .next t ∧ Faulted s (.range .imm imm) t)

/-- Format `I` `shift` (R156): `word = 0000000 ‖ shamt ‖ rs1 ‖ funct3 ‖ rd ‖ 0010011`. -/
def ShiftRow (mk : Int → Int → Int → Instr) (mn : String) (funct3 : BitVec 3) : Prop :=
  ∀ (s : State) (rd rs1 shamt : Int), DefaultTables s → s.faultCause = .none →
    (InReg rd → InReg rs1 → InShamt shamt → CanEmit s → ∃ t, exec (mk rd rs1 shamt) s = .next t ∧
      Emitted s (0b0000000#7 ++ field 5 shamt ++ field 5 rs1 ++ funct3 ++ field 5 rd ++ 0b0010011#7)
        (mn ++ " x" ++ toString rd ++ ", x" ++ toString rs1 ++ ", " ++ toString shamt) t) ∧
    (¬ InReg rd → ∃ t, exec (mk rd rs1 shamt) s = .next t ∧ Faulted s (.range .rd rd) t) ∧
    (InReg rd → ¬ InReg rs1 → ∃ t, exec (mk rd rs1 shamt) s = .next t ∧ Faulted s (.range .rs1 rs1) t) ∧
    (InReg rd → InReg rs1 → ¬ InShamt shamt →
      ∃ t, exec (mk rd rs1 shamt) s = .next t ∧ Faulted s (.range .imm shamt) t)

/-- Format `I` `mem` (R157): `word = trunc_12(imm) ‖ rs1 ‖ funct3 ‖ rd ‖ opcode`, and its own text. -/
def MemRow (mk : Int → Int → Int → Instr) (mn : String) (funct3 : BitVec 3) (opcode : BitVec 7) : Prop :=
  ∀ (s : State) (rd rs1 imm : Int), DefaultTables s → s.faultCause = .none →
    (InReg rd → InReg rs1 → InImm12 imm → CanEmit s → ∃ t, exec (mk rd rs1 imm) s = .next t ∧
      Emitted s (field 12 imm ++ field 5 rs1 ++ funct3 ++ field 5 rd ++ opcode)
        (mn ++ " x" ++ toString rd ++ ", " ++ toString imm ++ "(x" ++ toString rs1 ++ ")") t) ∧
    (¬ InReg rd → ∃ t, exec (mk rd rs1 imm) s = .next t ∧ Faulted s (.range .rd rd) t) ∧
    (InReg rd → ¬ InReg rs1 → ∃ t, exec (mk rd rs1 imm) s = .next t ∧ Faulted s (.range .rs1 rs1) t) ∧
    (InReg rd → InReg rs1 → ¬ InImm12 imm →
      ∃ t, exec (mk rd rs1 imm) s = .next t ∧ Faulted s (.range .imm imm) t)

/-- Format `S` (R170): `word = imm[11:5] ‖ rs2 ‖ rs1 ‖ funct3 ‖ imm[4:0] ‖ 0100011`. -/
def StoreRow (mk : Int → Int → Int → Instr) (mn : String) (funct3 : BitVec 3) : Prop :=
  ∀ (s : State) (rs1 rs2 imm : Int), DefaultTables s → s.faultCause = .none →
    (InReg rs1 → InReg rs2 → InImm12 imm → CanEmit s → ∃ t, exec (mk rs1 rs2 imm) s = .next t ∧
      Emitted s (bits (field 12 imm) 11 5 ++ field 5 rs2 ++ field 5 rs1 ++ funct3 ++
          bits (field 12 imm) 4 0 ++ 0b0100011#7)
        (mn ++ " x" ++ toString rs2 ++ ", " ++ toString imm ++ "(x" ++ toString rs1 ++ ")") t) ∧
    (¬ InReg rs1 → ∃ t, exec (mk rs1 rs2 imm) s = .next t ∧ Faulted s (.range .rs1 rs1) t) ∧
    (InReg rs1 → ¬ InReg rs2 → ∃ t, exec (mk rs1 rs2 imm) s = .next t ∧ Faulted s (.range .rs2 rs2) t) ∧
    (InReg rs1 → InReg rs2 → ¬ InImm12 imm →
      ∃ t, exec (mk rs1 rs2 imm) s = .next t ∧ Faulted s (.range .imm imm) t)

/-- Format `B` (R175): `word = imm[12] ‖ imm[10:5] ‖ rs2 ‖ rs1 ‖ funct3 ‖ imm[4:1] ‖ imm[11] ‖ 1100011`; an odd
offset is refused like one out of range. -/
def BranchRow (mk : Int → Int → Int → Instr) (mn : String) (funct3 : BitVec 3) : Prop :=
  ∀ (s : State) (rs1 rs2 imm : Int), DefaultTables s → s.faultCause = .none →
    (InReg rs1 → InReg rs2 → InOffset13 imm → CanEmit s → ∃ t, exec (mk rs1 rs2 imm) s = .next t ∧
      Emitted s (bits (field 13 imm) 12 12 ++ bits (field 13 imm) 10 5 ++ field 5 rs2 ++ field 5 rs1 ++
          funct3 ++ bits (field 13 imm) 4 1 ++ bits (field 13 imm) 11 11 ++ 0b1100011#7)
        (mn ++ " x" ++ toString rs1 ++ ", x" ++ toString rs2 ++ ", " ++ toString imm) t) ∧
    (¬ InReg rs1 → ∃ t, exec (mk rs1 rs2 imm) s = .next t ∧ Faulted s (.range .rs1 rs1) t) ∧
    (InReg rs1 → ¬ InReg rs2 → ∃ t, exec (mk rs1 rs2 imm) s = .next t ∧ Faulted s (.range .rs2 rs2) t) ∧
    (InReg rs1 → InReg rs2 → ¬ InOffset13 imm →
      ∃ t, exec (mk rs1 rs2 imm) s = .next t ∧ Faulted s (.range .imm imm) t)

/-- Format `U` (R183): `word = trunc_20(imm) ‖ rd ‖ opcode`. -/
def UpperRow (mk : Int → Int → Instr) (mn : String) (opcode : BitVec 7) : Prop :=
  ∀ (s : State) (rd imm : Int), DefaultTables s → s.faultCause = .none →
    (InReg rd → InImm20 imm → CanEmit s → ∃ t, exec (mk rd imm) s = .next t ∧
      Emitted s (field 20 imm ++ field 5 rd ++ opcode)
        (mn ++ " x" ++ toString rd ++ ", " ++ toString imm) t) ∧
    (¬ InReg rd → ∃ t, exec (mk rd imm) s = .next t ∧ Faulted s (.range .rd rd) t) ∧
    (InReg rd → ¬ InImm20 imm → ∃ t, exec (mk rd imm) s = .next t ∧ Faulted s (.range .imm imm) t)

/-- Format `SYS` (R190): the literal and its four bytes, the mnemonic as the text. -/
def SystemRow (i : Instr) (literal : Word) (b0 b1 b2 b3 : Byte) (mn : String) : Prop :=
  ∀ s : State, DefaultTables s → s.faultCause = .none → CanEmit s →
    ∃ t, exec i s = .next t ∧ Emitted s literal mn t ∧
      t.image.read s.imgPtr = some b0 ∧ t.image.read (s.imgPtr + 1) = some b1 ∧
      t.image.read (s.imgPtr + 2) = some b2 ∧ t.image.read (s.imgPtr + 3) = some b3

end Sys2Proof.Spec

open Sys2Proof Sys2Proof.Machine Sys2Proof.Spec

/-! ## Reset, the halted state and faults -/

/-- R221: after reset no fault is recorded, `img_ptr` is `IMAGE_BASE`, every byte is unwritten, the tables
are the parameters and no response is pending; the machine's reset state is such a state. -/
def Obligations.ResetValues : Prop :=
  (∀ (cfg : Config) (inputs : List Input) (draws : List Int) (sinkOk : List Bool),
    let s := State.resetWith cfg inputs draws sinkOk
    s.faultCause = .none ∧ s.faultCause.code = 0#3 ∧ s.imgPtr = cfg.imageBase ∧
      (∀ a, s.image.read a = none) ∧ s.cfg = cfg ∧ s.response = none) ∧
  (∃ cfg inputs draws sinkOk, State.reset = State.resetWith cfg inputs draws sinkOk)

/-- R220: the reset input, in the halted state too, sets `fault_cause` and `img_ptr`, starts a new image in
which every byte is unwritten, leaves the tables, takes no draw and gives no response. -/
def Obligations.ResetInputRestarts : Prop :=
  ∀ (s : State) (later : List Input), s.cfg.structured = true → s.inputs = .reset :: later →
    ∃ t, step s = .next t ∧ t.faultCause = .none ∧ t.imgPtr = s.cfg.imageBase ∧
      (∀ a, t.image.read a = none) ∧ t.cfg = s.cfg ∧ t.draws = s.draws ∧ t.response = none ∧
      t.inputs = later ∧ t.sinkOk = s.sinkOk

/-- The invariant holds of every block reset under a structured configuration, and of the machine's
reset state. -/
def Obligations.ResetMeetsInvariant : Prop :=
  (∀ (cfg : Config) (inputs : List Input) (draws : List Int) (sinkOk : List Bool),
    cfg.structured = true → Inv (State.resetWith cfg inputs draws sinkOk)) ∧ Inv State.reset

/-- R107, R207, R208: while a cause is recorded every request, at the step and at every instruction, is
answered `Halted(fault_cause)` and changes nothing else; a step that changes the cause took the reset
input. -/
def Obligations.HaltedUntilReset : Prop :=
  (∀ (s : State) (req : Request) (later : List Input), s.cfg.structured = true →
    s.inputs = .request req :: later → s.faultCause ≠ .none →
    step s = .next { s with inputs := later, response := some (.halted s.faultCause) }) ∧
  (∀ (i : Instr) (s : State), s.faultCause ≠ .none →
    exec i s = .next { s with response := some (.halted s.faultCause) }) ∧
  (∀ s t : State, step s = .next t → s.faultCause ≠ .none → t.faultCause ≠ s.faultCause →
    ∃ later, s.inputs = .reset :: later ∧ t.faultCause = .none)

/-- R30: the codes are 0 to 4; the cause is written only from `NONE`, by a request that answers with that
fault, and by reset; while it is not `NONE` the block is halted; after reset it is `NONE`. -/
def Obligations.FaultCauseIsSticky : Prop :=
  (FaultCause.none.code = 0#3 ∧ FaultCause.range.code = 1#3 ∧ FaultCause.select.code = 2#3 ∧
    FaultCause.codec.code = 3#3 ∧ FaultCause.io.code = 4#3) ∧
  (∀ s t : State, step s = .next t →
    t.faultCause = s.faultCause ∨
    (s.faultCause = .none ∧ (∃ req later, s.inputs = .request req :: later) ∧
      ∃ info : FaultInfo, t.faultCause = info.cause ∧ t.response = some (.fault info.cause info)) ∨
    ((∃ later, s.inputs = .reset :: later) ∧ t.faultCause = .none)) ∧
  (∀ s : State, s.faultCause ≠ .none → s.halted = true) ∧
  (∀ cfg inputs draws sinkOk, (State.resetWith cfg inputs draws sinkOk).faultCause = .none)

/-- R118, R206: a request answered `Fault` found no cause recorded, records its cause, writes no byte and
leaves `img_ptr`; beside the recorded cause and the response only the input, the draws it took and a
sample of the sink are gone. -/
def Obligations.FaultEntryIsPrecise : Prop :=
  ∀ (s t : State) (cause : FaultCause) (info : FaultInfo), step s = .next t → TookInput s t →
    t.response = some (.fault cause info) →
    s.faultCause = .none ∧ cause = info.cause ∧ cause ≠ .none ∧
    (∃ taken, s.draws = taken ++ t.draws) ∧
    (t.sinkOk = s.sinkOk ∨ s.sinkOk = false :: t.sinkOk) ∧
    t = { s with
      inputs := s.inputs.tail, draws := t.draws, sinkOk := t.sinkOk
      faultCause := cause, response := some (.fault cause info) }

/-- R205: the checks of a request, each before the later ones whatever those would find. -/
def Obligations.RequestFaultPriority : Prop :=
  ∀ (s : State) (req : Request) (later : List Input), s.cfg.structured = true →
    s.inputs = .request req :: later →
    (s.faultCause ≠ .none → ∃ t, step s = .next t ∧ t.response = some (.halted s.faultCause)) ∧
    (s.faultCause = .none →
      (∀ f mn rd rs1 rs2 imm, req = .directed (.known f) mn rd rs1 rs2 imm →
        mn ∉ s.cfg.mnemonics f →
        ∃ t, step s = .next t ∧ Faulted s (.select (.known f) (.mnemonic mn)) t) ∧
      (∀ i left, select s.cfg req s.draws = .runs i left →
        (∀ n v, i.firstIllegal = some (n, v) → ∃ t, step s = .next t ∧ Faulted s (.range n v) t) ∧
        (i.wf = true → i.rowFits s.cfg = false →
          ∃ t v n, (v, n) ∈ i.catalogValues s.cfg ∧ Misfit v n ∧ step s = .next t ∧
            Faulted s (.codec (.packMisfit v n .unsigned)) t) ∧
        (i.wf = true → i.rowFits s.cfg = true → s.cfg.imageBase + s.cfg.imageBytes < s.imgPtr + 4 →
          ∃ t, step s = .next t ∧ Faulted s (.io s.imgPtr) t ∧ t.sinkOk = s.sinkOk) ∧
        (i.wf = true → i.rowFits s.cfg = true → s.imgPtr + 4 ≤ s.cfg.imageBase + s.cfg.imageBytes →
          s.sinkOk.head? = some false →
          ∃ t, step s = .next t ∧ Faulted s (.io s.imgPtr) t ∧ t.sinkOk = s.sinkOk.tail)))

/-! ## The step -/

/-- The step on a request that selects an instruction is `exec` of that instruction on the accepted
request: the input is taken, the draws it used are gone, the response port is empty. A word that
passes the capacity check needs a sink answer (log entries 2, 4, 14). -/
def Obligations.StepRunsSelectedInstruction : Prop :=
  ∀ (s : State) (req : Request) (later : List Input) (i : Instr) (left : List Int),
    s.cfg.structured = true → s.faultCause = .none → s.inputs = .request req :: later →
    select s.cfg req s.draws = .runs i left →
    (s.imgPtr + 4 ≤ s.cfg.imageBase + s.cfg.imageBytes → s.sinkOk ≠ []) →
    step s = exec i { s with inputs := later, draws := left, response := none }

/-- A word of the catalog presented to the block (log entry 3) is run by the next step. -/
def Obligations.PresentedWordRuns : Prop :=
  ∀ (s : State) (w : Word) (i : Instr), s.cfg.structured = true → s.faultCause = .none →
    s.decodePort w = .row i →
    step (s.withFetchWord 32 w.toNat) =
      exec i { s with sinkOk := if s.sinkOk = [] then [true] else s.sinkOk, response := none }

/-- Every instruction answers a next state from every state; a step stops exactly on a configuration that
is not structured, and then refuses it (R38, R50, R87, U16; log entry 5). Structured is R38, R50 and R85
with the row names of R89 and the sub-kinds of R36, asked of the values that fit their fields, where
R85 (c) is read as in log entry 6; beside these rules it asks that the five system rows have five names
(log entry 7, the model's inference), and nothing of the form of those names (log entry 19, the model's
choice). A configuration that breaks only field widths is run (`MisfitValuesAreNotRefused`). -/
def Obligations.OnlyUnadmittedConfigurationsStop : Prop :=
  (∀ (i : Instr) (s : State), ∃ t, exec i s = .next t) ∧
  (∀ s : State, s.cfg.structured = true → ∃ t, step s = .next t) ∧
  (∀ s : State, s.cfg.structured = false → step s = .refused .configNotAdmitted) ∧
  (∀ c : Config, c.imageBase % 4 ≠ 0 → c.structured = false)

/-- What any instruction leaves unchanged: the parameters, the inputs and draws; the cause unless a fault is
raised; `img_ptr` and every byte unless the answer is `Ok`, and then every byte outside the four at
`img_ptr`. -/
def Obligations.ExecFrame : Prop :=
  ∀ (i : Instr) (s t : State), exec i s = .next t →
    t.cfg = s.cfg ∧ t.inputs = s.inputs ∧ t.draws = s.draws ∧
    (t.sinkOk = s.sinkOk ∨ ∃ b, s.sinkOk = b :: t.sinkOk) ∧
    (t.faultCause = s.faultCause ∨
      (s.faultCause = .none ∧ ∃ info : FaultInfo, t.faultCause = info.cause ∧
        t.response = some (.fault info.cause info))) ∧
    (∀ a, a < s.imgPtr ∨ s.imgPtr + 4 ≤ a → t.image.read a = s.image.read a) ∧
    ((t.imgPtr = s.imgPtr + 4 ∧ ∃ w asm, t.response = some (.ok w asm s.imgPtr)) ∨
      (t.imgPtr = s.imgPtr ∧ ∀ a, t.image.read a = s.image.read a))

/-- What any step leaves unchanged: the parameters (R35, R224); it takes at most one input, at most four
draws, oldest first, and at most one sink answer (R226, R231; log entry 2). -/
def Obligations.StepFrame : Prop :=
  ∀ s t : State, step s = .next t →
    t.cfg = s.cfg ∧ (t = s ∨ ∃ x, s.inputs = x :: t.inputs) ∧
    (∃ taken, s.draws = taken ++ t.draws ∧ taken.length ≤ 4) ∧
    (t.sinkOk = s.sinkOk ∨ ∃ b, s.sinkOk = b :: t.sinkOk)

/-- R227: a request whose draws or sink answer are missing leaves the state as it was (log entry 4); a random
request waits for each of its draws, the earlier ones being in range, and a directed one for none. -/
def Obligations.HeldRequestChangesNothing : Prop :=
  (∀ (s : State) (req : Request) (later : List Input), s.cfg.structured = true →
    s.faultCause = .none → s.inputs = .request req :: later →
    (select s.cfg req s.draws = .waits → step s = .next s) ∧
    (∀ i left, select s.cfg req s.draws = .runs i left → i.wf = true → i.rowFits s.cfg = true →
      s.imgPtr + 4 ≤ s.cfg.imageBase + s.cfg.imageBytes → s.sinkOk = [] → step s = .next s)) ∧
  (∀ (c : Config) (f : Fmt), select c (.random (.known f)) [] = .waits) ∧
  (∀ (c : Config) (r : Int) (x y : Int) (sofar : List Int), 0 ≤ r → InReg x → InReg y →
    (r ≤ 7 → sofar <+: [r, x, y] → select c (.random (.known .R)) sofar = .waits) ∧
    (r ≤ 11 → sofar <+: [r, x, y] → select c (.random (.known .I)) sofar = .waits) ∧
    (r ≤ 2 → sofar <+: [r, x, y] → select c (.random (.known .S)) sofar = .waits) ∧
    (r ≤ 5 → sofar <+: [r, x, y] → select c (.random (.known .B)) sofar = .waits) ∧
    (r ≤ 1 → sofar <+: [r, x] → select c (.random (.known .U)) sofar = .waits) ∧
    (sofar <+: [x] → select c (.random (.known .J)) sofar = .waits)) ∧
  (∀ c tag mn rd rs1 rs2 imm draws, select c (.directed tag mn rd rs1 rs2 imm) draws ≠ .waits)

/-- R32, R33: the image is never read. With another image and another old response the request is answered
alike, and the same bytes are written. -/
def Obligations.AnswersIgnoreTheImage : Prop :=
  ∀ (s t : State) (m : Memory) (r : Option Response), step s = .next t → TookInput s t →
    ∃ t', step { s with image := m, response := r } = .next t' ∧
      t' = { t with image := t'.image } ∧
      ((t.image = s.image ∧ t'.image = m) ∨
        (∃ w, t.image = s.image.writeWord s.imgPtr w ∧ t'.image = m.writeWord s.imgPtr w) ∨
        (t.image = [] ∧ t'.image = []))

/-! ## Selection and draws -/

/-- R106: a tag that is none of the seven raises `F_SELECT` with the tag, and takes no draw. -/
def Obligations.UnknownTagRaisesSelect : Prop :=
  ∀ (s : State) (name : String) (req : Request) (later : List Input), s.cfg.structured = true →
    s.faultCause = .none → s.inputs = .request req :: later →
    (req = .random (.other name) ∨
      ∃ mn rd rs1 rs2 imm, req = .directed (.other name) mn rd rs1 rs2 imm) →
    ∃ t, step s = .next t ∧ Faulted s (.select (.other name) .none) t ∧ t.draws = s.draws

/-- R108, R110: a directed request selects the row of its format's catalog that bears its mnemonic, with
the operands the format uses; the others are ignored; an unknown mnemonic raises `F_SELECT(fmt, mn)`. -/
def Obligations.DirectedRequestSelectsRow : Prop :=
  ∀ (c : Config) (rd rs1 rs2 imm : Int) (d : List Int), c.structured = true →
    (select c (.directed (.known .R) "add" rd rs1 rs2 imm) d = .runs (.add rd rs1 rs2) d ∧
      select c (.directed (.known .R) "sub" rd rs1 rs2 imm) d = .runs (.sub rd rs1 rs2) d ∧
      select c (.directed (.known .R) "and" rd rs1 rs2 imm) d = .runs (.and rd rs1 rs2) d ∧
      select c (.directed (.known .R) "or" rd rs1 rs2 imm) d = .runs (.or rd rs1 rs2) d ∧
      select c (.directed (.known .R) "xor" rd rs1 rs2 imm) d = .runs (.xor rd rs1 rs2) d ∧
      select c (.directed (.known .R) "sll" rd rs1 rs2 imm) d = .runs (.sll rd rs1 rs2) d ∧
      select c (.directed (.known .R) "srl" rd rs1 rs2 imm) d = .runs (.srl rd rs1 rs2) d ∧
      select c (.directed (.known .R) "sra" rd rs1 rs2 imm) d = .runs (.sra rd rs1 rs2) d) ∧
    (select c (.directed (.known .I) "addi" rd rs1 rs2 imm) d = .runs (.addi rd rs1 imm) d ∧
      select c (.directed (.known .I) "andi" rd rs1 rs2 imm) d = .runs (.andi rd rs1 imm) d ∧
      select c (.directed (.known .I) "ori" rd rs1 rs2 imm) d = .runs (.ori rd rs1 imm) d ∧
      select c (.directed (.known .I) "xori" rd rs1 rs2 imm) d = .runs (.xori rd rs1 imm) d ∧
      select c (.directed (.known .I) "slli" rd rs1 rs2 imm) d = .runs (.slli rd rs1 imm) d ∧
      select c (.directed (.known .I) "srli" rd rs1 rs2 imm) d = .runs (.srli rd rs1 imm) d ∧
      select c (.directed (.known .I) "jalr" rd rs1 rs2 imm) d = .runs (.jalr rd rs1 imm) d ∧
      select c (.directed (.known .I) "lb" rd rs1 rs2 imm) d = .runs (.lb rd rs1 imm) d ∧
      select c (.directed (.known .I) "lh" rd rs1 rs2 imm) d = .runs (.lh rd rs1 imm) d ∧
      select c (.directed (.known .I) "lw" rd rs1 rs2 imm) d = .runs (.lw rd rs1 imm) d ∧
      select c (.directed (.known .I) "lbu" rd rs1 rs2 imm) d = .runs (.lbu rd rs1 imm) d ∧
      select c (.directed (.known .I) "lhu" rd rs1 rs2 imm) d = .runs (.lhu rd rs1 imm) d) ∧
    (select c (.directed (.known .S) "sb" rd rs1 rs2 imm) d = .runs (.sb rs1 rs2 imm) d ∧
      select c (.directed (.known .S) "sh" rd rs1 rs2 imm) d = .runs (.sh rs1 rs2 imm) d ∧
      select c (.directed (.known .S) "sw" rd rs1 rs2 imm) d = .runs (.sw rs1 rs2 imm) d) ∧
    (select c (.directed (.known .B) "beq" rd rs1 rs2 imm) d = .runs (.beq rs1 rs2 imm) d ∧
      select c (.directed (.known .B) "bne" rd rs1 rs2 imm) d = .runs (.bne rs1 rs2 imm) d ∧
      select c (.directed (.known .B) "blt" rd rs1 rs2 imm) d = .runs (.blt rs1 rs2 imm) d ∧
      select c (.directed (.known .B) "bge" rd rs1 rs2 imm) d = .runs (.bge rs1 rs2 imm) d ∧
      select c (.directed (.known .B) "bltu" rd rs1 rs2 imm) d = .runs (.bltu rs1 rs2 imm) d ∧
      select c (.directed (.known .B) "bgeu" rd rs1 rs2 imm) d = .runs (.bgeu rs1 rs2 imm) d) ∧
    (select c (.directed (.known .U) "lui" rd rs1 rs2 imm) d = .runs (.lui rd imm) d ∧
      select c (.directed (.known .U) "auipc" rd rs1 rs2 imm) d = .runs (.auipc rd imm) d ∧
      select c (.directed (.known .J) "jal" rd rs1 rs2 imm) d = .runs (.jal rd imm) d) ∧
    (select c (.directed (.known .SYS) c.sysLiterals[0].mnemonic rd rs1 rs2 imm) d = .runs .ecall d ∧
      select c (.directed (.known .SYS) c.sysLiterals[1].mnemonic rd rs1 rs2 imm) d = .runs .ebreak d ∧
      select c (.directed (.known .SYS) c.sysLiterals[2].mnemonic rd rs1 rs2 imm) d = .runs .fence d ∧
      select c (.directed (.known .SYS) c.sysLiterals[3].mnemonic rd rs1 rs2 imm) d = .runs .fenceTso d ∧
      select c (.directed (.known .SYS) c.sysLiterals[4].mnemonic rd rs1 rs2 imm) d = .runs .pause d) ∧
    (∀ (f : Fmt) (mn : String), mn ∉ c.mnemonics f →
      select c (.directed (.known f) mn rd rs1 rs2 imm) d =
        .raises (.select (.known f) (.mnemonic mn)) d)

/-- R113 to R115, draws in their ranges: the draws of each format in their order, the row they name and the
operands they give, the doubling of `k` and `v`, and the draws left for the next request. -/
def Obligations.RandomDrawsNameRowAndOperands : Prop :=
  ∀ (c : Config) (left : List Int), c.structured = true →
    (∀ r rd rs1 rs2 mk, 0 ≤ r → InReg rd → InReg rs1 → InReg rs2 →
      [Instr.add, .sub, .and, .or, .xor, .sll, .srl, .sra][r.toNat]? = some mk →
      select c (.random (.known .R)) (r :: rd :: rs1 :: rs2 :: left) = .runs (mk rd rs1 rs2) left) ∧
    (∀ r rd rs1 imm mk, 0 ≤ r → InReg rd → InReg rs1 →
      [Instr.addi, .andi, .ori, .xori, .slli, .srli, .jalr, .lb, .lh, .lw, .lbu, .lhu][r.toNat]? =
        some mk →
      (if r = 4 ∨ r = 5 then InShamt imm else InImm12 imm) →
      select c (.random (.known .I)) (r :: rd :: rs1 :: imm :: left) = .runs (mk rd rs1 imm) left) ∧
    (∀ r rs1 rs2 imm mk, 0 ≤ r → InReg rs1 → InReg rs2 → InImm12 imm →
      [Instr.sb, .sh, .sw][r.toNat]? = some mk →
      select c (.random (.known .S)) (r :: rs1 :: rs2 :: imm :: left) = .runs (mk rs1 rs2 imm) left) ∧
    (∀ r rs1 rs2 k mk, 0 ≤ r → InReg rs1 → InReg rs2 → -2048 ≤ k → k ≤ 2047 →
      [Instr.beq, .bne, .blt, .bge, .bltu, .bgeu][r.toNat]? = some mk →
      select c (.random (.known .B)) (r :: rs1 :: rs2 :: k :: left) = .runs (mk rs1 rs2 (k * 2)) left ∧
        InOffset13 (k * 2)) ∧
    (∀ rd imm, InReg rd → InImm20 imm →
      select c (.random (.known .U)) (0 :: rd :: imm :: left) = .runs (.lui rd imm) left ∧
      select c (.random (.known .U)) (1 :: rd :: imm :: left) = .runs (.auipc rd imm) left) ∧
    (∀ rd v, InReg rd → -524288 ≤ v → v ≤ 524287 →
      select c (.random (.known .J)) (rd :: v :: left) = .runs (.jal rd (v * 2)) left ∧
        InOffset21 (v * 2)) ∧
    (∀ r i, 0 ≤ r → [Instr.ecall, .ebreak, .fence, .fenceTso, .pause][r.toNat]? = some i →
      select c (.random (.known .SYS)) (r :: left) = .runs i left)

/-- R113, R205: a row draw outside its table raises `F_SELECT`, an operand draw outside its range
`F_RANGE`, as it is made: the draws before it are consumed, those after it are not. The value recorded for
a `B` or `J` offset is the doubled draw (log entry 13). The step on a request whose selection raises takes
that fault at once, with exactly those draws gone (R111, R113, R118). -/
def Obligations.RandomDrawOutOfRangeRaises : Prop :=
  (∀ (s : State) (req : Request) (later : List Input) (info : FaultInfo) (left : List Int),
    s.cfg.structured = true → s.faultCause = .none → s.inputs = .request req :: later →
    select s.cfg req s.draws = .raises info left →
    ∃ t, step s = .next t ∧ Faulted s info t ∧ t.draws = left ∧ t.inputs = later ∧
      t.sinkOk = s.sinkOk) ∧
  ∀ (c : Config) (left : List Int), c.structured = true →
    (∀ f rows r, (f, rows) ∈ [(Fmt.R, 7), (.I, 11), (.S, 2), (.B, 5), (.U, 1), (.SYS, 4)] →
      ¬ (0 ≤ r ∧ r ≤ (rows : Int)) →
      select c (.random (.known f)) (r :: left) = .raises (.select (.known f) (.rowIndex r)) left) ∧
    (∀ f rows r rd, (f, rows) ∈ [(Fmt.R, 7), (.I, 11), (.U, 1)] → 0 ≤ r → r ≤ (rows : Int) →
      ¬ InReg rd →
      select c (.random (.known f)) (r :: rd :: left) = .raises (.range .rd rd) left) ∧
    (∀ rd, ¬ InReg rd →
      select c (.random (.known .J)) (rd :: left) = .raises (.range .rd rd) left) ∧
    (∀ f rows r rd rs1, (f, rows) ∈ [(Fmt.R, 7), (.I, 11)] → 0 ≤ r → r ≤ (rows : Int) → InReg rd →
      ¬ InReg rs1 →
      select c (.random (.known f)) (r :: rd :: rs1 :: left) = .raises (.range .rs1 rs1) left) ∧
    (∀ f rows r rs1, (f, rows) ∈ [(Fmt.S, 2), (.B, 5)] → 0 ≤ r → r ≤ (rows : Int) → ¬ InReg rs1 →
      select c (.random (.known f)) (r :: rs1 :: left) = .raises (.range .rs1 rs1) left) ∧
    (∀ f rows r rs1 rs2, (f, rows) ∈ [(Fmt.S, 2), (.B, 5)] → 0 ≤ r → r ≤ (rows : Int) → InReg rs1 →
      ¬ InReg rs2 →
      select c (.random (.known f)) (r :: rs1 :: rs2 :: left) = .raises (.range .rs2 rs2) left) ∧
    (∀ r rd rs1 rs2, 0 ≤ r → r ≤ 7 → InReg rd → InReg rs1 → ¬ InReg rs2 →
      select c (.random (.known .R)) (r :: rd :: rs1 :: rs2 :: left) = .raises (.range .rs2 rs2) left) ∧
    (∀ r rd rs1 imm, 0 ≤ r → r ≤ 11 → InReg rd → InReg rs1 →
      ¬ (if r = 4 ∨ r = 5 then InShamt imm else InImm12 imm) →
      select c (.random (.known .I)) (r :: rd :: rs1 :: imm :: left) = .raises (.range .imm imm) left) ∧
    (∀ r rs1 rs2 imm, 0 ≤ r → r ≤ 2 → InReg rs1 → InReg rs2 → ¬ InImm12 imm →
      select c (.random (.known .S)) (r :: rs1 :: rs2 :: imm :: left) = .raises (.range .imm imm) left) ∧
    (∀ r rs1 rs2 k, 0 ≤ r → r ≤ 5 → InReg rs1 → InReg rs2 → ¬ (-2048 ≤ k ∧ k ≤ 2047) →
      select c (.random (.known .B)) (r :: rs1 :: rs2 :: k :: left) =
        .raises (.range .imm (k * 2)) left) ∧
    (∀ r rd imm, 0 ≤ r → r ≤ 1 → InReg rd → ¬ InImm20 imm →
      select c (.random (.known .U)) (r :: rd :: imm :: left) = .raises (.range .imm imm) left) ∧
    (∀ rd v, InReg rd → ¬ (-524288 ≤ v ∧ v ≤ 524287) →
      select c (.random (.known .J)) (rd :: v :: left) = .raises (.range .imm (v * 2)) left)

/-- R116, first sentence: a random request that selects an instruction is answered as the directed request
for it. -/
def Obligations.RandomAnswersAsDirected : Prop :=
  ∀ (s : State) (tag : FmtTag) (later : List Input) (i : Instr) (left : List Int),
    s.cfg.structured = true → s.faultCause = .none →
    s.inputs = .request (.random tag) :: later →
    select s.cfg (.random tag) s.draws = .runs i left →
    (s.imgPtr + 4 ≤ s.cfg.imageBase + s.cfg.imageBytes → s.sinkOk ≠ []) →
    step s = step { s with inputs := .request (i.toRequest s.cfg) :: later, draws := left }

/-- R116, second sentence: the instructions a random request of a format can select are exactly the rows
of the format over all legal operands. -/
def Obligations.RandomReachesExactlyLegalInstructions : Prop :=
  ∀ (c : Config) (f : Fmt) (i : Instr), c.structured = true →
    ((∃ draws left, select c (.random (.known f)) draws = .runs i left) ↔ i.fmt = f ∧ i.wf = true)

/-! ## Encodings, row by row -/

/-- R146 to R153: the eight rows of format `R`, and that each gives distinct operands distinct words. -/
def Obligations.ArithmeticRegisterRows : Prop :=
  RegisterRow .add "add" 0b0000000#7 0b000#3 ∧ RegisterRow .sub "sub" 0b0100000#7 0b000#3 ∧
  RegisterRow .and "and" 0b0000000#7 0b111#3 ∧ RegisterRow .or "or" 0b0000000#7 0b110#3 ∧
  RegisterRow .xor "xor" 0b0000000#7 0b100#3 ∧ RegisterRow .sll "sll" 0b0000000#7 0b001#3 ∧
  RegisterRow .srl "srl" 0b0000000#7 0b101#3 ∧ RegisterRow .sra "sra" 0b0100000#7 0b101#3 ∧
  (∀ (funct7 : BitVec 7) (funct3 : BitVec 3) (rd rs1 rs2 rd' rs1' rs2' : Int),
    InReg rd → InReg rs1 → InReg rs2 → InReg rd' → InReg rs1' → InReg rs2' →
    (funct7 ++ field 5 rs2 ++ field 5 rs1 ++ funct3 ++ field 5 rd ++ 0b0110011#7 : BitVec 32) =
      funct7 ++ field 5 rs2' ++ field 5 rs1' ++ funct3 ++ field 5 rd' ++ 0b0110011#7 →
    rd = rd' ∧ rs1 = rs1' ∧ rs2 = rs2')

/-- R158 to R161: the four `arith` rows of format `I`. -/
def Obligations.ImmediateArithmeticRows : Prop :=
  ArithRow .addi "addi" 0b000#3 ∧ ArithRow .andi "andi" 0b111#3 ∧
  ArithRow .ori "ori" 0b110#3 ∧ ArithRow .xori "xori" 0b100#3

/-- R162, R163: the two `shift` rows of format `I`. -/
def Obligations.ImmediateShiftRows : Prop :=
  ShiftRow .slli "slli" 0b001#3 ∧ ShiftRow .srli "srli" 0b101#3

/-- R164 to R169: `jalr` and the five loads. -/
def Obligations.JalrAndLoadRows : Prop :=
  MemRow .jalr "jalr" 0b000#3 0b1100111#7 ∧ MemRow .lb "lb" 0b000#3 0b0000011#7 ∧
  MemRow .lh "lh" 0b001#3 0b0000011#7 ∧ MemRow .lw "lw" 0b010#3 0b0000011#7 ∧
  MemRow .lbu "lbu" 0b100#3 0b0000011#7 ∧ MemRow .lhu "lhu" 0b101#3 0b0000011#7

/-- R171 to R173: the three rows of format `S`. -/
def Obligations.StoreRows : Prop :=
  StoreRow .sb "sb" 0b000#3 ∧ StoreRow .sh "sh" 0b001#3 ∧ StoreRow .sw "sw" 0b010#3

/-- R176 to R181: the six rows of format `B`. -/
def Obligations.BranchRows : Prop :=
  BranchRow .beq "beq" 0b000#3 ∧ BranchRow .bne "bne" 0b001#3 ∧ BranchRow .blt "blt" 0b100#3 ∧
  BranchRow .bge "bge" 0b101#3 ∧ BranchRow .bltu "bltu" 0b110#3 ∧ BranchRow .bgeu "bgeu" 0b111#3

/-- R184, R185: the two rows of format `U`. -/
def Obligations.UpperImmediateRows : Prop :=
  UpperRow .lui "lui" 0b0110111#7 ∧ UpperRow .auipc "auipc" 0b0010111#7

/-- R187: `jal`, `word = imm[20] ‖ imm[10:1] ‖ imm[11] ‖ imm[19:12] ‖ rd ‖ 1101111`. -/
def Obligations.JumpRow : Prop :=
  ∀ (s : State) (rd imm : Int), DefaultTables s → s.faultCause = .none →
    (InReg rd → InOffset21 imm → CanEmit s → ∃ t, exec (.jal rd imm) s = .next t ∧
      Emitted s (bits (field 21 imm) 20 20 ++ bits (field 21 imm) 10 1 ++ bits (field 21 imm) 11 11 ++
          bits (field 21 imm) 19 12 ++ field 5 rd ++ 0b1101111#7)
        ("jal x" ++ toString rd ++ ", " ++ toString imm) t) ∧
    (¬ InReg rd → ∃ t, exec (.jal rd imm) s = .next t ∧ Faulted s (.range .rd rd) t) ∧
    (InReg rd → ¬ InOffset21 imm → ∃ t, exec (.jal rd imm) s = .next t ∧ Faulted s (.range .imm imm) t)

/-- R191 to R195: the five system literals, their texts and their bytes. -/
def Obligations.SystemRows : Prop :=
  SystemRow .ecall 0x00000073#32 0x73#8 0x00#8 0x00#8 0x00#8 "ecall" ∧
  SystemRow .ebreak 0x00100073#32 0x73#8 0x00#8 0x10#8 0x00#8 "ebreak" ∧
  SystemRow .fence 0x0FF0000F#32 0x0F#8 0x00#8 0xF0#8 0x0F#8 "fence" ∧
  SystemRow .fenceTso 0x8330000F#32 0x0F#8 0x00#8 0x30#8 0x83#8 "fence.tso" ∧
  SystemRow .pause 0x0100000F#32 0x0F#8 0x00#8 0x00#8 0x01#8 "pause"

/-- Under every configuration whose row fits its fields, a legal instruction is emitted as the word of its
layout (R67 to R74) and the text of its template (R98): the codec's pseudocode and the layouts agree. That a
system row prints its mnemonic as `SYS_LITERALS` gives it, whatever its form, is log entry 19. -/
def Obligations.EveryCatalogEmitsTheLayoutWord : Prop :=
  ∀ (i : Instr) (s : State), s.faultCause = .none → i.wf = true → i.rowFits s.cfg = true → CanEmit s →
    ∃ t, exec i s = .next t ∧ Emitted s (encodeWith s.cfg i) (i.text s.cfg) t

/-- R37, R202: a row with a value wider than its field raises `F_CODEC`, recording a value of that row that
does not fit and the width of its field, and writes nothing. -/
def Obligations.MalformedRowRaisesCodec : Prop :=
  ∀ (i : Instr) (s : State), s.faultCause = .none → i.wf = true →
    (∃ v n, (v, n) ∈ i.catalogValues s.cfg ∧ Misfit v n) →
    ∃ t v n, (v, n) ∈ i.catalogValues s.cfg ∧ Misfit v n ∧ exec i s = .next t ∧
      Faulted s (.codec (.packMisfit v n .unsigned)) t

/-- R112: the operands are checked in the order `rd`, `rs1`, `rs2`, `imm`, those the row does not use left
out, and `F_RANGE` names the first that is illegal. -/
def Obligations.FirstIllegalOperandIsNamed : Prop :=
  ∀ i : Instr, (i.operands.map (·.name)).Sublist [.rd, .rs1, .rs2, .imm] ∧
    ∀ (s : State) (before : List UsedOperand) (o : UsedOperand) (after : List UsedOperand),
      s.faultCause = .none → i.operands = before ++ o :: after → (∀ p ∈ before, p.legal = true) →
      o.legal = false → ∃ t, exec i s = .next t ∧ Faulted s (.range o.name o.value) t

/-- R47, R56, R117: the word is written only when the image has room and then the sink answers `true`;
otherwise `F_IO` with the address, and no byte. -/
def Obligations.EmitOrIoFault : Prop :=
  ∀ (i : Instr) (s : State), s.faultCause = .none → i.wf = true → i.rowFits s.cfg = true →
    (s.cfg.imageBase + s.cfg.imageBytes < s.imgPtr + 4 →
      ∃ t, exec i s = .next t ∧ Faulted s (.io s.imgPtr) t) ∧
    (s.imgPtr + 4 ≤ s.cfg.imageBase + s.cfg.imageBytes → s.sinkOk.head? = some false →
      ∃ t, exec i s = .next t ∧ Faulted s (.io s.imgPtr) t) ∧
    (s.imgPtr + 4 ≤ s.cfg.imageBase + s.cfg.imageBytes → s.sinkOk.head? = some true →
      ∃ t w asm, exec i s = .next t ∧ Emitted s w asm t)

/-! ## The image -/

/-- R48: the four bytes at the address of an `Ok` response reassemble to its word. -/
def Obligations.EmittedBytesReassemble : Prop :=
  ∀ (s t : State) (w : Word) (asm : String) (a : Nat), step s = .next t → TookInput s t →
    t.response = some (.ok w asm a) →
    ∃ b0 b1 b2 b3, t.image.read a = some b0 ∧ t.image.read (a + 1) = some b1 ∧
      t.image.read (a + 2) = some b2 ∧ t.image.read (a + 3) = some b3 ∧
      b0.setWidth 32 ||| b1.setWidth 32 <<< 8 ||| b2.setWidth 32 <<< 16 ||| b3.setWidth 32 <<< 24 = w

/-- R49: the consumer's 16-bit units at the address of an `Ok` response are the halves of the word, its
32-bit unit the word. -/
def Obligations.MixedWidthViews : Prop :=
  ∀ (s t : State) (w : Word) (asm : String) (a : Nat), PtrInv s → step s = .next t → TookInput s t →
    t.response = some (.ok w asm a) →
    t.readHalf a = .ok (bits w 15 0) ∧ t.readHalf (a + 2) = .ok (bits w 31 16) ∧ t.readWord a = .ok w

/-- R52: after a request either all four bytes of its word are written and the response is `Ok`, or none
is and the response is `Fault` or `Halted`; a held request has no response yet and writes nothing. -/
def Obligations.AllFourBytesOrNone : Prop :=
  ∀ (s t : State) (req : Request) (later : List Input), s.inputs = .request req :: later →
    step s = .next t →
    (∃ w asm, Emitted s w asm t) ∨
    ((∀ a, t.image.read a = s.image.read a) ∧
      ((∃ cause info, t.response = some (.fault cause info)) ∨
        (∃ cause, t.response = some (.halted cause)) ∨ t = s))

/-- R31: `img_ptr` is advanced by exactly 4 by each successful request and changes at no other time except
reset; on every reachable state it is `IMAGE_BASE + 4 * (number of Ok responses since reset)`. -/
def Obligations.PointerCountsOkResponses : Prop :=
  (∀ s t : State, step s = .next t →
    (answeredOk s t = true ∧ t.imgPtr = s.imgPtr + 4) ∨
    ((∃ later, s.inputs = .reset :: later) ∧ t.imgPtr = s.cfg.imageBase) ∨
    (answeredOk s t = false ∧ t.imgPtr = s.imgPtr)) ∧
  (∀ (s : State) (words : List Word), Reaches s words →
    s.imgPtr = s.cfg.imageBase + 4 * words.length ∧ (s.imgPtr - s.cfg.imageBase) % 4 = 0) ∧
  (∀ cfg inputs draws sinkOk, (State.resetWith cfg inputs draws sinkOk).imgPtr = cfg.imageBase)

/-- R29, R48, R53, R54, R213: on every reachable state the image is the words of the `Ok` responses since
reset, in order from `IMAGE_BASE` on, and nothing else: each stands at its place, no further byte holds a
value, and the next word is written over no written byte. -/
def Obligations.ReachableImageIsThePrefix : Prop :=
  ∀ (s : State) (words : List Word), Reaches s words →
    s.wordsEmitted = words.length ∧
    (∀ k w, words[k]? = some w → s.readWord (s.cfg.imageBase + 4 * k) = .ok w) ∧
    (∀ a, (∃ b, s.readImage a = .ok b) ↔
      s.cfg.imageBase ≤ a ∧ a < s.cfg.imageBase + 4 * words.length) ∧
    (∀ a, s.imgPtr ≤ a → s.image.read a = none)

/-- Every step keeps the invariant: the configuration is structured, `img_ptr` is aligned and inside the
image, the written bytes are exactly those below it, and every word of the image is a word of the
catalog with legal operands. -/
def Obligations.StepKeepsInvariant : Prop :=
  ∀ s t : State, Inv s → step s = .next t → Inv t

/-- Every step and every instruction keeps the canonical form of the image. -/
def Obligations.ImageStaysCanonical : Prop :=
  (∀ s t : State, s.image.wf = true → step s = .next t → t.image.wf = true) ∧
  (∀ (i : Instr) (s t : State), s.image.wf = true → exec i s = .next t → t.image.wf = true)

/-! ## Decode and round trip -/

/-- Words written out from the encoding tables decode to the instructions they stand for (L1-1, L1-2,
L2-DEC). -/
def Obligations.SampleWordsDecode : Prop :=
  decode Config.default (0b0000000#7 ++ 0b00011#5 ++ 0b00010#5 ++ 0b000#3 ++ 0b00001#5 ++ 0b0110011#7) =
    .row (.add 1 2 3) ∧
  decode Config.default (0b000000000011#12 ++ 0b00000#5 ++ 0b000#3 ++ 0b00010#5 ++ 0b0010011#7) =
    .row (.addi 2 0 3) ∧
  decode Config.default
    (0b1111111#7 ++ 0b00110#5 ++ 0b00111#5 ++ 0b001#3 ++ 0b11110#5 ++ 0b0100011#7) =
    .row (.sh 7 6 (-2)) ∧
  decode Config.default
    (0b1#1 ++ 0b000000#6 ++ 0b00010#5 ++ 0b00001#5 ++ 0b000#3 ++ 0b0000#4 ++ 0b0#1 ++ 0b1100011#7) =
    .row (.beq 1 2 (-4096)) ∧
  decode Config.default (0b0#1 ++ 0b0000000000#10 ++ 0b1#1 ++ 0b00000000#8 ++ 0b00001#5 ++ 0b1101111#7) =
    .row (.jal 1 2048) ∧
  decode Config.default 0x8330000F#32 = .row .fenceTso ∧
  decode Config.default 0x40005013#32 = .notInCatalog

/-- R136: decode is total; under a structured configuration it answers the one row that selects the word
with the word's fields, or `NotInCatalog` when none does. -/
def Obligations.DecodeAnswersTheSelectingRow : Prop :=
  ∀ (c : Config) (w : Word), c.structured = true →
    (∃ row ∈ catalogRows, row.selectedBy c w = true ∧
      (∀ other ∈ catalogRows, other.selectedBy c w = true → other = row) ∧
      decode c w = .row (decodeFields row w)) ∨
    ((∀ row ∈ catalogRows, row.selectedBy c w = false) ∧ decode c w = .notInCatalog)

/-- Decode and encode agree: the word of every legal instruction of every structured configuration decodes
to that instruction, with every operand (R84, R91). -/
def Obligations.DecodeOfEncodeIsTheInstruction : Prop :=
  ∀ (c : Config) (i : Instr), c.structured = true → i.wf = true → i.rowFits c = true →
    decode c (encodeWith c i) = .row i

/-- The other direction: a word that decodes to an instruction is that instruction's word, and its operands
are legal. No bit of a catalog word is without a meaning. -/
def Obligations.EncodeOfDecodeIsTheWord : Prop :=
  ∀ (c : Config) (w : Word) (i : Instr), c.structured = true → decode c w = .row i →
    i.wf = true ∧ i.rowFits c = true ∧ encodeWith c i = w

/-- R38: no two instructions of a structured configuration have one word. -/
def Obligations.WordsAreDistinct : Prop :=
  ∀ (c : Config) (i j : Instr), c.structured = true → i.wf = true → j.wf = true →
    i.rowFits c = true → j.rowFits c = true → encodeWith c i = encodeWith c j → i = j

/-- R121, R137: a request answered `Ok(word, asm, a)` selected an instruction with legal operands, `word`
decodes to exactly that instruction, its rendering is `asm`, and `a` was `img_ptr`. The rendering of a system
row is its mnemonic as `SYS_LITERALS` gives it, whatever its form (log entry 19). -/
def Obligations.OkResponseRoundTrips : Prop :=
  ∀ (s t : State) (w : Word) (asm : String) (a : Nat), step s = .next t → TookInput s t →
    t.response = some (.ok w asm a) →
    ∃ req later i left, s.inputs = .request req :: later ∧ select s.cfg req s.draws = .runs i left ∧
      i.wf = true ∧ decode s.cfg w = .row i ∧ i.text s.cfg = asm ∧ a = s.imgPtr

/-- R83: an immediate of -1 (-2 for the even offsets of `B` and `J`) stores all ones in every immediate bit, an
immediate of 0 all zeros, under every configuration. -/
def Obligations.AllOnesAndAllZeros : Prop :=
  ∀ (c : Config) (r1 r2 : Int),
    (∀ mk ∈ [Instr.addi, .andi, .ori, .xori, .jalr, .lb, .lh, .lw, .lbu, .lhu],
      bits (encodeWith c (mk r1 r2 (-1))) 31 20 = 0xFFF#12 ∧
      bits (encodeWith c (mk r1 r2 0)) 31 20 = 0#12) ∧
    (∀ mk ∈ [Instr.sb, .sh, .sw],
      bits (encodeWith c (mk r1 r2 (-1))) 31 25 = 0x7F#7 ∧
      bits (encodeWith c (mk r1 r2 (-1))) 11 7 = 0x1F#5 ∧
      bits (encodeWith c (mk r1 r2 0)) 31 25 = 0#7 ∧ bits (encodeWith c (mk r1 r2 0)) 11 7 = 0#5) ∧
    (∀ mk ∈ [Instr.beq, .bne, .blt, .bge, .bltu, .bgeu],
      bits (encodeWith c (mk r1 r2 (-2))) 31 25 = 0x7F#7 ∧
      bits (encodeWith c (mk r1 r2 (-2))) 11 7 = 0x1F#5 ∧
      bits (encodeWith c (mk r1 r2 0)) 31 25 = 0#7 ∧ bits (encodeWith c (mk r1 r2 0)) 11 7 = 0#5) ∧
    (∀ mk ∈ [Instr.lui, .auipc],
      bits (encodeWith c (mk r1 (-1))) 31 12 = 0xFFFFF#20 ∧ bits (encodeWith c (mk r1 0)) 31 12 = 0#20) ∧
    bits (encodeWith c (.jal r1 (-2))) 31 12 = 0xFFFFF#20 ∧ bits (encodeWith c (.jal r1 0)) 31 12 = 0#20

/-- R174, R186: for equal operands the words of two store rows that fit their fields differ only in bits
[14:12], under every structured configuration; with the default tables the words of `lui` and `auipc` differ in bit 5 alone. -/
def Obligations.RowsDifferOnlyWhereStated : Prop :=
  (∀ (c : Config) (r1 r2 imm : Int), c.structured = true →
    ∀ mk ∈ [Instr.sb, .sh, .sw], ∀ mk' ∈ [Instr.sb, .sh, .sw],
      (mk r1 r2 imm).rowFits c = true → (mk' r1 r2 imm).rowFits c = true →
      (encodeWith c (mk r1 r2 imm) ^^^ encodeWith c (mk' r1 r2 imm)) &&& 0xFFFF8FFF#32 = 0#32) ∧
  (∀ rd imm : Int, encode (.lui rd imm) ^^^ encode (.auipc rd imm) = 0x00000020#32)

/-! ## The Field Codec -/

/-- R125: a width below 1 and a value that does not fit raise `F_CODEC`; a value that fits gives the `n`-bit
pattern of `v mod 2^n`. -/
def Obligations.PackFieldPattern : Prop :=
  (∀ (v n : Int) (s : Signedness), n < 1 → packField v n s = .error (.packWidth n)) ∧
  (∀ (v : Int) (n : Nat), 1 ≤ n →
    (¬ (-(2 : Int) ^ (n - 1) ≤ v ∧ v ≤ 2 ^ (n - 1) - 1) →
      packField v n .signed = .error (.packMisfit v n .signed)) ∧
    (¬ (0 ≤ v ∧ v ≤ (2 : Int) ^ n - 1) → packField v n .unsigned = .error (.packMisfit v n .unsigned)) ∧
    (-(2 : Int) ^ (n - 1) ≤ v → v ≤ 2 ^ (n - 1) - 1 →
      ∃ p : BitVec n, packField v n .signed = .ok ⟨n, p⟩ ∧ (p.toNat : Int) = v % 2 ^ n) ∧
    (0 ≤ v → v ≤ (2 : Int) ^ n - 1 →
      ∃ p : BitVec n, packField v n .unsigned = .ok ⟨n, p⟩ ∧ (p.toNat : Int) = v % 2 ^ n))

/-- R128: a range inside the pattern gives the unsigned integer of its bits; any other raises `F_CODEC`. -/
def Obligations.ExtractBitsOfRange : Prop :=
  ∀ (p : Field) (hi lo : Int),
    ((hi < lo ∨ lo < 0 ∨ (p.width : Int) ≤ hi) → extractBits p hi lo = .error (.extractRange hi lo)) ∧
    (0 ≤ lo → lo ≤ hi → hi < (p.width : Int) → ∃ x : Nat, extractBits p hi lo = .ok x ∧
      x = p.bits.toNat / 2 ^ lo.toNat % 2 ^ (hi - lo + 1).toNat ∧
      ∀ k : Nat, x.testBit k = (decide ((k : Int) ≤ hi - lo) && p.bits.getLsbD (lo.toNat + k)))

/-- R130: `concat` joins the fields, the first in the most significant bits; the widths must sum to 32. -/
def Obligations.ConcatJoinsMostSignificantFirst : Prop :=
  (∀ fs : List Field, (concatFields fs).width = (fs.map (·.width)).sum) ∧
  (∀ (f : Field) (fs : List Field), (concatFields (f :: fs)).bits.toNat =
    f.bits.toNat * 2 ^ (fs.map (·.width)).sum + (concatFields fs).bits.toNat) ∧
  (∀ fs : List Field, (fs.map (·.width)).sum = 32 →
    ∃ w : Word, concatWord fs = .ok w ∧ w.toNat = (concatFields fs).bits.toNat) ∧
  (∀ fs : List Field, (fs.map (·.width)).sum ≠ 32 →
    concatWord fs = .error (.concatWidth (fs.map (·.width)).sum))

/-- R132: each field of a concatenated word is read back by `extractBits` at its place. -/
def Obligations.ConcatenatedFieldReadsBack : Prop :=
  ∀ (before : List Field) (f : Field) (after : List Field) (w : Word) (lo : Nat),
    concatWord (before ++ f :: after) = .ok w → 1 ≤ f.width → lo = (after.map (·.width)).sum →
    extractBits ⟨32, w⟩ (lo + f.width - 1) lo = .ok f.bits.toNat

/-- R46, R133: `serialize` gives the four bytes of a word, byte0 first; they are written at ascending
addresses, and reassembly gives the word back. -/
def Obligations.SerializeIsLittleEndian : Prop :=
  ∀ w : Word, ∃ b0 b1 b2 b3 : Byte, serialize w = [b0, b1, b2, b3] ∧
    extractBits ⟨32, w⟩ 7 0 = .ok b0.toNat ∧ extractBits ⟨32, w⟩ 15 8 = .ok b1.toNat ∧
    extractBits ⟨32, w⟩ 23 16 = .ok b2.toNat ∧ extractBits ⟨32, w⟩ 31 24 = .ok b3.toNat ∧
    b0.setWidth 32 ||| b1.setWidth 32 <<< 8 ||| b2.setWidth 32 <<< 16 ||| b3.setWidth 32 <<< 24 = w ∧
    ∀ (m : Memory) (a : Nat), (m.writeWord a w).read a = some b0 ∧
      (m.writeWord a w).read (a + 1) = some b1 ∧ (m.writeWord a w).read (a + 2) = some b2 ∧
      (m.writeWord a w).read (a + 3) = some b3

/-! ## Field widths and the image step -/

/-- R37, U16: field widths alone never make a step refuse. Whatever values of a structured configuration are
made too wide for their fields, the configuration is run, and the request for a row with such a value
raises `F_CODEC` for one of them. -/
def Obligations.MisfitValuesAreNotRefused : Prop :=
  ∀ c d : Config, c.structured = true → MalformedFrom c d →
    d.structured = true ∧
    (∀ s : State, s.cfg = d → ∃ t, step s = .next t) ∧
    (∀ (s : State) (req : Request) (later : List Input) (i : Instr) (left : List Int), s.cfg = d →
      s.faultCause = .none → s.inputs = .request req :: later → select d req s.draws = .runs i left →
      i.wf = true → (∃ v n, (v, n) ∈ i.catalogValues d ∧ Misfit v n) →
      ∃ t v n, (v, n) ∈ i.catalogValues d ∧ Misfit v n ∧ step s = .next t ∧
        Faulted s (.codec (.packMisfit v n .unsigned)) t)

/-- From every state whose pointer is aligned inside the image and whose written bytes are exactly those
below it, a step gives such a state again; and it writes the word of its `Ok` response, and only then,
over no written byte. -/
def Obligations.StepKeepsImageBelowPointer : Prop :=
  ∀ s t : State, PtrInv s → ImageInv s → step s = .next t →
    PtrInv t ∧ ImageInv t ∧
    (∀ w, okWord s t = some w →
      s.image.read s.imgPtr = none ∧ t.readWord s.imgPtr = .ok w ∧
      ∀ a, a < s.imgPtr → t.image.read a = s.image.read a) ∧
    (okWord s t = none → t.image = s.image ∨ (t.image = [] ∧ ∃ later, s.inputs = .reset :: later))
end

