-- ==== Sys2Proof/Laws/Admission.lean ====
section
/-! SUPPORT. The checks of an admitted configuration on values that may not fit their fields: what each
comparison says of values that fit, and that a value that does not fit never makes one fail. -/

namespace Sys2Proof

open Sys2Proof.Machine (fitsField)

theorem sameWhereFit_iff {n : Nat} {v w : Int} : sameWhereFit n v w = true ↔
    (fitsField v n .unsigned = true → fitsField w n .unsigned = true → v = w) := by
  unfold sameWhereFit
  cases fitsField v n .unsigned <;> cases fitsField w n .unsigned <;> simp

theorem differWhereFit_iff {n : Nat} {v w : Int} : differWhereFit n v w = true ↔
    (fitsField v n .unsigned = true → fitsField w n .unsigned = true → v ≠ w) := by
  unfold differWhereFit
  cases fitsField v n .unsigned <;> cases fitsField w n .unsigned <;> simp

theorem allSameWhereFit_iff {n : Nat} {vs : List Int} : allSameWhereFit n vs = true ↔
    ∀ v ∈ vs, ∀ w ∈ vs, sameWhereFit n v w = true := by
  simp [allSameWhereFit]

theorem allDifferWhereFit_iff {n : Nat} {vs : List Int} : allDifferWhereFit n vs = true ↔
    vs.Pairwise fun v w => differWhereFit n v w = true := by
  induction vs with
  | nil => simp [allDifferWhereFit]
  | cons v vs ih => simp [allDifferWhereFit, ih]

theorem functPairsDiffer_iff {xs : List RRow} : functPairsDiffer xs = true ↔
    xs.Pairwise fun x y => differWhereFit 7 x.funct7 y.funct7 = true ∨
      differWhereFit 3 x.funct3 y.funct3 = true := by
  induction xs with
  | nil => simp [functPairsDiffer]
  | cons x xs ih => simp [functPairsDiffer, ih]

theorem pairwiseDisjoint_iff {ps : List RowPattern} : pairwiseDisjoint ps = true ↔
    ps.Pairwise fun p q => p.disjoint q = true := by
  induction ps with
  | nil => simp [pairwiseDisjoint]
  | cons p ps ih => simp [pairwiseDisjoint, ih]

/-- A row fits exactly when each of its values does (R37). -/
theorem rowFits_iff {c : Config} {i : Instr} : i.rowFits c = true ↔
    ∀ p ∈ i.catalogValues c, fitsField p.1 p.2 .unsigned = true := by
  cases i <;>
    simp only [Instr.rowFits, Instr.pattern, Instr.catalogValues, RRow.pattern, IRow.pattern,
      FunctRow.pattern, OpcodeRow.pattern, SysRow.pattern, Option.isSome_ite] <;>
    simp [RRow.fits, IRow.fits, FunctRow.fits, OpcodeRow.fits, SysRow.fits, RRow.values, IRow.values,
      FunctRow.values, OpcodeRow.values, SysRow.values, and_assoc]

/-- Two rows of a structured format `S` catalog that fit have one opcode (R85 (d)). -/
theorem store_opcodes {c : Config} (h : c.structured = true) {x y : FunctRow}
    (hx : x ∈ c.catalog.s.toList) (hy : y ∈ c.catalog.s.toList) (fx : x.fits = true)
    (fy : y.fits = true) : x.opcode = y.opcode := by
  have hs : functRowsOk c.catalog.s.toList = true := by
    simp only [Config.structured, Bool.and_eq_true] at h
    exact h.1.1.1.1.1.1.2
  simp only [functRowsOk, Bool.and_eq_true] at hs
  simp only [FunctRow.fits, Bool.and_eq_true] at fx fy
  exact sameWhereFit_iff.mp (allSameWhereFit_iff.mp hs.1 _ (List.mem_map_of_mem hx) _
    (List.mem_map_of_mem hy)) fx.2 fy.2

end Sys2Proof
end

