-- ==== Sys2Proof/Laws/FieldCodec.lean ====
section
/-! SUPPORT. What the Field Codec does on the arguments its callers give it: `packField` of a value that
fits, `extractBits` of a range inside the pattern, `concat` of widths that sum to 32, and the values of
truncation, extension, concatenation and extraction as integers. -/

namespace Sys2Proof.Machine

/-! ## Bit patterns as numbers -/

/-- The value of a concatenation (R130). -/
theorem toNat_append_add {m n : Nat} (x : BitVec m) (y : BitVec n) :
    (x ++ y).toNat = x.toNat * 2 ^ n + y.toNat := by
  rw [BitVec.toNat_append, ← Nat.shiftLeft_add_eq_or_of_lt y.isLt, Nat.shiftLeft_eq]

/-- The value of an extracted range (R128). -/
theorem toNat_extract {n : Nat} (w : BitVec n) (lo k : Nat) :
    (w.extractLsb' lo k).toNat = w.toNat / 2 ^ lo % 2 ^ k := by
  simp [BitVec.extractLsb'_toNat, Nat.shiftRight_eq_div_pow]

/-- `zext_n(trunc_n(v)) = v` for a value that fits unsigned (R134). -/
theorem zext_trunc {n : Nat} {v : Int} (h : fitsField v n .unsigned = true) :
    zext (trunc n v) = v := by
  simp only [fitsField, decide_eq_true_eq] at h
  simp only [zext, trunc, BitVec.toNat_ofInt]
  rw [Int.toNat_of_nonneg (Int.emod_nonneg _ (by positivity))]
  exact Int.emod_eq_of_lt h.1 (by push_cast at h ⊢; omega)

/-- `sext_n(trunc_n(v)) = v` for a value that fits signed (R134). -/
theorem sext_trunc {n : Nat} {v : Int} (hn : 1 ≤ n) (h : fitsField v n .signed = true) :
    sext (trunc n v) = v := by
  simp only [fitsField, decide_eq_true_eq] at h
  obtain ⟨k, rfl⟩ : ∃ k, n = k + 1 := ⟨n - 1, by omega⟩
  simp only [Nat.add_sub_cancel] at h
  simp only [sext, trunc, BitVec.toInt_ofInt]
  apply Int.bmod_eq_of_le
  · have : ((2 ^ (k + 1) : Nat) : Int) / 2 = ((2 ^ k : Nat) : Int) := by
      rw [pow_succ]; push_cast; omega
    rw [this]; exact h.1
  · have : (((2 ^ (k + 1) : Nat) : Int) + 1) / 2 = ((2 ^ k : Nat) : Int) := by
      rw [pow_succ]; push_cast; omega
    rw [this]; omega

/-! ## packField -/

/-- `packField` of a value that fits is its truncation (R125). -/
theorem packField_fits {v n : Int} {s : Signedness} (hn : 1 ≤ n)
    (h : fitsField v n.toNat s = true) : packField v n s = .ok ⟨n.toNat, trunc n.toNat v⟩ := by
  rw [packField, if_neg (by omega), if_pos h]

/-- `packField` of a value that does not fit raises (R125). -/
theorem packField_misfit {v n : Int} {s : Signedness} (hn : 1 ≤ n)
    (h : fitsField v n.toNat s = false) : packField v n s = .error (.packMisfit v n s) := by
  rw [packField, if_neg (by omega), h]; rfl

/-- Everything `packField` can answer. -/
theorem packField_cases (v n : Int) (s : Signedness) :
    (n < 1 ∧ packField v n s = .error (.packWidth n)) ∨
    (1 ≤ n ∧ fitsField v n.toNat s = false ∧ packField v n s = .error (.packMisfit v n s)) ∨
    (1 ≤ n ∧ fitsField v n.toNat s = true ∧
      packField v n s = .ok ⟨n.toNat, trunc n.toNat v⟩) := by
  by_cases hn : n < 1
  · exact .inl ⟨hn, by rw [packField, if_pos hn]⟩
  · cases h : fitsField v n.toNat s with
    | false => exact .inr (.inl ⟨by omega, rfl, packField_misfit (by omega) h⟩)
    | true => exact .inr (.inr ⟨by omega, rfl, packField_fits (by omega) h⟩)

/-! ## extractBits -/

/-- `extractBits` of a range inside the pattern (R128). -/
theorem extractBits_inside (p : Field) {hi lo : Nat} (h1 : lo ≤ hi) (h2 : hi < p.width) :
    extractBits p hi lo = .ok (p.bits.extractLsb' lo (hi - lo + 1)).toNat := by
  rw [extractBits, if_neg (by omega), toNat_extract]
  congr 2
  have : ((hi : Int) - lo + 1).toNat = hi - lo + 1 := by omega
  rw [this]

/-- Packing an extracted range gives the range as a field of its own width (R129). -/
theorem packField_extract {m : Nat} (t : BitVec m) (lo k : Nat) (hk : 1 ≤ k) :
    packField (t.extractLsb' lo k).toNat k .unsigned = .ok ⟨k, t.extractLsb' lo k⟩ := by
  have hfit : fitsField ((t.extractLsb' lo k).toNat : Int) k .unsigned = true := by
    have := (t.extractLsb' lo k).isLt
    simp only [fitsField, decide_eq_true_eq]; omega
  have h := packField_fits (n := k) (s := .unsigned) (by omega) hfit
  rw [h]
  simp only [Int.toNat_natCast, trunc, BitVec.ofInt_natCast, BitVec.ofNat_toNat,
    BitVec.setWidth_eq]

/-! ## concat -/

/-- The value of a concatenation, as a number. -/
def concatNat (fs : List Field) : Nat := (concatFields fs).bits.toNat

theorem concatNat_nil : concatNat [] = 0 := rfl

theorem concatNat_cons (f : Field) (fs : List Field) :
    concatNat (f :: fs) = f.bits.toNat * 2 ^ (concatFields fs).width + concatNat fs :=
  toNat_append_add _ _

theorem concatFields_nil_width : (concatFields []).width = 0 := rfl

theorem concatFields_cons_width (f : Field) (fs : List Field) :
    (concatFields (f :: fs)).width = f.width + (concatFields fs).width := rfl

/-- The width of a concatenation is the sum of the widths (R130). -/
theorem concatFields_width (fs : List Field) :
    (concatFields fs).width = (fs.map (·.width)).sum := by
  induction fs with
  | nil => rfl
  | cons f fs ih => simp [concatFields_cons_width, ih]

/-- `concat` in an encoder answers the word of the same value when the widths sum to 32 (R130). -/
theorem concatWord_eq {fs : List Field} {w : Word} (hw : (concatFields fs).width = 32)
    (hv : concatNat fs = w.toNat) : concatWord fs = .ok w := by
  rw [concatWord, dif_pos hw]
  congr 1
  apply BitVec.eq_of_toNat_eq
  rw [BitVec.toNat_cast]; exact hv

/-- Widths that do not sum to 32 raise (R130). -/
theorem concatWord_misfit {fs : List Field} (hw : (concatFields fs).width ≠ 32) :
    concatWord fs = .error (.concatWidth (concatFields fs).width) := by
  rw [concatWord, dif_neg hw]

/-- The two equations of `Except` sequencing every encoder is read with. -/
@[simp] theorem except_ok_bind {ε α β : Type} (a : α) (k : α → Except ε β) :
    ((Except.ok a : Except ε α) >>= k) = k a := rfl

@[simp] theorem except_error_bind {ε α β : Type} (e : ε) (k : α → Except ε β) :
    ((Except.error e : Except ε α) >>= k) = .error e := rfl

end Sys2Proof.Machine
end

