-- ==== Sys2Proof/Laws/Encoders.lean ====
section
/-! SUPPORT. One spec lemma per family encoder: on operands in range and a row that fits, the codec's word
is the layout of R67 to R74 and the text the template of R98. -/

namespace Sys2Proof.Machine

theorem fits_reg {v : Int} (h : 0 ≤ v ∧ v ≤ 31) : fitsField v 5 .unsigned = true := by
  simp only [fitsField, decide_eq_true_eq]; omega

theorem fits_imm12 {v : Int} (h : -2048 ≤ v ∧ v ≤ 2047) : fitsField v 12 .signed = true := by
  simp only [fitsField, decide_eq_true_eq]; omega

theorem fits_offset13 {v : Int} (h : -4096 ≤ v ∧ v ≤ 4094) : fitsField v 13 .signed = true := by
  simp only [fitsField, decide_eq_true_eq]; omega

theorem fits_imm20 {v : Int} (h : -524288 ≤ v ∧ v ≤ 524287) : fitsField v 20 .signed = true := by
  simp only [fitsField, decide_eq_true_eq]; omega

theorem fits_offset21 {v : Int} (h : -1048576 ≤ v ∧ v ≤ 1048574) :
    fitsField v 21 .signed = true := by
  simp only [fitsField, decide_eq_true_eq]; omega

/-- A register index is packed into five bits. -/
theorem pack_reg {v : Int} (h : 0 ≤ v ∧ v ≤ 31) :
    packField v 5 .unsigned = .ok ⟨5, trunc 5 v⟩ := packField_fits (by decide) (fits_reg h)

theorem pack_opcode {v : Int} (h : fitsField v 7 .unsigned = true) :
    packField v 7 .unsigned = .ok ⟨7, trunc 7 v⟩ := packField_fits (by decide) h

theorem pack_funct3 {v : Int} (h : fitsField v 3 .unsigned = true) :
    packField v 3 .unsigned = .ok ⟨3, trunc 3 v⟩ := packField_fits (by decide) h

theorem pack_imm12 {v : Int} (h : -2048 ≤ v ∧ v ≤ 2047) :
    packField v 12 .signed = .ok ⟨12, trunc 12 v⟩ := packField_fits (by decide) (fits_imm12 h)

theorem pack_offset13 {v : Int} (h : -4096 ≤ v ∧ v ≤ 4094) :
    packField v 13 .signed = .ok ⟨13, trunc 13 v⟩ := packField_fits (by decide) (fits_offset13 h)

theorem pack_imm20 {v : Int} (h : -524288 ≤ v ∧ v ≤ 524287) :
    packField v 20 .signed = .ok ⟨20, trunc 20 v⟩ := packField_fits (by decide) (fits_imm20 h)

theorem pack_offset21 {v : Int} (h : -1048576 ≤ v ∧ v ≤ 1048574) :
    packField v 21 .signed = .ok ⟨21, trunc 21 v⟩ := packField_fits (by decide) (fits_offset21 h)

/-! ## Concatenations of each layout -/

theorem concat_R (a : BitVec 7) (b c : BitVec 5) (d : BitVec 3) (e : BitVec 5) (f : BitVec 7) :
    concatWord [⟨7, a⟩, ⟨5, b⟩, ⟨5, c⟩, ⟨3, d⟩, ⟨5, e⟩, ⟨7, f⟩] =
      .ok (a ++ b ++ c ++ d ++ e ++ f : BitVec 32) := by
  refine concatWord_eq rfl ?_
  simp only [concatNat_cons, concatNat_nil, concatFields_cons_width, concatFields_nil_width,
    toNat_append_add]
  omega

theorem concat_I (a : BitVec 12) (b : BitVec 5) (c : BitVec 3) (d : BitVec 5) (e : BitVec 7) :
    concatWord [⟨12, a⟩, ⟨5, b⟩, ⟨3, c⟩, ⟨5, d⟩, ⟨7, e⟩] =
      .ok (a ++ b ++ c ++ d ++ e : BitVec 32) := by
  refine concatWord_eq rfl ?_
  simp only [concatNat_cons, concatNat_nil, concatFields_cons_width, concatFields_nil_width,
    toNat_append_add]
  omega

theorem concat_B (a : BitVec 1) (b : BitVec 6) (c d : BitVec 5) (e : BitVec 3) (f : BitVec 4)
    (g : BitVec 1) (h : BitVec 7) :
    concatWord [⟨1, a⟩, ⟨6, b⟩, ⟨5, c⟩, ⟨5, d⟩, ⟨3, e⟩, ⟨4, f⟩, ⟨1, g⟩, ⟨7, h⟩] =
      .ok (a ++ b ++ c ++ d ++ e ++ f ++ g ++ h : BitVec 32) := by
  refine concatWord_eq rfl ?_
  simp only [concatNat_cons, concatNat_nil, concatFields_cons_width, concatFields_nil_width,
    toNat_append_add]
  omega

theorem concat_U (a : BitVec 20) (b : BitVec 5) (c : BitVec 7) :
    concatWord [⟨20, a⟩, ⟨5, b⟩, ⟨7, c⟩] = .ok (a ++ b ++ c : BitVec 32) := by
  refine concatWord_eq rfl ?_
  simp only [concatNat_cons, concatNat_nil, concatFields_cons_width, concatFields_nil_width,
    toNat_append_add]
  omega

theorem concat_J (a : BitVec 1) (b : BitVec 10) (c : BitVec 1) (d : BitVec 8) (e : BitVec 5)
    (f : BitVec 7) :
    concatWord [⟨1, a⟩, ⟨10, b⟩, ⟨1, c⟩, ⟨8, d⟩, ⟨5, e⟩, ⟨7, f⟩] =
      .ok (a ++ b ++ c ++ d ++ e ++ f : BitVec 32) := by
  refine concatWord_eq rfl ?_
  simp only [concatNat_cons, concatNat_nil, concatFields_cons_width, concatFields_nil_width,
    toNat_append_add]
  omega

theorem concat_Sys (a : BitVec 32) : concatWord [⟨32, a⟩] = .ok a := by
  refine concatWord_eq rfl ?_
  simp only [concatNat_cons, concatNat_nil, concatFields_nil_width]
  omega

/-! ## The encoders -/

/-- Format `R` (R145). -/
theorem encodeR_eq {x : RRow} (hx : x.fits = true) {rd rs1 rs2 : Int} (hd : 0 ≤ rd ∧ rd ≤ 31)
    (h1 : 0 ≤ rs1 ∧ rs1 ≤ 31) (h2 : 0 ≤ rs2 ∧ rs2 ≤ 31) :
    encodeR x rd rs1 rs2 = .ok ⟨wordR x rd rs1 rs2, textR x.mnemonic rd rs1 rs2⟩ := by
  simp only [RRow.fits, Bool.and_eq_true] at hx
  simp only [encodeR, pack_opcode hx.1.1, pack_reg h2, pack_reg h1, pack_funct3 hx.1.2, pack_reg hd,
    pack_opcode hx.2, except_ok_bind, concat_R]
  rfl

/-- Format `I`, the word of sub-kinds `arith` and `mem` (R155, R157). -/
theorem packI_eq {x : IRow} (hx : x.fits = true) {rd rs1 imm : Int} (hd : 0 ≤ rd ∧ rd ≤ 31)
    (h1 : 0 ≤ rs1 ∧ rs1 ≤ 31) (hi : -2048 ≤ imm ∧ imm ≤ 2047) :
    packI x rd rs1 imm = .ok (wordI x rd rs1 imm) := by
  simp only [IRow.fits, Bool.and_eq_true] at hx
  simp only [packI, pack_imm12 hi, pack_reg h1, pack_funct3 hx.1, pack_reg hd, pack_opcode hx.2,
    except_ok_bind, concat_I]
  rfl

/-- Format `I`, sub-kind `arith` (R155). -/
theorem encodeArith_eq {x : IRow} (hx : x.fits = true) {rd rs1 imm : Int} (hd : 0 ≤ rd ∧ rd ≤ 31)
    (h1 : 0 ≤ rs1 ∧ rs1 ≤ 31) (hi : -2048 ≤ imm ∧ imm ≤ 2047) :
    encodeArith x rd rs1 imm = .ok ⟨wordI x rd rs1 imm, textI x.mnemonic rd rs1 imm⟩ := by
  simp only [encodeArith, packI_eq hx hd h1 hi, except_ok_bind]; rfl

/-- Format `I`, sub-kind `mem` (R157). -/
theorem encodeMem_eq {x : IRow} (hx : x.fits = true) {rd rs1 imm : Int} (hd : 0 ≤ rd ∧ rd ≤ 31)
    (h1 : 0 ≤ rs1 ∧ rs1 ≤ 31) (hi : -2048 ≤ imm ∧ imm ≤ 2047) :
    encodeMem x rd rs1 imm = .ok ⟨wordI x rd rs1 imm, textMem x.mnemonic rd rs1 imm⟩ := by
  simp only [encodeMem, packI_eq hx hd h1 hi, except_ok_bind]; rfl

/-- Format `I`, sub-kind `shift` (R156). -/
theorem encodeShift_eq {x : IRow} (hx : x.fits = true) {rd rs1 shamt : Int}
    (hd : 0 ≤ rd ∧ rd ≤ 31) (h1 : 0 ≤ rs1 ∧ rs1 ≤ 31) (hs : 0 ≤ shamt ∧ shamt ≤ 31) :
    encodeShift x rd rs1 shamt = .ok ⟨wordShift x rd rs1 shamt, textI x.mnemonic rd rs1 shamt⟩ := by
  simp only [IRow.fits, Bool.and_eq_true] at hx
  have hz : packField 0 7 .unsigned = .ok ⟨7, 0b0000000#7⟩ := rfl
  simp only [encodeShift, hz, pack_reg hs, pack_reg h1, pack_funct3 hx.1, pack_reg hd,
    pack_opcode hx.2, except_ok_bind, concat_R]
  rfl

/-- Format `S` (R170). -/
theorem encodeS_eq {x : FunctRow} (hx : x.fits = true) {rs1 rs2 imm : Int}
    (h1 : 0 ≤ rs1 ∧ rs1 ≤ 31) (h2 : 0 ≤ rs2 ∧ rs2 ≤ 31) (hi : -2048 ≤ imm ∧ imm ≤ 2047) :
    encodeS x rs1 rs2 imm = .ok ⟨wordS x rs1 rs2 imm, textS x.mnemonic rs1 rs2 imm⟩ := by
  simp only [FunctRow.fits, Bool.and_eq_true] at hx
  have e1 : extractBits ⟨12, trunc 12 imm⟩ 11 5 = .ok ((trunc 12 imm).extractLsb' 5 7).toNat :=
    extractBits_inside ⟨12, trunc 12 imm⟩ (hi := 11) (lo := 5) (by decide) (by show 11 < 12; decide)
  have e2 : extractBits ⟨12, trunc 12 imm⟩ 4 0 = .ok ((trunc 12 imm).extractLsb' 0 5).toNat :=
    extractBits_inside ⟨12, trunc 12 imm⟩ (hi := 4) (lo := 0) (by decide) (by show 4 < 12; decide)
  have p1 := packField_extract (trunc 12 imm) 5 7 (by decide)
  have p2 := packField_extract (trunc 12 imm) 0 5 (by decide)
  simp only [Nat.cast_ofNat] at p1 p2
  simp only [encodeS, pack_imm12 hi, pack_reg h2, pack_reg h1, pack_funct3 hx.1, pack_opcode hx.2,
    except_ok_bind, e1, e2, p1, p2, concat_R]
  rfl

/-- Format `B` (R175). -/
theorem encodeB_eq {x : FunctRow} (hx : x.fits = true) {rs1 rs2 imm : Int}
    (h1 : 0 ≤ rs1 ∧ rs1 ≤ 31) (h2 : 0 ≤ rs2 ∧ rs2 ≤ 31) (hi : -4096 ≤ imm ∧ imm ≤ 4094) :
    encodeB x rs1 rs2 imm = .ok ⟨wordB x rs1 rs2 imm, textB x.mnemonic rs1 rs2 imm⟩ := by
  simp only [FunctRow.fits, Bool.and_eq_true] at hx
  have e1 : extractBits ⟨13, trunc 13 imm⟩ 12 12 = .ok ((trunc 13 imm).extractLsb' 12 1).toNat :=
    extractBits_inside ⟨13, trunc 13 imm⟩ (hi := 12) (lo := 12) (by decide) (by show 12 < 13; decide)
  have e2 : extractBits ⟨13, trunc 13 imm⟩ 10 5 = .ok ((trunc 13 imm).extractLsb' 5 6).toNat :=
    extractBits_inside ⟨13, trunc 13 imm⟩ (hi := 10) (lo := 5) (by decide) (by show 10 < 13; decide)
  have e3 : extractBits ⟨13, trunc 13 imm⟩ 4 1 = .ok ((trunc 13 imm).extractLsb' 1 4).toNat :=
    extractBits_inside ⟨13, trunc 13 imm⟩ (hi := 4) (lo := 1) (by decide) (by show 4 < 13; decide)
  have e4 : extractBits ⟨13, trunc 13 imm⟩ 11 11 = .ok ((trunc 13 imm).extractLsb' 11 1).toNat :=
    extractBits_inside ⟨13, trunc 13 imm⟩ (hi := 11) (lo := 11) (by decide) (by show 11 < 13; decide)
  have p1 := packField_extract (trunc 13 imm) 12 1 (by decide)
  have p2 := packField_extract (trunc 13 imm) 5 6 (by decide)
  have p3 := packField_extract (trunc 13 imm) 1 4 (by decide)
  have p4 := packField_extract (trunc 13 imm) 11 1 (by decide)
  simp only [Nat.cast_ofNat, Nat.cast_one] at p1 p2 p3 p4
  simp only [encodeB, pack_offset13 hi, pack_reg h2, pack_reg h1, pack_funct3 hx.1,
    pack_opcode hx.2, except_ok_bind, e1, e2, e3, e4, p1, p2, p3, p4, concat_B]
  rfl

/-- Format `U` (R183). -/
theorem encodeU_eq {x : OpcodeRow} (hx : x.fits = true) {rd imm : Int} (hd : 0 ≤ rd ∧ rd ≤ 31)
    (hi : -524288 ≤ imm ∧ imm ≤ 524287) :
    encodeU x rd imm = .ok ⟨wordU x rd imm, textU x.mnemonic rd imm⟩ := by
  simp only [encodeU, pack_imm20 hi, pack_reg hd, pack_opcode hx, except_ok_bind, concat_U]
  rfl

/-- Format `J` (R187). -/
theorem encodeJ_eq {x : OpcodeRow} (hx : x.fits = true) {rd imm : Int} (hd : 0 ≤ rd ∧ rd ≤ 31)
    (hi : -1048576 ≤ imm ∧ imm ≤ 1048574) :
    encodeJ x rd imm = .ok ⟨wordJ x rd imm, textU x.mnemonic rd imm⟩ := by
  have e1 : extractBits ⟨21, trunc 21 imm⟩ 20 20 = .ok ((trunc 21 imm).extractLsb' 20 1).toNat :=
    extractBits_inside ⟨21, trunc 21 imm⟩ (hi := 20) (lo := 20) (by decide) (by show 20 < 21; decide)
  have e2 : extractBits ⟨21, trunc 21 imm⟩ 10 1 = .ok ((trunc 21 imm).extractLsb' 1 10).toNat :=
    extractBits_inside ⟨21, trunc 21 imm⟩ (hi := 10) (lo := 1) (by decide) (by show 10 < 21; decide)
  have e3 : extractBits ⟨21, trunc 21 imm⟩ 11 11 = .ok ((trunc 21 imm).extractLsb' 11 1).toNat :=
    extractBits_inside ⟨21, trunc 21 imm⟩ (hi := 11) (lo := 11) (by decide) (by show 11 < 21; decide)
  have e4 : extractBits ⟨21, trunc 21 imm⟩ 19 12 = .ok ((trunc 21 imm).extractLsb' 12 8).toNat :=
    extractBits_inside ⟨21, trunc 21 imm⟩ (hi := 19) (lo := 12) (by decide) (by show 19 < 21; decide)
  have p1 := packField_extract (trunc 21 imm) 20 1 (by decide)
  have p2 := packField_extract (trunc 21 imm) 1 10 (by decide)
  have p3 := packField_extract (trunc 21 imm) 11 1 (by decide)
  have p4 := packField_extract (trunc 21 imm) 12 8 (by decide)
  simp only [Nat.cast_ofNat, Nat.cast_one] at p1 p2 p3 p4
  simp only [encodeJ, pack_offset21 hi, pack_reg hd, pack_opcode hx, except_ok_bind, e1, e2, e3, e4,
    p1, p2, p3, p4, concat_J]
  rfl

/-- Format `SYS` (R190). -/
theorem encodeSys_eq {x : SysRow} (hx : x.fits = true) :
    encodeSys x = .ok ⟨wordSys x, x.mnemonic⟩ := by
  have hp : packField x.literal 32 .unsigned = .ok ⟨32, trunc 32 x.literal⟩ :=
    packField_fits (by decide) hx
  simp only [encodeSys, hp, except_ok_bind, concat_Sys]
  rfl

end Sys2Proof.Machine
end

