-- ==== Sys2Proof/Laws/Layouts.lean ====
section
/-! SUPPORT. The fields of the six-piece layout of formats `R`, `S` and `I` shift, of the eight-piece
layout of format `B` and of the layouts of formats `I`, `U` and `J`: each range of the concatenation is
the piece that stands there (R132), and the pieces of a split immediate join to it again (R77, R78,
R80). -/

namespace Sys2Proof.Machine

section six
variable (a : BitVec 7) (b c : BitVec 5) (d : BitVec 3) (e : BitVec 5) (f : BitVec 7)

theorem six_31_25 : (a ++ b ++ c ++ d ++ e ++ f : BitVec 32).extractLsb' 25 7 = a := by
  apply BitVec.eq_of_toNat_eq; simp only [toNat_append_add, toNat_extract]; omega
theorem six_24_20 : (a ++ b ++ c ++ d ++ e ++ f : BitVec 32).extractLsb' 20 5 = b := by
  apply BitVec.eq_of_toNat_eq; simp only [toNat_append_add, toNat_extract]; omega
theorem six_19_15 : (a ++ b ++ c ++ d ++ e ++ f : BitVec 32).extractLsb' 15 5 = c := by
  apply BitVec.eq_of_toNat_eq; simp only [toNat_append_add, toNat_extract]; omega
theorem six_14_12 : (a ++ b ++ c ++ d ++ e ++ f : BitVec 32).extractLsb' 12 3 = d := by
  apply BitVec.eq_of_toNat_eq; simp only [toNat_append_add, toNat_extract]; omega
theorem six_11_7 : (a ++ b ++ c ++ d ++ e ++ f : BitVec 32).extractLsb' 7 5 = e := by
  apply BitVec.eq_of_toNat_eq; simp only [toNat_append_add, toNat_extract]; omega
theorem six_6_0 : (a ++ b ++ c ++ d ++ e ++ f : BitVec 32).extractLsb' 0 7 = f := by
  apply BitVec.eq_of_toNat_eq; simp only [toNat_append_add, toNat_extract]; omega
end six

section five
variable (a : BitVec 12) (b : BitVec 5) (c : BitVec 3) (d : BitVec 5) (e : BitVec 7)

theorem five_31_20 : (a ++ b ++ c ++ d ++ e : BitVec 32).extractLsb' 20 12 = a := by
  apply BitVec.eq_of_toNat_eq; simp only [toNat_append_add, toNat_extract]; omega
theorem five_19_15 : (a ++ b ++ c ++ d ++ e : BitVec 32).extractLsb' 15 5 = b := by
  apply BitVec.eq_of_toNat_eq; simp only [toNat_append_add, toNat_extract]; omega
theorem five_14_12 : (a ++ b ++ c ++ d ++ e : BitVec 32).extractLsb' 12 3 = c := by
  apply BitVec.eq_of_toNat_eq; simp only [toNat_append_add, toNat_extract]; omega
theorem five_11_7 : (a ++ b ++ c ++ d ++ e : BitVec 32).extractLsb' 7 5 = d := by
  apply BitVec.eq_of_toNat_eq; simp only [toNat_append_add, toNat_extract]; omega
theorem five_6_0 : (a ++ b ++ c ++ d ++ e : BitVec 32).extractLsb' 0 7 = e := by
  apply BitVec.eq_of_toNat_eq; simp only [toNat_append_add, toNat_extract]; omega
end five

section eight
variable (a : BitVec 1) (b : BitVec 6) (c d : BitVec 5) (e : BitVec 3) (f : BitVec 4) (g : BitVec 1)
  (h : BitVec 7)

theorem eight_31 : (a ++ b ++ c ++ d ++ e ++ f ++ g ++ h : BitVec 32).extractLsb' 31 1 = a := by
  apply BitVec.eq_of_toNat_eq; simp only [toNat_append_add, toNat_extract]; omega
theorem eight_30_25 : (a ++ b ++ c ++ d ++ e ++ f ++ g ++ h : BitVec 32).extractLsb' 25 6 = b := by
  apply BitVec.eq_of_toNat_eq; simp only [toNat_append_add, toNat_extract]; omega
theorem eight_24_20 : (a ++ b ++ c ++ d ++ e ++ f ++ g ++ h : BitVec 32).extractLsb' 20 5 = c := by
  apply BitVec.eq_of_toNat_eq; simp only [toNat_append_add, toNat_extract]; omega
theorem eight_19_15 : (a ++ b ++ c ++ d ++ e ++ f ++ g ++ h : BitVec 32).extractLsb' 15 5 = d := by
  apply BitVec.eq_of_toNat_eq; simp only [toNat_append_add, toNat_extract]; omega
theorem eight_14_12 : (a ++ b ++ c ++ d ++ e ++ f ++ g ++ h : BitVec 32).extractLsb' 12 3 = e := by
  apply BitVec.eq_of_toNat_eq; simp only [toNat_append_add, toNat_extract]; omega
theorem eight_11_8 : (a ++ b ++ c ++ d ++ e ++ f ++ g ++ h : BitVec 32).extractLsb' 8 4 = f := by
  apply BitVec.eq_of_toNat_eq; simp only [toNat_append_add, toNat_extract]; omega
theorem eight_7 : (a ++ b ++ c ++ d ++ e ++ f ++ g ++ h : BitVec 32).extractLsb' 7 1 = g := by
  apply BitVec.eq_of_toNat_eq; simp only [toNat_append_add, toNat_extract]; omega
theorem eight_6_0 : (a ++ b ++ c ++ d ++ e ++ f ++ g ++ h : BitVec 32).extractLsb' 0 7 = h := by
  apply BitVec.eq_of_toNat_eq; simp only [toNat_append_add, toNat_extract]; omega
end eight

section three
variable (a : BitVec 20) (b : BitVec 5) (c : BitVec 7)

theorem three_31_12 : (a ++ b ++ c : BitVec 32).extractLsb' 12 20 = a := by
  apply BitVec.eq_of_toNat_eq; simp only [toNat_append_add, toNat_extract]; omega
theorem three_11_7 : (a ++ b ++ c : BitVec 32).extractLsb' 7 5 = b := by
  apply BitVec.eq_of_toNat_eq; simp only [toNat_append_add, toNat_extract]; omega
theorem three_6_0 : (a ++ b ++ c : BitVec 32).extractLsb' 0 7 = c := by
  apply BitVec.eq_of_toNat_eq; simp only [toNat_append_add, toNat_extract]; omega
end three

section jump
variable (a : BitVec 1) (b : BitVec 10) (c : BitVec 1) (d : BitVec 8) (e : BitVec 5) (f : BitVec 7)

theorem jump_31 : (a ++ b ++ c ++ d ++ e ++ f : BitVec 32).extractLsb' 31 1 = a := by
  apply BitVec.eq_of_toNat_eq; simp only [toNat_append_add, toNat_extract]; omega
theorem jump_30_21 : (a ++ b ++ c ++ d ++ e ++ f : BitVec 32).extractLsb' 21 10 = b := by
  apply BitVec.eq_of_toNat_eq; simp only [toNat_append_add, toNat_extract]; omega
theorem jump_20 : (a ++ b ++ c ++ d ++ e ++ f : BitVec 32).extractLsb' 20 1 = c := by
  apply BitVec.eq_of_toNat_eq; simp only [toNat_append_add, toNat_extract]; omega
theorem jump_19_12 : (a ++ b ++ c ++ d ++ e ++ f : BitVec 32).extractLsb' 12 8 = d := by
  apply BitVec.eq_of_toNat_eq; simp only [toNat_append_add, toNat_extract]; omega
theorem jump_11_7 : (a ++ b ++ c ++ d ++ e ++ f : BitVec 32).extractLsb' 7 5 = e := by
  apply BitVec.eq_of_toNat_eq; simp only [toNat_append_add, toNat_extract]; omega
theorem jump_6_0 : (a ++ b ++ c ++ d ++ e ++ f : BitVec 32).extractLsb' 0 7 = f := by
  apply BitVec.eq_of_toNat_eq; simp only [toNat_append_add, toNat_extract]; omega
end jump

/-! ## Split immediates join again -/

/-- Format `S` (R77). -/
theorem joinS (t : BitVec 12) : t.extractLsb' 5 7 ++ t.extractLsb' 0 5 = t := by
  apply BitVec.eq_of_toNat_eq
  simp only [toNat_append_add, toNat_extract, Nat.reducePow, Nat.div_one]
  omega

/-- Format `B`: the stored bits and the implicit zero (R78). -/
theorem joinB {t : BitVec 13} (h : t.toNat % 2 = 0) :
    t.extractLsb' 12 1 ++ t.extractLsb' 11 1 ++ t.extractLsb' 5 6 ++ t.extractLsb' 1 4 ++ 0#1 =
      t := by
  apply BitVec.eq_of_toNat_eq
  have ht := t.isLt
  simp only [toNat_append_add, toNat_extract, BitVec.toNat_ofNat, Nat.reducePow, Nat.zero_mod]
  omega

/-- Format `J`: the stored bits and the implicit zero (R80). -/
theorem joinJ {t : BitVec 21} (h : t.toNat % 2 = 0) :
    t.extractLsb' 20 1 ++ t.extractLsb' 12 8 ++ t.extractLsb' 11 1 ++ t.extractLsb' 1 10 ++ 0#1 =
      t := by
  apply BitVec.eq_of_toNat_eq
  have ht := t.isLt
  simp only [toNat_append_add, toNat_extract, BitVec.toNat_ofNat, Nat.reducePow, Nat.zero_mod]
  omega

end Sys2Proof.Machine
end

