-- ==== Sys2Proof/Laws/PerInstr.lean ====
section
/-! SUPPORT. The per-instruction family `Fields`: re-extracting the operands from the word of a
well-formed instruction, by the layout of its own row, gives the instruction back (R84), under every
configuration. -/

namespace Sys2Proof

open Sys2Proof.Machine

/-! ## Fields of each layout -/

/-- The five low bits of a register index. -/
theorem zext_trunc_reg {v : Int} (h : 0 ≤ v ∧ v ≤ 31) : zext (trunc 5 v) = v :=
  zext_trunc (fits_reg h)

/-- Bit 0 of the pattern of an even offset is zero (R78, R80). -/
theorem trunc_even {n : Nat} (hn : 1 ≤ n) {v : Int} (h : v % 2 = 0) : (trunc n v).toNat % 2 = 0 := by
  obtain ⟨k, rfl⟩ : ∃ k, n = k + 1 := ⟨n - 1, by omega⟩
  have hp : ((2 ^ (k + 1) : Nat) : Int) = 2 * ((2 ^ k : Nat) : Int) := by
    rw [pow_succ]; push_cast; ring
  have hnn : 0 ≤ v % ((2 ^ (k + 1) : Nat) : Int) := Int.emod_nonneg _ (by positivity)
  have h2 : v % ((2 ^ (k + 1) : Nat) : Int) % 2 = 0 := by
    rw [Int.emod_emod_of_dvd _ ⟨_, hp⟩]; exact h
  simp only [trunc, BitVec.toNat_ofInt]
  omega

theorem fieldsR_wordR (mk : Int → Int → Int → Instr) (x : RRow) {rd rs1 rs2 : Int}
    (hd : 0 ≤ rd ∧ rd ≤ 31) (h1 : 0 ≤ rs1 ∧ rs1 ≤ 31) (h2 : 0 ≤ rs2 ∧ rs2 ≤ 31) :
    fieldsR mk (wordR x rd rs1 rs2) = mk rd rs1 rs2 := by
  simp only [fieldsR, rdOf, rs1Of, rs2Of, wordR, six_11_7, six_19_15, six_24_20, zext_trunc_reg hd,
    zext_trunc_reg h1, zext_trunc_reg h2]

theorem fieldsI_wordI (mk : Int → Int → Int → Instr) (x : IRow) {rd rs1 imm : Int}
    (hd : 0 ≤ rd ∧ rd ≤ 31) (h1 : 0 ≤ rs1 ∧ rs1 ≤ 31) (hi : -2048 ≤ imm ∧ imm ≤ 2047) :
    fieldsI mk (wordI x rd rs1 imm) = mk rd rs1 imm := by
  simp only [fieldsI, rdOf, rs1Of, immIOf, wordI, five_11_7, five_19_15, five_31_20,
    zext_trunc_reg hd, zext_trunc_reg h1, sext_trunc (n := 12) (by decide) (fits_imm12 hi)]

theorem fieldsShift_wordShift (mk : Int → Int → Int → Instr) (x : IRow) {rd rs1 shamt : Int}
    (hd : 0 ≤ rd ∧ rd ≤ 31) (h1 : 0 ≤ rs1 ∧ rs1 ≤ 31) (hs : 0 ≤ shamt ∧ shamt ≤ 31) :
    fieldsShift mk (wordShift x rd rs1 shamt) = mk rd rs1 shamt := by
  simp only [fieldsShift, rdOf, rs1Of, shamtOf, wordShift, six_11_7, six_19_15, six_24_20,
    zext_trunc_reg hd, zext_trunc_reg h1, zext_trunc_reg hs]

theorem fieldsS_wordS (mk : Int → Int → Int → Instr) (x : FunctRow) {rs1 rs2 imm : Int}
    (h1 : 0 ≤ rs1 ∧ rs1 ≤ 31) (h2 : 0 ≤ rs2 ∧ rs2 ≤ 31) (hi : -2048 ≤ imm ∧ imm ≤ 2047) :
    fieldsS mk (wordS x rs1 rs2 imm) = mk rs1 rs2 imm := by
  simp only [fieldsS, rs1Of, rs2Of, immSOf, wordS, six_31_25, six_11_7, six_19_15, six_24_20, joinS,
    zext_trunc_reg h1, zext_trunc_reg h2, sext_trunc (n := 12) (by decide) (fits_imm12 hi)]

theorem fieldsB_wordB (mk : Int → Int → Int → Instr) (x : FunctRow) {rs1 rs2 imm : Int}
    (h1 : 0 ≤ rs1 ∧ rs1 ≤ 31) (h2 : 0 ≤ rs2 ∧ rs2 ≤ 31)
    (hi : -4096 ≤ imm ∧ imm ≤ 4094 ∧ imm % 2 = 0) :
    fieldsB mk (wordB x rs1 rs2 imm) = mk rs1 rs2 imm := by
  simp only [fieldsB, rs1Of, rs2Of, immBOf, wordB, eight_31, eight_30_25, eight_24_20, eight_19_15,
    eight_11_8, eight_7, joinB (trunc_even (n := 13) (by decide) hi.2.2), zext_trunc_reg h1,
    zext_trunc_reg h2, sext_trunc (n := 13) (by decide) (fits_offset13 ⟨hi.1, hi.2.1⟩)]

theorem fieldsU_wordU (mk : Int → Int → Instr) (x : OpcodeRow) {rd imm : Int}
    (hd : 0 ≤ rd ∧ rd ≤ 31) (hi : -524288 ≤ imm ∧ imm ≤ 524287) :
    fieldsU mk (wordU x rd imm) = mk rd imm := by
  simp only [fieldsU, rdOf, immUOf, wordU, three_31_12, three_11_7, zext_trunc_reg hd,
    sext_trunc (n := 20) (by decide) (fits_imm20 hi)]

theorem fieldsJ_wordJ (mk : Int → Int → Instr) (x : OpcodeRow) {rd imm : Int}
    (hd : 0 ≤ rd ∧ rd ≤ 31) (hi : -1048576 ≤ imm ∧ imm ≤ 1048574 ∧ imm % 2 = 0) :
    fieldsJ mk (wordJ x rd imm) = mk rd imm := by
  simp only [fieldsJ, rdOf, immJOf, wordJ, jump_31, jump_30_21, jump_20, jump_19_12, jump_11_7,
    joinJ (trunc_even (n := 21) (by decide) hi.2.2), zext_trunc_reg hd,
    sext_trunc (n := 21) (by decide) (fits_offset21 ⟨hi.1, hi.2.1⟩)]

end Sys2Proof

namespace Sys2Proof.Laws.Fields

/-- Re-extracting the operands from the word of a well-formed instruction gives it back (R84). -/
def Statement (i : Instr) : Prop :=
  i.wf = true → ∀ c : Config, decodeFields i (encodeWith c i) = i

theorem add (rd rs1 rs2 : Int) : Statement (.add rd rs1 rs2) := by
  intro h c
  simp only [Instr.wf, Instr.operands, List.all_cons, List.all_nil, Bool.and_true,
    Bool.and_eq_true, UsedOperand.reg, decide_eq_true_eq] at h
  exact fieldsR_wordR _ _ h.1 h.2.1 h.2.2

theorem sub (rd rs1 rs2 : Int) : Statement (.sub rd rs1 rs2) := by
  intro h c
  simp only [Instr.wf, Instr.operands, List.all_cons, List.all_nil, Bool.and_true,
    Bool.and_eq_true, UsedOperand.reg, decide_eq_true_eq] at h
  exact fieldsR_wordR _ _ h.1 h.2.1 h.2.2

theorem and (rd rs1 rs2 : Int) : Statement (.and rd rs1 rs2) := by
  intro h c
  simp only [Instr.wf, Instr.operands, List.all_cons, List.all_nil, Bool.and_true,
    Bool.and_eq_true, UsedOperand.reg, decide_eq_true_eq] at h
  exact fieldsR_wordR _ _ h.1 h.2.1 h.2.2

theorem or (rd rs1 rs2 : Int) : Statement (.or rd rs1 rs2) := by
  intro h c
  simp only [Instr.wf, Instr.operands, List.all_cons, List.all_nil, Bool.and_true,
    Bool.and_eq_true, UsedOperand.reg, decide_eq_true_eq] at h
  exact fieldsR_wordR _ _ h.1 h.2.1 h.2.2

theorem xor (rd rs1 rs2 : Int) : Statement (.xor rd rs1 rs2) := by
  intro h c
  simp only [Instr.wf, Instr.operands, List.all_cons, List.all_nil, Bool.and_true,
    Bool.and_eq_true, UsedOperand.reg, decide_eq_true_eq] at h
  exact fieldsR_wordR _ _ h.1 h.2.1 h.2.2

theorem sll (rd rs1 rs2 : Int) : Statement (.sll rd rs1 rs2) := by
  intro h c
  simp only [Instr.wf, Instr.operands, List.all_cons, List.all_nil, Bool.and_true,
    Bool.and_eq_true, UsedOperand.reg, decide_eq_true_eq] at h
  exact fieldsR_wordR _ _ h.1 h.2.1 h.2.2

theorem srl (rd rs1 rs2 : Int) : Statement (.srl rd rs1 rs2) := by
  intro h c
  simp only [Instr.wf, Instr.operands, List.all_cons, List.all_nil, Bool.and_true,
    Bool.and_eq_true, UsedOperand.reg, decide_eq_true_eq] at h
  exact fieldsR_wordR _ _ h.1 h.2.1 h.2.2

theorem sra (rd rs1 rs2 : Int) : Statement (.sra rd rs1 rs2) := by
  intro h c
  simp only [Instr.wf, Instr.operands, List.all_cons, List.all_nil, Bool.and_true,
    Bool.and_eq_true, UsedOperand.reg, decide_eq_true_eq] at h
  exact fieldsR_wordR _ _ h.1 h.2.1 h.2.2

theorem addi (rd rs1 imm : Int) : Statement (.addi rd rs1 imm) := by
  intro h c
  simp only [Instr.wf, Instr.operands, List.all_cons, List.all_nil, Bool.and_true,
    Bool.and_eq_true, UsedOperand.reg, UsedOperand.imm12, decide_eq_true_eq] at h
  exact fieldsI_wordI _ _ h.1 h.2.1 h.2.2

theorem andi (rd rs1 imm : Int) : Statement (.andi rd rs1 imm) := by
  intro h c
  simp only [Instr.wf, Instr.operands, List.all_cons, List.all_nil, Bool.and_true,
    Bool.and_eq_true, UsedOperand.reg, UsedOperand.imm12, decide_eq_true_eq] at h
  exact fieldsI_wordI _ _ h.1 h.2.1 h.2.2

theorem ori (rd rs1 imm : Int) : Statement (.ori rd rs1 imm) := by
  intro h c
  simp only [Instr.wf, Instr.operands, List.all_cons, List.all_nil, Bool.and_true,
    Bool.and_eq_true, UsedOperand.reg, UsedOperand.imm12, decide_eq_true_eq] at h
  exact fieldsI_wordI _ _ h.1 h.2.1 h.2.2

theorem xori (rd rs1 imm : Int) : Statement (.xori rd rs1 imm) := by
  intro h c
  simp only [Instr.wf, Instr.operands, List.all_cons, List.all_nil, Bool.and_true,
    Bool.and_eq_true, UsedOperand.reg, UsedOperand.imm12, decide_eq_true_eq] at h
  exact fieldsI_wordI _ _ h.1 h.2.1 h.2.2

theorem slli (rd rs1 shamt : Int) : Statement (.slli rd rs1 shamt) := by
  intro h c
  simp only [Instr.wf, Instr.operands, List.all_cons, List.all_nil, Bool.and_true,
    Bool.and_eq_true, UsedOperand.reg, UsedOperand.shamt, decide_eq_true_eq] at h
  exact fieldsShift_wordShift _ _ h.1 h.2.1 h.2.2

theorem srli (rd rs1 shamt : Int) : Statement (.srli rd rs1 shamt) := by
  intro h c
  simp only [Instr.wf, Instr.operands, List.all_cons, List.all_nil, Bool.and_true,
    Bool.and_eq_true, UsedOperand.reg, UsedOperand.shamt, decide_eq_true_eq] at h
  exact fieldsShift_wordShift _ _ h.1 h.2.1 h.2.2

theorem jalr (rd rs1 imm : Int) : Statement (.jalr rd rs1 imm) := by
  intro h c
  simp only [Instr.wf, Instr.operands, List.all_cons, List.all_nil, Bool.and_true,
    Bool.and_eq_true, UsedOperand.reg, UsedOperand.imm12, decide_eq_true_eq] at h
  exact fieldsI_wordI _ _ h.1 h.2.1 h.2.2

theorem lb (rd rs1 imm : Int) : Statement (.lb rd rs1 imm) := by
  intro h c
  simp only [Instr.wf, Instr.operands, List.all_cons, List.all_nil, Bool.and_true,
    Bool.and_eq_true, UsedOperand.reg, UsedOperand.imm12, decide_eq_true_eq] at h
  exact fieldsI_wordI _ _ h.1 h.2.1 h.2.2

theorem lh (rd rs1 imm : Int) : Statement (.lh rd rs1 imm) := by
  intro h c
  simp only [Instr.wf, Instr.operands, List.all_cons, List.all_nil, Bool.and_true,
    Bool.and_eq_true, UsedOperand.reg, UsedOperand.imm12, decide_eq_true_eq] at h
  exact fieldsI_wordI _ _ h.1 h.2.1 h.2.2

theorem lw (rd rs1 imm : Int) : Statement (.lw rd rs1 imm) := by
  intro h c
  simp only [Instr.wf, Instr.operands, List.all_cons, List.all_nil, Bool.and_true,
    Bool.and_eq_true, UsedOperand.reg, UsedOperand.imm12, decide_eq_true_eq] at h
  exact fieldsI_wordI _ _ h.1 h.2.1 h.2.2

theorem lbu (rd rs1 imm : Int) : Statement (.lbu rd rs1 imm) := by
  intro h c
  simp only [Instr.wf, Instr.operands, List.all_cons, List.all_nil, Bool.and_true,
    Bool.and_eq_true, UsedOperand.reg, UsedOperand.imm12, decide_eq_true_eq] at h
  exact fieldsI_wordI _ _ h.1 h.2.1 h.2.2

theorem lhu (rd rs1 imm : Int) : Statement (.lhu rd rs1 imm) := by
  intro h c
  simp only [Instr.wf, Instr.operands, List.all_cons, List.all_nil, Bool.and_true,
    Bool.and_eq_true, UsedOperand.reg, UsedOperand.imm12, decide_eq_true_eq] at h
  exact fieldsI_wordI _ _ h.1 h.2.1 h.2.2

theorem sb (rs1 rs2 imm : Int) : Statement (.sb rs1 rs2 imm) := by
  intro h c
  simp only [Instr.wf, Instr.operands, List.all_cons, List.all_nil, Bool.and_true,
    Bool.and_eq_true, UsedOperand.reg, UsedOperand.imm12, decide_eq_true_eq] at h
  exact fieldsS_wordS _ _ h.1 h.2.1 h.2.2

theorem sh (rs1 rs2 imm : Int) : Statement (.sh rs1 rs2 imm) := by
  intro h c
  simp only [Instr.wf, Instr.operands, List.all_cons, List.all_nil, Bool.and_true,
    Bool.and_eq_true, UsedOperand.reg, UsedOperand.imm12, decide_eq_true_eq] at h
  exact fieldsS_wordS _ _ h.1 h.2.1 h.2.2

theorem sw (rs1 rs2 imm : Int) : Statement (.sw rs1 rs2 imm) := by
  intro h c
  simp only [Instr.wf, Instr.operands, List.all_cons, List.all_nil, Bool.and_true,
    Bool.and_eq_true, UsedOperand.reg, UsedOperand.imm12, decide_eq_true_eq] at h
  exact fieldsS_wordS _ _ h.1 h.2.1 h.2.2

theorem beq (rs1 rs2 imm : Int) : Statement (.beq rs1 rs2 imm) := by
  intro h c
  simp only [Instr.wf, Instr.operands, List.all_cons, List.all_nil, Bool.and_true,
    Bool.and_eq_true, UsedOperand.reg, UsedOperand.offset13, decide_eq_true_eq] at h
  exact fieldsB_wordB _ _ h.1 h.2.1 h.2.2

theorem bne (rs1 rs2 imm : Int) : Statement (.bne rs1 rs2 imm) := by
  intro h c
  simp only [Instr.wf, Instr.operands, List.all_cons, List.all_nil, Bool.and_true,
    Bool.and_eq_true, UsedOperand.reg, UsedOperand.offset13, decide_eq_true_eq] at h
  exact fieldsB_wordB _ _ h.1 h.2.1 h.2.2

theorem blt (rs1 rs2 imm : Int) : Statement (.blt rs1 rs2 imm) := by
  intro h c
  simp only [Instr.wf, Instr.operands, List.all_cons, List.all_nil, Bool.and_true,
    Bool.and_eq_true, UsedOperand.reg, UsedOperand.offset13, decide_eq_true_eq] at h
  exact fieldsB_wordB _ _ h.1 h.2.1 h.2.2

theorem bge (rs1 rs2 imm : Int) : Statement (.bge rs1 rs2 imm) := by
  intro h c
  simp only [Instr.wf, Instr.operands, List.all_cons, List.all_nil, Bool.and_true,
    Bool.and_eq_true, UsedOperand.reg, UsedOperand.offset13, decide_eq_true_eq] at h
  exact fieldsB_wordB _ _ h.1 h.2.1 h.2.2

theorem bltu (rs1 rs2 imm : Int) : Statement (.bltu rs1 rs2 imm) := by
  intro h c
  simp only [Instr.wf, Instr.operands, List.all_cons, List.all_nil, Bool.and_true,
    Bool.and_eq_true, UsedOperand.reg, UsedOperand.offset13, decide_eq_true_eq] at h
  exact fieldsB_wordB _ _ h.1 h.2.1 h.2.2

theorem bgeu (rs1 rs2 imm : Int) : Statement (.bgeu rs1 rs2 imm) := by
  intro h c
  simp only [Instr.wf, Instr.operands, List.all_cons, List.all_nil, Bool.and_true,
    Bool.and_eq_true, UsedOperand.reg, UsedOperand.offset13, decide_eq_true_eq] at h
  exact fieldsB_wordB _ _ h.1 h.2.1 h.2.2

theorem lui (rd imm : Int) : Statement (.lui rd imm) := by
  intro h c
  simp only [Instr.wf, Instr.operands, List.all_cons, List.all_nil, Bool.and_true,
    Bool.and_eq_true, UsedOperand.reg, UsedOperand.imm20, decide_eq_true_eq] at h
  exact fieldsU_wordU _ _ h.1 h.2

theorem auipc (rd imm : Int) : Statement (.auipc rd imm) := by
  intro h c
  simp only [Instr.wf, Instr.operands, List.all_cons, List.all_nil, Bool.and_true,
    Bool.and_eq_true, UsedOperand.reg, UsedOperand.imm20, decide_eq_true_eq] at h
  exact fieldsU_wordU _ _ h.1 h.2

theorem jal (rd imm : Int) : Statement (.jal rd imm) := by
  intro h c
  simp only [Instr.wf, Instr.operands, List.all_cons, List.all_nil, Bool.and_true,
    Bool.and_eq_true, UsedOperand.reg, UsedOperand.offset21, decide_eq_true_eq] at h
  exact fieldsJ_wordJ _ _ h.1 h.2

theorem ecall : Statement .ecall := fun _ _ => rfl

theorem ebreak : Statement .ebreak := fun _ _ => rfl

theorem fence : Statement .fence := fun _ _ => rfl

theorem fenceTso : Statement .fenceTso := fun _ _ => rfl

theorem pause : Statement .pause := fun _ _ => rfl

end Sys2Proof.Laws.Fields
end

