-- ==== Sys2Proof/Laws/Decode.lean ====
section
/-! SUPPORT. Match and mask on the words of each layout (R90): the row of an instruction selects the
instruction's own word, and disjoint patterns never select one word. -/

namespace Sys2Proof

open Sys2Proof.Machine

/-- Two disjoint patterns do not select the same word (R38). -/
theorem not_both_select {p q : RowPattern} (h : p.disjoint q = true) (w : Word)
    (hp : p.selects w = true) : q.selects w = false := by
  simp only [RowPattern.selects, beq_iff_eq] at hp
  by_contra hq
  simp only [RowPattern.selects, Bool.not_eq_false, beq_iff_eq] at hq
  simp only [RowPattern.disjoint, bne_iff_ne, ne_eq] at h
  apply h
  apply BitVec.eq_of_getLsbD_eq
  intro k hk
  simp only [← hp, ← hq, BitVec.getLsbD_and, BitVec.getLsbD_xor]
  cases w.getLsbD k <;> cases p.mask.getLsbD k <;> cases q.mask.getLsbD k <;> simp

/-! ## A masked word, layout by layout -/

theorem and_ones7 (x : BitVec 7) : x &&& 0x7F#7 = x := by revert x; decide
theorem and_ones3 (x : BitVec 3) : x &&& 7#3 = x := by revert x; decide

/-- The mask of format `R` and of the shift rows on the six-piece layout. -/
theorem mask_six (a : BitVec 7) (b c : BitVec 5) (d : BitVec 3) (e : BitVec 5) (f : BitVec 7) :
    (a ++ b ++ c ++ d ++ e ++ f : BitVec 32) &&& 0xFE00707F#32 = a ++ 0#10 ++ d ++ 0#5 ++ f := by
  have hm : (0xFE00707F#32 : BitVec 32) = 0x7F#7 ++ 0#5 ++ 0#5 ++ 7#3 ++ 0#5 ++ 0x7F#7 := by decide
  have hz : (a ++ 0#10 ++ d ++ 0#5 ++ f : BitVec 32) = a ++ 0#5 ++ 0#5 ++ d ++ 0#5 ++ f := by
    apply BitVec.eq_of_toNat_eq; simp only [toNat_append_add, BitVec.toNat_ofNat]; omega
  have key : (a ++ b ++ c ++ d ++ e ++ f) &&&
      (0x7F#7 ++ 0#5 ++ 0#5 ++ 7#3 ++ 0#5 ++ 0x7F#7) = a ++ 0#5 ++ 0#5 ++ d ++ 0#5 ++ f := by
    simp only [BitVec.and_append, and_ones7, and_ones3, BitVec.and_zero]
  rw [hm, hz]
  exact key

/-- The mask of the other format `I` rows and of format `S` on the six-piece layout. -/
theorem mask_six_funct3 (a : BitVec 7) (b c : BitVec 5) (d : BitVec 3) (e : BitVec 5)
    (f : BitVec 7) :
    (a ++ b ++ c ++ d ++ e ++ f : BitVec 32) &&& 0x0000707F#32 = 0#17 ++ d ++ 0#5 ++ f := by
  have hm : (0x0000707F#32 : BitVec 32) = 0#7 ++ 0#5 ++ 0#5 ++ 7#3 ++ 0#5 ++ 0x7F#7 := by decide
  have hz : (0#17 ++ d ++ 0#5 ++ f : BitVec 32) = 0#7 ++ 0#5 ++ 0#5 ++ d ++ 0#5 ++ f := by
    apply BitVec.eq_of_toNat_eq; simp only [toNat_append_add, BitVec.toNat_ofNat]; omega
  have key : (a ++ b ++ c ++ d ++ e ++ f) &&&
      (0#7 ++ 0#5 ++ 0#5 ++ 7#3 ++ 0#5 ++ 0x7F#7) = 0#7 ++ 0#5 ++ 0#5 ++ d ++ 0#5 ++ f := by
    simp only [BitVec.and_append, and_ones7, and_ones3, BitVec.and_zero]
  rw [hm, hz]
  exact key

/-- The mask of the `arith` and `mem` rows on the five-piece layout. -/
theorem mask_five (a : BitVec 12) (b : BitVec 5) (c : BitVec 3) (d : BitVec 5) (e : BitVec 7) :
    (a ++ b ++ c ++ d ++ e : BitVec 32) &&& 0x0000707F#32 = 0#17 ++ c ++ 0#5 ++ e := by
  have hm : (0x0000707F#32 : BitVec 32) = 0#12 ++ 0#5 ++ 7#3 ++ 0#5 ++ 0x7F#7 := by decide
  have hz : (0#17 ++ c ++ 0#5 ++ e : BitVec 32) = 0#12 ++ 0#5 ++ c ++ 0#5 ++ e := by
    apply BitVec.eq_of_toNat_eq; simp only [toNat_append_add, BitVec.toNat_ofNat]; omega
  have key : (a ++ b ++ c ++ d ++ e) &&&
      (0#12 ++ 0#5 ++ 7#3 ++ 0#5 ++ 0x7F#7) = 0#12 ++ 0#5 ++ c ++ 0#5 ++ e := by
    simp only [BitVec.and_append, and_ones7, and_ones3, BitVec.and_zero]
  rw [hm, hz]
  exact key

/-- The mask of format `B` on the eight-piece layout. -/
theorem mask_eight (a : BitVec 1) (b : BitVec 6) (c d : BitVec 5) (e : BitVec 3) (f : BitVec 4)
    (g : BitVec 1) (h : BitVec 7) :
    (a ++ b ++ c ++ d ++ e ++ f ++ g ++ h : BitVec 32) &&& 0x0000707F#32 =
      0#17 ++ e ++ 0#5 ++ h := by
  have hm : (0x0000707F#32 : BitVec 32) =
      0#1 ++ 0#6 ++ 0#5 ++ 0#5 ++ 7#3 ++ 0#4 ++ 0#1 ++ 0x7F#7 := by decide
  have hz : (0#17 ++ e ++ 0#5 ++ h : BitVec 32) =
      0#1 ++ 0#6 ++ 0#5 ++ 0#5 ++ e ++ 0#4 ++ 0#1 ++ h := by
    apply BitVec.eq_of_toNat_eq; simp only [toNat_append_add, BitVec.toNat_ofNat]; omega
  have key : (a ++ b ++ c ++ d ++ e ++ f ++ g ++ h) &&&
      (0#1 ++ 0#6 ++ 0#5 ++ 0#5 ++ 7#3 ++ 0#4 ++ 0#1 ++ 0x7F#7) = 0#1 ++ 0#6 ++ 0#5 ++ 0#5 ++ e ++ 0#4 ++ 0#1 ++ h := by
    simp only [BitVec.and_append, and_ones7, and_ones3, BitVec.and_zero]
  rw [hm, hz]
  exact key

/-- The mask of format `U` on the three-piece layout. -/
theorem mask_three (a : BitVec 20) (b : BitVec 5) (c : BitVec 7) :
    (a ++ b ++ c : BitVec 32) &&& 0x0000007F#32 = 0#25 ++ c := by
  have hm : (0x0000007F#32 : BitVec 32) = 0#20 ++ 0#5 ++ 0x7F#7 := by decide
  have hz : (0#25 ++ c : BitVec 32) = 0#20 ++ 0#5 ++ c := by
    apply BitVec.eq_of_toNat_eq; simp only [toNat_append_add, BitVec.toNat_ofNat]; omega
  have key : (a ++ b ++ c) &&&
      (0#20 ++ 0#5 ++ 0x7F#7) = 0#20 ++ 0#5 ++ c := by
    simp only [BitVec.and_append, and_ones7, BitVec.and_zero]
  rw [hm, hz]
  exact key

/-- The mask of format `J` on its layout. -/
theorem mask_jump (a : BitVec 1) (b : BitVec 10) (c : BitVec 1) (d : BitVec 8) (e : BitVec 5)
    (f : BitVec 7) :
    (a ++ b ++ c ++ d ++ e ++ f : BitVec 32) &&& 0x0000007F#32 = 0#25 ++ f := by
  have hm : (0x0000007F#32 : BitVec 32) = 0#1 ++ 0#10 ++ 0#1 ++ 0#8 ++ 0#5 ++ 0x7F#7 := by decide
  have hz : (0#25 ++ f : BitVec 32) = 0#1 ++ 0#10 ++ 0#1 ++ 0#8 ++ 0#5 ++ f := by
    apply BitVec.eq_of_toNat_eq; simp only [toNat_append_add, BitVec.toNat_ofNat]; omega
  have key : (a ++ b ++ c ++ d ++ e ++ f) &&&
      (0#1 ++ 0#10 ++ 0#1 ++ 0#8 ++ 0#5 ++ 0x7F#7) = 0#1 ++ 0#10 ++ 0#1 ++ 0#8 ++ 0#5 ++ f := by
    simp only [BitVec.and_append, and_ones7, BitVec.and_zero]
  rw [hm, hz]
  exact key

/-! ## The row of an instruction selects its word -/

theorem RRow.selects_wordR {x : RRow} {p : RowPattern} (h : x.pattern = some p) (rd rs1 rs2 : Int) :
    p.selects (wordR x rd rs1 rs2) = true := by
  unfold RRow.pattern at h
  split at h
  · cases h
    simp only [RowPattern.selects, wordR, mask_six, beq_self_eq_true]
  · cases h

theorem IRow.selects_wordI {x : IRow} {p : RowPattern} (h : x.pattern = some p)
    (hk : x.subKind ≠ .shift) (rd rs1 imm : Int) : p.selects (wordI x rd rs1 imm) = true := by
  unfold IRow.pattern at h
  split at h
  · cases hs : x.subKind with
    | shift => exact absurd hs hk
    | arith =>
      rw [hs] at h; cases h
      simp only [RowPattern.selects, wordI, mask_five, beq_self_eq_true]
    | mem =>
      rw [hs] at h; cases h
      simp only [RowPattern.selects, wordI, mask_five, beq_self_eq_true]
  · cases h

theorem IRow.selects_wordShift {x : IRow} {p : RowPattern} (h : x.pattern = some p)
    (rd rs1 shamt : Int) : p.selects (wordShift x rd rs1 shamt) = true := by
  have hz : (0#17 ++ trunc 3 x.funct3 ++ 0#5 ++ trunc 7 x.opcode : BitVec 32) =
      0#7 ++ 0#10 ++ trunc 3 x.funct3 ++ 0#5 ++ trunc 7 x.opcode := by
    apply BitVec.eq_of_toNat_eq; simp only [toNat_append_add, BitVec.toNat_ofNat]; omega
  unfold IRow.pattern at h
  split at h
  · cases hs : x.subKind with
    | shift =>
      rw [hs] at h; cases h
      simp only [RowPattern.selects, wordShift, mask_six, hz, beq_self_eq_true]
    | arith =>
      rw [hs] at h; cases h
      simp only [RowPattern.selects, wordShift, mask_six_funct3, beq_self_eq_true]
    | mem =>
      rw [hs] at h; cases h
      simp only [RowPattern.selects, wordShift, mask_six_funct3, beq_self_eq_true]
  · cases h

theorem FunctRow.selects_wordS {x : FunctRow} {p : RowPattern} (h : x.pattern = some p)
    (rs1 rs2 imm : Int) : p.selects (wordS x rs1 rs2 imm) = true := by
  unfold FunctRow.pattern at h
  split at h
  · cases h
    simp only [RowPattern.selects, wordS, mask_six_funct3, beq_self_eq_true]
  · cases h

theorem FunctRow.selects_wordB {x : FunctRow} {p : RowPattern} (h : x.pattern = some p)
    (rs1 rs2 imm : Int) : p.selects (wordB x rs1 rs2 imm) = true := by
  unfold FunctRow.pattern at h
  split at h
  · cases h
    simp only [RowPattern.selects, wordB, mask_eight, beq_self_eq_true]
  · cases h

theorem OpcodeRow.selects_wordU {x : OpcodeRow} {p : RowPattern} (h : x.pattern = some p)
    (rd imm : Int) : p.selects (wordU x rd imm) = true := by
  unfold OpcodeRow.pattern at h
  split at h
  · cases h
    simp only [RowPattern.selects, wordU, mask_three, beq_self_eq_true]
  · cases h

theorem OpcodeRow.selects_wordJ {x : OpcodeRow} {p : RowPattern} (h : x.pattern = some p)
    (rd imm : Int) : p.selects (wordJ x rd imm) = true := by
  unfold OpcodeRow.pattern at h
  split at h
  · cases h
    simp only [RowPattern.selects, wordJ, mask_jump, beq_self_eq_true]
  · cases h

theorem SysRow.selects_wordSys {x : SysRow} {p : RowPattern} (h : x.pattern = some p) :
    p.selects (wordSys x) = true := by
  have hm : ∀ v : BitVec 32, v &&& 0xFFFFFFFF#32 = v := fun v => BitVec.and_allOnes
  unfold SysRow.pattern at h
  split at h
  · cases h
    simp only [RowPattern.selects, wordSys, hm, beq_self_eq_true]
  · cases h

/-- The sub-kinds of a structured catalog, row by row. -/
theorem subKinds {c : Catalog} (h : c.subKindsOk = true) :
    (c.i[0].subKind ≠ .shift ∧ c.i[1].subKind ≠ .shift ∧ c.i[2].subKind ≠ .shift ∧
      c.i[3].subKind ≠ .shift) ∧
    (c.i[6].subKind ≠ .shift ∧ c.i[7].subKind ≠ .shift ∧ c.i[8].subKind ≠ .shift ∧
      c.i[9].subKind ≠ .shift ∧ c.i[10].subKind ≠ .shift ∧ c.i[11].subKind ≠ .shift) := by
  have hl : ∀ k (hk : k < 12), (c.i.toList.map (·.subKind))[k]? = some c.i[k].subKind := by
    intro k hk; simp [hk]
  simp only [Catalog.subKindsOk, beq_iff_eq] at h
  rw [h] at hl
  have g : ∀ k (hk : k < 12), c.i[k].subKind =
      ([.arith, .arith, .arith, .arith, .shift, .shift, .mem, .mem, .mem, .mem, .mem, .mem] :
        List SubKind)[k]'(by simpa using hk) := by
    intro k hk
    have := hl k hk
    rw [List.getElem?_eq_getElem (by simpa using hk)] at this
    exact (Option.some.inj this).symm
  refine ⟨⟨?_, ?_, ?_, ?_⟩, ?_, ?_, ?_, ?_, ?_, ?_⟩ <;> rw [g _ (by decide)] <;> decide

/-- The row of an instruction selects the instruction's word (R91). -/
theorem selectedBy_own {c : Config} (hc : c.catalog.subKindsOk = true) {i : Instr}
    (hfit : i.rowFits c = true) : i.selectedBy c (encodeWith c i) = true := by
  obtain ⟨p, hp⟩ := Option.isSome_iff_exists.mp hfit
  obtain ⟨⟨k0, k1, k2, k3⟩, k6, k7, k8, k9, k10, k11⟩ := subKinds hc
  rw [Instr.selectedBy, hp]
  cases i
  case add | sub | and | or | xor | sll | srl | sra => exact RRow.selects_wordR hp _ _ _
  case addi | andi | ori | xori | jalr | lb | lh | lw | lbu | lhu =>
    exact IRow.selects_wordI hp (by assumption) _ _ _
  case slli | srli => exact IRow.selects_wordShift hp _ _ _
  case sb | sh | sw => exact FunctRow.selects_wordS hp _ _ _
  case beq | bne | blt | bge | bltu | bgeu => exact FunctRow.selects_wordB hp _ _ _
  case lui | auipc => exact OpcodeRow.selects_wordU hp _ _
  case jal => exact OpcodeRow.selects_wordJ hp _ _
  case ecall | ebreak | fence | fenceTso | pause => exact SysRow.selects_wordSys hp

end Sys2Proof
end

