-- ==== Sys2Proof/Laws/State.lean ====
section
/-! SUPPORT. One lemma per field per named update of `State`, so that no proof unfolds a record update. -/

namespace Sys2Proof.Machine

/-! ## respond -/

section
variable (r : Response) (s : State)

@[simp] theorem respond_cfg : (respond r s).cfg = s.cfg := rfl
@[simp] theorem respond_inputs : (respond r s).inputs = s.inputs := rfl
@[simp] theorem respond_draws : (respond r s).draws = s.draws := rfl
@[simp] theorem respond_sinkOk : (respond r s).sinkOk = s.sinkOk := rfl
@[simp] theorem respond_faultCause : (respond r s).faultCause = s.faultCause := rfl
@[simp] theorem respond_imgPtr : (respond r s).imgPtr = s.imgPtr := rfl
@[simp] theorem respond_image : (respond r s).image = s.image := rfl
@[simp] theorem respond_response : (respond r s).response = some r := rfl

end

/-! ## takeFault -/

section
variable (info : FaultInfo) (s : State)

@[simp] theorem takeFault_cfg : (takeFault info s).cfg = s.cfg := rfl
@[simp] theorem takeFault_inputs : (takeFault info s).inputs = s.inputs := rfl
@[simp] theorem takeFault_draws : (takeFault info s).draws = s.draws := rfl
@[simp] theorem takeFault_sinkOk : (takeFault info s).sinkOk = s.sinkOk := rfl
@[simp] theorem takeFault_faultCause : (takeFault info s).faultCause = info.cause := rfl
@[simp] theorem takeFault_imgPtr : (takeFault info s).imgPtr = s.imgPtr := rfl
@[simp] theorem takeFault_image : (takeFault info s).image = s.image := rfl
@[simp] theorem takeFault_response : (takeFault info s).response = some (.fault info.cause info) := rfl

end

/-! ## respondHalted -/

section
variable (s : State)

@[simp] theorem respondHalted_cfg : (respondHalted s).cfg = s.cfg := rfl
@[simp] theorem respondHalted_inputs : (respondHalted s).inputs = s.inputs := rfl
@[simp] theorem respondHalted_draws : (respondHalted s).draws = s.draws := rfl
@[simp] theorem respondHalted_sinkOk : (respondHalted s).sinkOk = s.sinkOk := rfl
@[simp] theorem respondHalted_faultCause : (respondHalted s).faultCause = s.faultCause := rfl
@[simp] theorem respondHalted_imgPtr : (respondHalted s).imgPtr = s.imgPtr := rfl
@[simp] theorem respondHalted_image : (respondHalted s).image = s.image := rfl
@[simp] theorem respondHalted_response :
    (respondHalted s).response = some (.halted s.faultCause) := rfl

end

/-! ## accept -/

section
variable (s : State) (draws : List Int)

@[simp] theorem accept_cfg : (s.accept draws).cfg = s.cfg := rfl
@[simp] theorem accept_inputs : (s.accept draws).inputs = s.inputs.tail := rfl
@[simp] theorem accept_draws : (s.accept draws).draws = draws := rfl
@[simp] theorem accept_sinkOk : (s.accept draws).sinkOk = s.sinkOk := rfl
@[simp] theorem accept_faultCause : (s.accept draws).faultCause = s.faultCause := rfl
@[simp] theorem accept_imgPtr : (s.accept draws).imgPtr = s.imgPtr := rfl
@[simp] theorem accept_image : (s.accept draws).image = s.image := rfl
@[simp] theorem accept_response : (s.accept draws).response = none := rfl
@[simp] theorem accept_halted : (s.accept draws).halted = s.halted := rfl
@[simp] theorem accept_hasRoom : (s.accept draws).hasRoom = s.hasRoom := rfl

end

/-! ## applyReset -/

section
variable (s : State)

@[simp] theorem applyReset_cfg : (applyReset s).cfg = s.cfg := rfl
@[simp] theorem applyReset_inputs : (applyReset s).inputs = s.inputs := rfl
@[simp] theorem applyReset_draws : (applyReset s).draws = s.draws := rfl
@[simp] theorem applyReset_sinkOk : (applyReset s).sinkOk = s.sinkOk := rfl
@[simp] theorem applyReset_faultCause : (applyReset s).faultCause = .none := rfl
@[simp] theorem applyReset_imgPtr : (applyReset s).imgPtr = s.cfg.imageBase := rfl
@[simp] theorem applyReset_image : (applyReset s).image = [] := rfl
@[simp] theorem applyReset_response : (applyReset s).response = none := rfl

end

/-! ## resetWith -/

section
variable (c : Config) (inputs : List Input) (draws : List Int) (sinkOk : List Bool)

@[simp] theorem resetWith_cfg : (State.resetWith c inputs draws sinkOk).cfg = c := rfl
@[simp] theorem resetWith_inputs : (State.resetWith c inputs draws sinkOk).inputs = inputs := rfl
@[simp] theorem resetWith_draws : (State.resetWith c inputs draws sinkOk).draws = draws := rfl
@[simp] theorem resetWith_sinkOk : (State.resetWith c inputs draws sinkOk).sinkOk = sinkOk := rfl
@[simp] theorem resetWith_faultCause :
    (State.resetWith c inputs draws sinkOk).faultCause = .none := rfl
@[simp] theorem resetWith_imgPtr :
    (State.resetWith c inputs draws sinkOk).imgPtr = c.imageBase := rfl
@[simp] theorem resetWith_image : (State.resetWith c inputs draws sinkOk).image = [] := rfl
@[simp] theorem resetWith_response : (State.resetWith c inputs draws sinkOk).response = none := rfl

end

/-! ## The halt test and the capacity check -/

/-- The block is halted exactly when a cause is recorded (R30). -/
theorem halted_iff (s : State) : s.halted = true ↔ s.faultCause ≠ .none := by
  simp [State.halted]

/-- The block is not halted exactly when no cause is recorded. -/
theorem not_halted_iff (s : State) : s.halted = false ↔ s.faultCause = .none := by
  simp [State.halted]

/-- The capacity check as an inequality (R56). -/
theorem hasRoom_iff (s : State) :
    s.hasRoom = true ↔ s.imgPtr + 4 ≤ s.cfg.imageBase + s.cfg.imageBytes := by
  simp [State.hasRoom]

end Sys2Proof.Machine
end

