-- ==== Sys2Proof/Laws/Memory.lean ====
section
/-! SUPPORT. The laws of the memory image: a read after a write, the canonical form, the four bytes of a
word, and little-endian reassembly. -/

namespace Sys2Proof.Machine

/-- A read at the written address gives the byte, every other address reads as before. -/
theorem read_write (m : Memory) (a : Nat) (b : Byte) (x : Nat) :
    (m.write a b).read x = if a = x then some b else m.read x := by
  induction m with
  | nil => simp [Memory.write, Memory.read]
  | cons c m ih =>
    simp only [Memory.write]
    split
    · simp [Memory.read]
    · split
      · rename_i h; subst h
        simp only [Memory.read]
        split <;> rfl
      · rename_i h
        simp only [Memory.read, ih]
        split
        · rename_i hc; subst hc; simp [h]
        · rfl

@[simp] theorem read_write_same (m : Memory) (a : Nat) (b : Byte) : (m.write a b).read a = some b := by
  simp [read_write]

theorem read_write_other {m : Memory} {a x : Nat} {b : Byte} (h : a ≠ x) :
    (m.write a b).read x = m.read x := by
  simp [read_write, h]

/-- Bytes outside the written range read as before. -/
theorem read_writeBytes_other (bs : List Byte) (m : Memory) (a x : Nat)
    (h : x < a ∨ a + bs.length ≤ x) : (m.writeBytes a bs).read x = m.read x := by
  induction bs generalizing m a with
  | nil => rfl
  | cons b bs ih =>
    simp only [List.length_cons] at h
    rw [Memory.writeBytes, ih _ _ (by omega), read_write_other (by omega)]

/-- Each written byte reads back. -/
theorem read_writeBytes_same (bs : List Byte) (m : Memory) (a k : Nat) (h : k < bs.length) :
    (m.writeBytes a bs).read (a + k) = some bs[k] := by
  induction bs generalizing m a k with
  | nil => simp at h
  | cons b bs ih =>
    rw [Memory.writeBytes]
    cases k with
    | zero => rw [read_writeBytes_other _ _ _ _ (by omega)]; simp
    | succ k =>
      have := ih (m.write a b) (a + 1) k (by simpa using h)
      simpa [Nat.add_assoc, Nat.add_comm 1 k] using this

/-- The whole of `writeWord`, byte by byte (R47). -/
theorem read_writeWord (m : Memory) (a : Nat) (w : Word) (x : Nat) :
    (m.writeWord a w).read x =
      if x = a then some (w.extractLsb' 0 8)
      else if x = a + 1 then some (w.extractLsb' 8 8)
      else if x = a + 2 then some (w.extractLsb' 16 8)
      else if x = a + 3 then some (w.extractLsb' 24 8)
      else m.read x := by
  have hs : (serialize w).length = 4 := rfl
  split
  · subst x; exact read_writeBytes_same (serialize w) m a 0 (by omega)
  split
  · subst x; exact read_writeBytes_same (serialize w) m a 1 (by omega)
  split
  · subst x; exact read_writeBytes_same (serialize w) m a 2 (by omega)
  split
  · subst x; exact read_writeBytes_same (serialize w) m a 3 (by omega)
  · exact read_writeBytes_other _ _ _ _ (by omega)

/-- The canonical form as pairwise order of the addresses. -/
theorem wf_iff_pairwise (m : Memory) : m.wf = true ↔ m.Pairwise (fun p q => p.1 < q.1) := by
  induction m with
  | nil => simp [Memory.wf]
  | cons a m ih =>
    cases m with
    | nil => simp [Memory.wf]
    | cons b m =>
      simp only [Memory.wf, Bool.and_eq_true, decide_eq_true_eq, ih, List.pairwise_cons]
      constructor
      · rintro ⟨h, hb, hm⟩
        refine ⟨?_, hb, hm⟩
        intro c hc
        rcases List.mem_cons.mp hc with rfl | hc
        · exact h
        · exact h.trans (hb c hc)
      · rintro ⟨ha, hb, hm⟩
        exact ⟨ha b (by simp), hb, hm⟩

/-- The addresses of a write are the old ones and the written one. -/
theorem mem_write {m : Memory} {a : Nat} {b : Byte} {c : Host.Cell} (h : c ∈ m.write a b) :
    c = (a, b) ∨ c ∈ m := by
  induction m with
  | nil => simpa [Memory.write] using h
  | cons d m ih =>
    simp only [Memory.write] at h
    split at h
    · simpa using h
    · split at h
      · rcases List.mem_cons.mp h with h | h
        · exact .inl h
        · exact .inr (by simp [h])
      · rcases List.mem_cons.mp h with h | h
        · exact .inr (by simp [h])
        · rcases ih h with h | h
          · exact .inl h
          · exact .inr (by simp [h])

/-- A write keeps the canonical form. -/
theorem write_wf {m : Memory} (h : m.wf = true) (a : Nat) (b : Byte) : (m.write a b).wf = true := by
  rw [wf_iff_pairwise] at h ⊢
  induction m with
  | nil => simp [Memory.write]
  | cons d m ih =>
    obtain ⟨hd, hm⟩ := List.pairwise_cons.mp h
    simp only [Memory.write]
    split
    · rename_i hlt
      refine List.pairwise_cons.mpr ⟨?_, h⟩
      intro c hc
      rcases List.mem_cons.mp hc with rfl | hc
      · exact hlt
      · exact hlt.trans (hd c hc)
    · split
      · rename_i heq
        exact List.pairwise_cons.mpr ⟨fun c hc => heq ▸ hd c hc, hm⟩
      · refine List.pairwise_cons.mpr ⟨?_, ih hm⟩
        intro c hc
        rcases mem_write hc with rfl | hc
        · show d.1 < a; omega
        · exact hd c hc

/-- Writing consecutive bytes keeps the canonical form. -/
theorem writeBytes_wf (bs : List Byte) {m : Memory} (h : m.wf = true) (a : Nat) :
    (m.writeBytes a bs).wf = true := by
  induction bs generalizing m a with
  | nil => exact h
  | cons b bs ih => exact ih (write_wf h a b) (a + 1)

/-- Writing a word keeps the canonical form. -/
theorem writeWord_wf {m : Memory} (h : m.wf = true) (a : Nat) (w : Word) :
    (m.writeWord a w).wf = true := writeBytes_wf _ h a

@[simp] theorem reset_image_wf : State.reset.image.wf = true := rfl

/-- A write above every listed address appends. -/
theorem write_above {m : Memory} {a : Nat} (b : Byte) (h : ∀ c ∈ m, c.1 < a) :
    m.write a b = m ++ [(a, b)] := by
  induction m with
  | nil => rfl
  | cons d m ih =>
    have hd : d.1 < a := h d (by simp)
    rw [Memory.write, if_neg (by omega), if_neg (by omega), ih (fun c hc => h c (by simp [hc]))]
    rfl

/-- Consecutive bytes above every listed address append, in order. -/
theorem writeBytes_above (bs : List Byte) {m : Memory} {a : Nat} (h : ∀ c ∈ m, c.1 < a) :
    (m.writeBytes a bs).map Prod.fst = m.map Prod.fst ++ List.range' a bs.length := by
  induction bs generalizing m a with
  | nil => simp [Memory.writeBytes]
  | cons b bs ih =>
    rw [Memory.writeBytes, write_above b h, ih]
    · simp [List.range'_succ]
    · intro c hc
      rcases List.mem_append.mp hc with hc | hc
      · exact Nat.lt_succ_of_lt (h c hc)
      · simp at hc; subst hc; exact Nat.lt_succ_self a

/-- A listed address reads as a value. -/
theorem read_isSome_iff (m : Memory) (x : Nat) : (m.read x).isSome = true ↔ x ∈ m.map Prod.fst := by
  induction m with
  | nil => simp [Memory.read]
  | cons d m ih =>
    simp only [Memory.read]
    split
    · rename_i h; simp [h]
    · rename_i h
      rw [ih, List.map_cons, List.mem_cons]
      constructor
      · exact .inr
      · rintro (h' | h')
        · exact absurd h'.symm h
        · exact h'

end Sys2Proof.Machine
end

