-- ==== Sys2Proof/Laws/Request.lean ====
section
/-! SUPPORT. What one request does: `emit`, `performRequest`, and `exec` of every instruction read as
`performRequest` on its checks and its encoding. Later proofs cite these and unfold no meaning. -/

namespace Sys2Proof.Machine

/-! ## emit -/

/-- Everything `emit` can do (R117, R227): no room, no sink answer, sink refuses, or the word is out. -/
theorem emit_cases (w : Word) (asm : String) (s : State) :
    (s.hasRoom = false ∧ emit w asm s = takeFault (.io s.imgPtr) s) ∨
    (s.hasRoom = true ∧ s.sinkOk = [] ∧ emit w asm s = s) ∨
    (∃ later, s.hasRoom = true ∧ s.sinkOk = false :: later ∧
      emit w asm s = takeFault (.io s.imgPtr) { s with sinkOk := later }) ∨
    (∃ later, s.hasRoom = true ∧ s.sinkOk = true :: later ∧
      emit w asm s = respond (.ok w asm s.imgPtr)
        { s with
          sinkOk := later
          image := s.image.writeWord s.imgPtr w
          imgPtr := s.imgPtr + 4 }) := by
  unfold emit
  cases hr : s.hasRoom with
  | false => exact .inl ⟨rfl, rfl⟩
  | true =>
    refine .inr ?_
    cases hs : s.sinkOk with
    | nil => exact .inl ⟨rfl, rfl, rfl⟩
    | cons b later =>
      cases b with
      | false => exact .inr (.inl ⟨later, rfl, rfl, rfl⟩)
      | true => exact .inr (.inr ⟨later, rfl, rfl, rfl⟩)

theorem emit_no_room {s : State} (h : s.hasRoom = false) (w : Word) (asm : String) :
    emit w asm s = takeFault (.io s.imgPtr) s := by
  rw [emit, if_neg (by simp [h])]

theorem emit_waits {s : State} (hr : s.hasRoom = true) (hs : s.sinkOk = []) (w : Word)
    (asm : String) : emit w asm s = s := by
  rw [emit, if_pos hr, hs]

theorem emit_refused {s : State} {later : List Bool} (hr : s.hasRoom = true)
    (hs : s.sinkOk = false :: later) (w : Word) (asm : String) :
    emit w asm s = takeFault (.io s.imgPtr) { s with sinkOk := later } := by
  rw [emit, if_pos hr, hs]

theorem emit_ok {s : State} {later : List Bool} (hr : s.hasRoom = true)
    (hs : s.sinkOk = true :: later) (w : Word) (asm : String) :
    emit w asm s = respond (.ok w asm s.imgPtr)
      { s with
        sinkOk := later
        image := s.image.writeWord s.imgPtr w
        imgPtr := s.imgPtr + 4 } := by
  rw [emit, if_pos hr, hs]

/-! ## performRequest -/

/-- Everything a request can do (R105, R205). -/
theorem performRequest_cases (checks : List OperandCheck) (encoding : Except CodecFault Encoded)
    (s : State) :
    (s.halted = true ∧ performRequest checks encoding s = .next (respondHalted s)) ∨
    (∃ n v, s.halted = false ∧ firstViolation checks = some (n, v) ∧
      performRequest checks encoding s = .next (takeFault (.range n v) s)) ∨
    (∃ e, s.halted = false ∧ firstViolation checks = none ∧ encoding = .error e ∧
      performRequest checks encoding s = .next (takeFault (.codec e) s)) ∨
    (∃ x, s.halted = false ∧ firstViolation checks = none ∧ encoding = .ok x ∧
      performRequest checks encoding s = .next (emit x.word x.asm s)) := by
  unfold performRequest
  cases hh : s.halted with
  | true => exact .inl ⟨rfl, rfl⟩
  | false =>
    refine .inr ?_
    cases hv : firstViolation checks with
    | some p => exact .inl ⟨p.1, p.2, rfl, rfl, rfl⟩
    | none =>
      cases encoding with
      | error e => exact .inr (.inl ⟨e, rfl, rfl, rfl, rfl⟩)
      | ok x => exact .inr (.inr ⟨x, rfl, rfl, rfl, rfl⟩)

/-! ## exec as performRequest -/

end Sys2Proof.Machine

namespace Sys2Proof

open Sys2Proof.Machine

/-- The range checks of an instruction, as its meaning gives them to `performRequest`. -/
def Instr.checks : Instr → List OperandCheck
  | .add rd rs1 rs2 | .sub rd rs1 rs2 | .and rd rs1 rs2 | .or rd rs1 rs2
  | .xor rd rs1 rs2 | .sll rd rs1 rs2 | .srl rd rs1 rs2 | .sra rd rs1 rs2 => checksR rd rs1 rs2
  | .addi rd rs1 imm | .andi rd rs1 imm | .ori rd rs1 imm | .xori rd rs1 imm
  | .jalr rd rs1 imm | .lb rd rs1 imm | .lh rd rs1 imm | .lw rd rs1 imm
  | .lbu rd rs1 imm | .lhu rd rs1 imm => checksI rd rs1 imm
  | .slli rd rs1 shamt | .srli rd rs1 shamt => checksShift rd rs1 shamt
  | .sb rs1 rs2 imm | .sh rs1 rs2 imm | .sw rs1 rs2 imm => checksS rs1 rs2 imm
  | .beq rs1 rs2 imm | .bne rs1 rs2 imm | .blt rs1 rs2 imm | .bge rs1 rs2 imm
  | .bltu rs1 rs2 imm | .bgeu rs1 rs2 imm => checksB rs1 rs2 imm
  | .lui rd imm | .auipc rd imm => checksU rd imm
  | .jal rd imm => checksJ rd imm
  | .ecall | .ebreak | .fence | .fenceTso | .pause => []

/-- The encoding of an instruction, as its meaning gives it to `performRequest`. -/
def Instr.encoding (c : Config) : Instr → Except CodecFault Encoded
  | .add rd rs1 rs2 => encodeR c.catalog.r[0] rd rs1 rs2
  | .sub rd rs1 rs2 => encodeR c.catalog.r[1] rd rs1 rs2
  | .and rd rs1 rs2 => encodeR c.catalog.r[2] rd rs1 rs2
  | .or rd rs1 rs2 => encodeR c.catalog.r[3] rd rs1 rs2
  | .xor rd rs1 rs2 => encodeR c.catalog.r[4] rd rs1 rs2
  | .sll rd rs1 rs2 => encodeR c.catalog.r[5] rd rs1 rs2
  | .srl rd rs1 rs2 => encodeR c.catalog.r[6] rd rs1 rs2
  | .sra rd rs1 rs2 => encodeR c.catalog.r[7] rd rs1 rs2
  | .addi rd rs1 imm => encodeArith c.catalog.i[0] rd rs1 imm
  | .andi rd rs1 imm => encodeArith c.catalog.i[1] rd rs1 imm
  | .ori rd rs1 imm => encodeArith c.catalog.i[2] rd rs1 imm
  | .xori rd rs1 imm => encodeArith c.catalog.i[3] rd rs1 imm
  | .slli rd rs1 shamt => encodeShift c.catalog.i[4] rd rs1 shamt
  | .srli rd rs1 shamt => encodeShift c.catalog.i[5] rd rs1 shamt
  | .jalr rd rs1 imm => encodeMem c.catalog.i[6] rd rs1 imm
  | .lb rd rs1 imm => encodeMem c.catalog.i[7] rd rs1 imm
  | .lh rd rs1 imm => encodeMem c.catalog.i[8] rd rs1 imm
  | .lw rd rs1 imm => encodeMem c.catalog.i[9] rd rs1 imm
  | .lbu rd rs1 imm => encodeMem c.catalog.i[10] rd rs1 imm
  | .lhu rd rs1 imm => encodeMem c.catalog.i[11] rd rs1 imm
  | .sb rs1 rs2 imm => encodeS c.catalog.s[0] rs1 rs2 imm
  | .sh rs1 rs2 imm => encodeS c.catalog.s[1] rs1 rs2 imm
  | .sw rs1 rs2 imm => encodeS c.catalog.s[2] rs1 rs2 imm
  | .beq rs1 rs2 imm => encodeB c.catalog.b[0] rs1 rs2 imm
  | .bne rs1 rs2 imm => encodeB c.catalog.b[1] rs1 rs2 imm
  | .blt rs1 rs2 imm => encodeB c.catalog.b[2] rs1 rs2 imm
  | .bge rs1 rs2 imm => encodeB c.catalog.b[3] rs1 rs2 imm
  | .bltu rs1 rs2 imm => encodeB c.catalog.b[4] rs1 rs2 imm
  | .bgeu rs1 rs2 imm => encodeB c.catalog.b[5] rs1 rs2 imm
  | .lui rd imm => encodeU c.catalog.u[0] rd imm
  | .auipc rd imm => encodeU c.catalog.u[1] rd imm
  | .jal rd imm => encodeJ c.catalog.j[0] rd imm
  | .ecall => encodeSys c.sysLiterals[0]
  | .ebreak => encodeSys c.sysLiterals[1]
  | .fence => encodeSys c.sysLiterals[2]
  | .fenceTso => encodeSys c.sysLiterals[3]
  | .pause => encodeSys c.sysLiterals[4]

end Sys2Proof

namespace Sys2Proof.Machine

/-- Every meaning is one request on its row's checks and encoding. -/
theorem exec_eq (i : Instr) (s : State) :
    exec i s = performRequest i.checks (i.encoding s.cfg) s := by
  cases i <;> rfl

/-- The checks of a list that starts with a passing check. -/
theorem firstViolation_cons_pass {k : OperandCheck} (ks : List OperandCheck) (h : k.pass = true) :
    firstViolation (k :: ks) = firstViolation ks := by
  rw [firstViolation, if_pos h]

/-- The checks of a list that starts with a failing check. -/
theorem firstViolation_cons_fail {k : OperandCheck} (ks : List OperandCheck) (h : k.pass = false) :
    firstViolation (k :: ks) = some (k.name, k.value) := by
  rw [firstViolation, if_neg (by simp [h])]

/-- A check reads as the used operand `o`. -/
def checkOf (o : UsedOperand) : OperandCheck := ⟨o.name, o.value, o.legal⟩

theorem checkReg_eq (n : OperandName) (v : Int) : checkReg n v = checkOf (.reg n v) := by
  simp [checkReg, checkOf, UsedOperand.reg, inRange]

theorem checkImm12_eq (v : Int) : checkImm12 v = checkOf (.imm12 v) := by
  simp [checkImm12, checkOf, UsedOperand.imm12, inRange]

theorem checkShamt_eq (v : Int) : checkShamt v = checkOf (.shamt v) := by
  simp [checkShamt, checkOf, UsedOperand.shamt, inRange]

theorem checkOffsetB_eq (v : Int) : checkOffsetB v = checkOf (.offset13 v) := by
  simp [checkOffsetB, checkOf, UsedOperand.offset13, inRange, isEven, Bool.beq_eq_decide_eq,
    Bool.and_assoc]

theorem checkImm20_eq (v : Int) : checkImm20 v = checkOf (.imm20 v) := by
  simp [checkImm20, checkOf, UsedOperand.imm20, inRange]

theorem checkOffsetJ_eq (v : Int) : checkOffsetJ v = checkOf (.offset21 v) := by
  simp [checkOffsetJ, checkOf, UsedOperand.offset21, inRange, isEven, Bool.beq_eq_decide_eq,
    Bool.and_assoc]

/-- The checks of an instruction are its used operands (R109, R112). -/
theorem checks_eq (i : Instr) : i.checks = i.operands.map checkOf := by
  cases i <;>
    simp only [Instr.checks, Instr.operands, checksR, checksI, checksShift, checksS, checksB, checksU,
      checksJ, checkReg_eq, checkImm12_eq, checkShamt_eq, checkOffsetB_eq, checkImm20_eq,
      checkOffsetJ_eq, List.map_cons, List.map_nil]

/-- The range check of the block names the first illegal operand (R112). -/
theorem firstViolation_eq (i : Instr) : firstViolation i.checks = i.firstIllegal := by
  rw [checks_eq, Instr.firstIllegal]
  induction i.operands with
  | nil => rfl
  | cons o os ih =>
    cases h : o.legal with
    | true =>
      rw [List.map_cons, firstViolation_cons_pass _ (show (checkOf o).pass = true from h), ih]
      simp [h]
    | false =>
      rw [List.map_cons, firstViolation_cons_fail _ (show (checkOf o).pass = false from h)]
      simp [h, checkOf]

/-- A well-formed instruction is one without an illegal operand. -/
theorem wf_iff_firstIllegal (i : Instr) : i.wf = true ↔ i.firstIllegal = none := by
  simp [Instr.wf, Instr.firstIllegal, List.find?_eq_none]

/-- The codec's word of a well-formed instruction on a row that fits is its layout, its text the
template of its format. -/
theorem encoding_eq {c : Config} {i : Instr} (hwf : i.wf = true) (hfit : i.rowFits c = true) :
    i.encoding c = .ok ⟨encodeWith c i, i.text c⟩ := by
  cases i <;>
    simp only [Instr.wf, Instr.operands, List.all_cons, List.all_nil, Bool.and_true, Bool.and_eq_true,
      UsedOperand.reg, UsedOperand.imm12, UsedOperand.shamt, UsedOperand.offset13, UsedOperand.imm20,
      UsedOperand.offset21, decide_eq_true_eq] at hwf <;>
    simp only [Instr.rowFits, Instr.pattern, RRow.pattern, IRow.pattern, FunctRow.pattern,
      OpcodeRow.pattern, SysRow.pattern, Option.isSome_ite] at hfit
  case add | sub | and | or | xor | sll | srl | sra => exact encodeR_eq hfit hwf.1 hwf.2.1 hwf.2.2
  case addi | andi | ori | xori => exact encodeArith_eq hfit hwf.1 hwf.2.1 hwf.2.2
  case slli | srli => exact encodeShift_eq hfit hwf.1 hwf.2.1 hwf.2.2
  case jalr | lb | lh | lw | lbu | lhu => exact encodeMem_eq hfit hwf.1 hwf.2.1 hwf.2.2
  case sb | sh | sw => exact encodeS_eq hfit hwf.1 hwf.2.1 hwf.2.2
  case beq | bne | blt | bge | bltu | bgeu =>
    exact encodeB_eq hfit hwf.1 hwf.2.1 ⟨hwf.2.2.1, hwf.2.2.2.1⟩
  case lui | auipc => exact encodeU_eq hfit hwf.1 hwf.2
  case jal => exact encodeJ_eq hfit hwf.1 ⟨hwf.2.1, hwf.2.2.1⟩
  case ecall | ebreak | fence | fenceTso | pause => exact encodeSys_eq hfit

/-! ## What exec answers, case by case -/

/-- On a halted block (R107). -/
theorem exec_halted {s : State} (h : s.halted = true) (i : Instr) :
    exec i s = .next (respondHalted s) := by
  rw [exec_eq]; unfold performRequest; rw [if_pos h]

/-- With an operand outside its range (R111, R112). -/
theorem exec_illegal {s : State} {i : Instr} {n : OperandName} {v : Int} (h : s.halted = false)
    (hi : i.firstIllegal = some (n, v)) : exec i s = .next (takeFault (.range n v) s) := by
  rw [exec_eq]; unfold performRequest
  rw [if_neg (by simp [h]), firstViolation_eq, hi]

/-- With legal operands and a row that fits (R117). -/
theorem exec_emits {s : State} {i : Instr} (h : s.halted = false) (hwf : i.wf = true)
    (hfit : i.rowFits s.cfg = true) :
    exec i s = .next (emit (encodeWith s.cfg i) (i.text s.cfg) s) := by
  rw [exec_eq]; unfold performRequest
  rw [if_neg (by simp [h]), firstViolation_eq,
    (wf_iff_firstIllegal i).mp hwf, encoding_eq hwf hfit]

/-- Everything `exec` can do. -/
theorem exec_cases (i : Instr) (s : State) :
    (s.halted = true ∧ exec i s = .next (respondHalted s)) ∨
    (∃ n v, s.halted = false ∧ i.firstIllegal = some (n, v) ∧
      exec i s = .next (takeFault (.range n v) s)) ∨
    (∃ e, s.halted = false ∧ i.wf = true ∧ i.encoding s.cfg = .error e ∧
      exec i s = .next (takeFault (.codec e) s)) ∨
    (∃ x, s.halted = false ∧ i.wf = true ∧ i.encoding s.cfg = .ok x ∧
      exec i s = .next (emit x.word x.asm s)) := by
  have h := performRequest_cases i.checks (i.encoding s.cfg) s
  rw [← exec_eq, firstViolation_eq, ← wf_iff_firstIllegal] at h
  exact h

end Sys2Proof.Machine
end

