-- ==== Sys2Proof/Laws/Malformed.lean ====
section
/-! SUPPORT. The other half of the encoder laws: a legal instruction of a row with a value wider than its
field is not encoded but raises `F_CODEC` (R37, R202). -/

namespace Sys2Proof.Machine

open Sys2Proof

theorem packField_misfit_nat {v : Int} {n : Nat} (hn : 1 ≤ n) (h : fitsField v n .unsigned = false) :
    packField v n .unsigned = .error (.packMisfit v n .unsigned) := by
  have : ¬ ((n : Int) < 1) := by omega
  simp [packField, this, h]

theorem pack7_cases (v : Int) : (fitsField v 7 .unsigned = true ∧ packField v 7 .unsigned = .ok
    ⟨7, trunc 7 v⟩) ∨
    (fitsField v 7 .unsigned = false ∧ packField v 7 .unsigned = .error (.packMisfit v (7:Nat) .unsigned)) := by
  cases h : fitsField v 7 .unsigned with
  | true => exact .inl ⟨rfl, pack_opcode h⟩
  | false => exact .inr ⟨rfl, packField_misfit_nat (n := 7) (by decide) h⟩

theorem pack3_cases (v : Int) : (fitsField v 3 .unsigned = true ∧ packField v 3 .unsigned = .ok
    ⟨3, trunc 3 v⟩) ∨
    (fitsField v 3 .unsigned = false ∧ packField v 3 .unsigned = .error (.packMisfit v (3:Nat) .unsigned)) := by
  cases h : fitsField v 3 .unsigned with
  | true => exact .inl ⟨rfl, pack_funct3 h⟩
  | false => exact .inr ⟨rfl, packField_misfit_nat (n := 3) (by decide) h⟩

theorem pack32_misfit (v : Int)
    (h : fitsField v 32 .unsigned = false) : packField v 32 .unsigned = .error (.packMisfit v (32:Nat) .unsigned) := by
  exact packField_misfit_nat (n := 32) (by decide) h

/-- The encoding raises `F_CODEC` for one of the given values, which is wider than its field (R37, R202). -/
def RaisesMisfit (values : List (Int × Nat)) (r : Except CodecFault Encoded) : Prop :=
  ∃ v n, (v, n) ∈ values ∧ fitsField v n .unsigned = false ∧ r = .error (.packMisfit v n .unsigned)

theorem encodeR_misfit {x : RRow} {rd rs1 rs2 : Int} (hx : x.fits = false) (hd : 0 ≤ rd ∧ rd ≤ 31)
    (h1 : 0 ≤ rs1 ∧ rs1 ≤ 31) (h2 : 0 ≤ rs2 ∧ rs2 ≤ 31) :
    RaisesMisfit x.values (encodeR x rd rs1 rs2) := by
  rcases pack7_cases x.funct7 with ⟨f7, p7⟩ | ⟨f7, p7⟩
  · rcases pack3_cases x.funct3 with ⟨f3, p3⟩ | ⟨f3, p3⟩
    · rcases pack7_cases x.opcode with ⟨fo, po⟩ | ⟨fo, po⟩
      · simp [RRow.fits, f7, f3, fo] at hx
      · exact ⟨_, _, by simp [RRow.values], fo, by simp only [encodeR, p7, p3, po, pack_reg hd, pack_reg h1, pack_reg h2,
          except_ok_bind, except_error_bind]⟩
    · exact ⟨_, _, by simp [RRow.values], f3, by simp only [encodeR, p7, p3, pack_reg hd, pack_reg h1, pack_reg h2,
        except_ok_bind, except_error_bind]⟩
  · exact ⟨_, _, by simp [RRow.values], f7, by simp only [encodeR, p7, except_error_bind]⟩

theorem encodeI_misfit {x : IRow} {rd rs1 imm : Int} (hx : x.fits = false) (hd : 0 ≤ rd ∧ rd ≤ 31)
    (h1 : 0 ≤ rs1 ∧ rs1 ≤ 31) (h2 : -2048 ≤ imm ∧ imm ≤ 2047) :
    RaisesMisfit x.values (encodeArith x rd rs1 imm) ∧ RaisesMisfit x.values (encodeMem x rd rs1 imm) := by
  rcases pack3_cases x.funct3 with ⟨f3, p3⟩ | ⟨f3, p3⟩
  · rcases pack7_cases x.opcode with ⟨fo, po⟩ | ⟨fo, po⟩
    · simp [IRow.fits, f3, fo] at hx
    · constructor <;> refine ⟨_, _, by simp [IRow.values], fo, ?_⟩ <;> simp only [encodeArith, encodeMem, packI, p3, po,
        pack_reg hd, pack_reg h1, pack_imm12 h2, except_ok_bind, except_error_bind]
  · constructor <;> refine ⟨_, _, by simp [IRow.values], f3, ?_⟩ <;> simp only [encodeArith, encodeMem, packI, p3,
      pack_reg hd, pack_reg h1, pack_imm12 h2, except_ok_bind, except_error_bind]

theorem encodeShift_misfit {x : IRow} {rd rs1 imm : Int} (hx : x.fits = false)
    (hd : 0 ≤ rd ∧ rd ≤ 31) (h1 : 0 ≤ rs1 ∧ rs1 ≤ 31) (h2 : 0 ≤ imm ∧ imm ≤ 31) :
    RaisesMisfit x.values (encodeShift x rd rs1 imm) := by
  have hz : packField 0 7 .unsigned = .ok ⟨7, 0b0000000#7⟩ := rfl
  rcases pack3_cases x.funct3 with ⟨f3, p3⟩ | ⟨f3, p3⟩
  · rcases pack7_cases x.opcode with ⟨fo, po⟩ | ⟨fo, po⟩
    · simp [IRow.fits, f3, fo] at hx
    · exact ⟨_, _, by simp [IRow.values], fo, by simp only [encodeShift, hz, p3, po, pack_reg hd, pack_reg h1,
        pack_reg h2, except_ok_bind, except_error_bind]⟩
  · exact ⟨_, _, by simp [IRow.values], f3, by simp only [encodeShift, hz, p3, pack_reg hd, pack_reg h1, pack_reg h2,
      except_ok_bind, except_error_bind]⟩

theorem encodeS_misfit {x : FunctRow} {rs1 rs2 imm : Int} (hx : x.fits = false)
    (h1 : 0 ≤ rs1 ∧ rs1 ≤ 31) (h2 : 0 ≤ rs2 ∧ rs2 ≤ 31) (hi : -2048 ≤ imm ∧ imm ≤ 2047) :
    RaisesMisfit x.values (encodeS x rs1 rs2 imm) := by
  have e1 : extractBits ⟨12, trunc 12 imm⟩ 11 5 = .ok ((trunc 12 imm).extractLsb' 5 7).toNat :=
    extractBits_inside ⟨12, trunc 12 imm⟩ (hi := 11) (lo := 5) (by decide) (by show 11 < 12; decide)
  have e2 : extractBits ⟨12, trunc 12 imm⟩ 4 0 = .ok ((trunc 12 imm).extractLsb' 0 5).toNat :=
    extractBits_inside ⟨12, trunc 12 imm⟩ (hi := 4) (lo := 0) (by decide) (by show 4 < 12; decide)
  have p1 := packField_extract (trunc 12 imm) 5 7 (by decide)
  have p2 := packField_extract (trunc 12 imm) 0 5 (by decide)
  simp only [Nat.cast_ofNat] at p1 p2
  rcases pack3_cases x.funct3 with ⟨f3, p3⟩ | ⟨f3, p3⟩
  · rcases pack7_cases x.opcode with ⟨fo, po⟩ | ⟨fo, po⟩
    · simp [FunctRow.fits, f3, fo] at hx
    · exact ⟨_, _, by simp [FunctRow.values], fo, by simp only [encodeS, pack_imm12 hi, p3, po, pack_reg h1, pack_reg h2,
        except_ok_bind, except_error_bind, e1, e2, p1, p2]⟩
  · exact ⟨_, _, by simp [FunctRow.values], f3, by simp only [encodeS, pack_imm12 hi, p3, pack_reg h1, pack_reg h2,
      except_ok_bind, except_error_bind, e1, p1]⟩

theorem encodeB_misfit {x : FunctRow} {rs1 rs2 imm : Int} (hx : x.fits = false)
    (h1 : 0 ≤ rs1 ∧ rs1 ≤ 31) (h2 : 0 ≤ rs2 ∧ rs2 ≤ 31) (hi : -4096 ≤ imm ∧ imm ≤ 4094) :
    RaisesMisfit x.values (encodeB x rs1 rs2 imm) := by
  have e1 : extractBits ⟨13, trunc 13 imm⟩ 12 12 = .ok ((trunc 13 imm).extractLsb' 12 1).toNat :=
    extractBits_inside ⟨13, trunc 13 imm⟩ (hi := 12) (lo := 12) (by decide) (by show 12 < 13; decide)
  have e2 : extractBits ⟨13, trunc 13 imm⟩ 10 5 = .ok ((trunc 13 imm).extractLsb' 5 6).toNat :=
    extractBits_inside ⟨13, trunc 13 imm⟩ (hi := 10) (lo := 5) (by decide) (by show 10 < 13; decide)
  have e3 : extractBits ⟨13, trunc 13 imm⟩ 4 1 = .ok ((trunc 13 imm).extractLsb' 1 4).toNat :=
    extractBits_inside ⟨13, trunc 13 imm⟩ (hi := 4) (lo := 1) (by decide) (by show 4 < 13; decide)
  have e4 : extractBits ⟨13, trunc 13 imm⟩ 11 11 = .ok ((trunc 13 imm).extractLsb' 11 1).toNat :=
    extractBits_inside ⟨13, trunc 13 imm⟩ (hi := 11) (lo := 11) (by decide) (by show 11 < 13; decide)
  have p1 := packField_extract (trunc 13 imm) 12 1 (by decide)
  have p2 := packField_extract (trunc 13 imm) 5 6 (by decide)
  have p3' := packField_extract (trunc 13 imm) 1 4 (by decide)
  have p4 := packField_extract (trunc 13 imm) 11 1 (by decide)
  simp only [Nat.cast_ofNat, Nat.cast_one] at p1 p2 p3' p4
  rcases pack3_cases x.funct3 with ⟨f3, p3⟩ | ⟨f3, p3⟩
  · rcases pack7_cases x.opcode with ⟨fo, po⟩ | ⟨fo, po⟩
    · simp [FunctRow.fits, f3, fo] at hx
    · exact ⟨_, _, by simp [FunctRow.values], fo, by simp only [encodeB, pack_offset13 hi, p3, po, pack_reg h1, pack_reg h2,
        except_ok_bind, except_error_bind, e1, e2, e3, e4, p1, p2, p3', p4]⟩
  · exact ⟨_, _, by simp [FunctRow.values], f3, by simp only [encodeB, pack_offset13 hi, p3, pack_reg h1, pack_reg h2,
      except_ok_bind, except_error_bind, e1, e2, p1, p2]⟩

theorem encodeU_misfit {x : OpcodeRow} {rd imm : Int} (hx : x.fits = false)
    (hd : 0 ≤ rd ∧ rd ≤ 31) (hi : -524288 ≤ imm ∧ imm ≤ 524287) :
    RaisesMisfit x.values (encodeU x rd imm) := by
  rcases pack7_cases x.opcode with ⟨fo, po⟩ | ⟨fo, po⟩
  · simp [OpcodeRow.fits, fo] at hx
  · exact ⟨_, _, by simp [OpcodeRow.values], fo, by simp only [encodeU, pack_imm20 hi, pack_reg hd, po, except_ok_bind,
      except_error_bind]⟩

theorem encodeJ_misfit {x : OpcodeRow} {rd imm : Int} (hx : x.fits = false)
    (hd : 0 ≤ rd ∧ rd ≤ 31) (hi : -1048576 ≤ imm ∧ imm ≤ 1048574) :
    RaisesMisfit x.values (encodeJ x rd imm) := by
  have e1 : extractBits ⟨21, trunc 21 imm⟩ 20 20 = .ok ((trunc 21 imm).extractLsb' 20 1).toNat :=
    extractBits_inside ⟨21, trunc 21 imm⟩ (hi := 20) (lo := 20) (by decide) (by show 20 < 21; decide)
  have e2 : extractBits ⟨21, trunc 21 imm⟩ 10 1 = .ok ((trunc 21 imm).extractLsb' 1 10).toNat :=
    extractBits_inside ⟨21, trunc 21 imm⟩ (hi := 10) (lo := 1) (by decide) (by show 10 < 21; decide)
  have e3 : extractBits ⟨21, trunc 21 imm⟩ 11 11 = .ok ((trunc 21 imm).extractLsb' 11 1).toNat :=
    extractBits_inside ⟨21, trunc 21 imm⟩ (hi := 11) (lo := 11) (by decide) (by show 11 < 21; decide)
  have e4 : extractBits ⟨21, trunc 21 imm⟩ 19 12 = .ok ((trunc 21 imm).extractLsb' 12 8).toNat :=
    extractBits_inside ⟨21, trunc 21 imm⟩ (hi := 19) (lo := 12) (by decide) (by show 19 < 21; decide)
  have p1 := packField_extract (trunc 21 imm) 20 1 (by decide)
  have p2 := packField_extract (trunc 21 imm) 1 10 (by decide)
  have p3 := packField_extract (trunc 21 imm) 11 1 (by decide)
  have p4 := packField_extract (trunc 21 imm) 12 8 (by decide)
  simp only [Nat.cast_ofNat, Nat.cast_one] at p1 p2 p3 p4
  rcases pack7_cases x.opcode with ⟨fo, po⟩ | ⟨fo, po⟩
  · simp [OpcodeRow.fits, fo] at hx
  · exact ⟨_, _, by simp [OpcodeRow.values], fo, by simp only [encodeJ, pack_offset21 hi, pack_reg hd, po, except_ok_bind,
      except_error_bind, e1, e2, e3, e4, p1, p2, p3, p4]⟩

theorem encodeSys_misfit {x : SysRow} (hx : x.fits = false) : RaisesMisfit x.values (encodeSys x) :=
  ⟨_, _, by simp [SysRow.values], hx, by simp only [encodeSys, pack32_misfit _ hx, except_error_bind]⟩

/-- A legal instruction of a row that does not fit raises the misfit of its first pack that fails. -/
theorem encoding_misfit {c : Config} {i : Instr} (hwf : i.wf = true)
    (hfit : i.rowFits c = false) : RaisesMisfit (i.catalogValues c) (i.encoding c) := by
  cases i <;>
    simp only [Instr.wf, Instr.operands, List.all_cons, List.all_nil, Bool.and_true, Bool.and_eq_true,
      UsedOperand.reg, UsedOperand.imm12, UsedOperand.shamt, UsedOperand.offset13, UsedOperand.imm20,
      UsedOperand.offset21, decide_eq_true_eq] at hwf <;>
    simp only [Instr.rowFits, Instr.pattern, RRow.pattern, IRow.pattern, FunctRow.pattern,
      OpcodeRow.pattern, SysRow.pattern, Option.isSome_ite, ← Bool.not_eq_true] at hfit <;>
    simp only [Bool.not_eq_true] at hfit
  case add | sub | and | or | xor | sll | srl | sra => exact encodeR_misfit hfit hwf.1 hwf.2.1 hwf.2.2
  case addi | andi | ori | xori => exact (encodeI_misfit hfit hwf.1 hwf.2.1 hwf.2.2).1
  case slli | srli => exact encodeShift_misfit hfit hwf.1 hwf.2.1 hwf.2.2
  case jalr | lb | lh | lw | lbu | lhu => exact (encodeI_misfit hfit hwf.1 hwf.2.1 hwf.2.2).2
  case sb | sh | sw => exact encodeS_misfit hfit hwf.1 hwf.2.1 hwf.2.2
  case beq | bne | blt | bge | bltu | bgeu => exact encodeB_misfit hfit hwf.1 hwf.2.1 ⟨hwf.2.2.1,
      hwf.2.2.2.1⟩
  case lui | auipc => exact encodeU_misfit hfit hwf.1 hwf.2
  case jal => exact encodeJ_misfit hfit hwf.1 ⟨hwf.2.1, hwf.2.2.1⟩
  case ecall | ebreak | fence | fenceTso | pause => exact encodeSys_misfit hfit

end Sys2Proof.Machine
end

