-- ==== Sys2Proof/Laws/Step.lean ====
section
/-! SUPPORT. What a step can do, said once: `step_cases`. Every invariant is derived from it and from
`exec_cases`, without unfolding `step`. -/

namespace Sys2Proof.Machine

theorem ifStructured_pos {c : Config} (h : c.structured = true)
    (o : Host.Outcome State Fault Refusal) : ifStructured c o = o := by
  rw [ifStructured, if_pos h]

theorem ifStructured_neg {c : Config} (h : c.structured = false)
    (o : Host.Outcome State Fault Refusal) : ifStructured c o = .refused .configNotAdmitted := by
  rw [ifStructured, if_neg (by simp [h])]

/-- A guarded answer that is a next state was answered under a structured configuration. -/
theorem ifStructured_next {c : Config} {o : Host.Outcome State Fault Refusal} {t : State}
    (h : ifStructured c o = .next t) : c.structured = true ∧ o = .next t := by
  unfold ifStructured at h
  split at h
  · exact ⟨‹_›, h⟩
  · cases h

/-! ## The step on each oldest input -/

theorem step_idle {s : State} (hc : s.cfg.structured = true) (hi : s.inputs = []) :
    step s = .next s := by
  unfold step performInput
  rw [hi]; exact ifStructured_pos hc _

theorem step_reset {s : State} {later : List Input} (hc : s.cfg.structured = true)
    (hi : s.inputs = .reset :: later) : step s = .next (applyReset { s with inputs := later }) := by
  unfold step performInput
  rw [hi]; exact ifStructured_pos hc _

theorem step_request {s : State} {req : Request} {later : List Input}
    (hc : s.cfg.structured = true) (hi : s.inputs = .request req :: later) :
    step s = performInputRequest req s := by
  unfold step performInput
  rw [hi]; exact ifStructured_pos hc _

theorem step_unstructured {s : State} (hc : s.cfg.structured = false) :
    step s = .refused .configNotAdmitted := by
  unfold step performInput
  split <;> exact ifStructured_neg hc _

/-! ## The request of a step -/

theorem performInputRequest_halted {s : State} (h : s.halted = true) (req : Request) :
    performInputRequest req s = .next (respondHalted (s.accept s.draws)) := by
  unfold performInputRequest; rw [if_pos h]

theorem performInputRequest_waits {s : State} {req : Request} (h : s.halted = false)
    (hs : select s.cfg req s.draws = .waits) : performInputRequest req s = .next s := by
  unfold performInputRequest; rw [if_neg (by simp [h]), hs]

theorem performInputRequest_raises {s : State} {req : Request} {info : FaultInfo} {left : List Int}
    (h : s.halted = false) (hs : select s.cfg req s.draws = .raises info left) :
    performInputRequest req s = .next (takeFault info (s.accept left)) := by
  unfold performInputRequest; rw [if_neg (by simp [h]), hs]

theorem performInputRequest_runs {s : State} {req : Request} {i : Instr} {left : List Int}
    (h : s.halted = false) (hs : select s.cfg req s.draws = .runs i left) :
    performInputRequest req s = settle s (exec i (s.accept left)) := by
  unfold performInputRequest; rw [if_neg (by simp [h]), hs]

/-- `exec` on an accepted request either answers, or holds and changes nothing (R227). -/
theorem exec_accepted (i : Instr) (s : State) (left : List Int) :
    (exec i (s.accept left) = .next (s.accept left) ∧ s.hasRoom = true ∧ s.sinkOk = []) ∨
    (∃ t r, exec i (s.accept left) = .next t ∧ t.response = some r) := by
  rcases exec_cases i (s.accept left) with ⟨_, h⟩ | ⟨n, v, _, _, h⟩ | ⟨e, _, _, _, h⟩ | ⟨x, _, _, _, h⟩
  · exact .inr ⟨_, _, h, rfl⟩
  · exact .inr ⟨_, _, h, rfl⟩
  · exact .inr ⟨_, _, h, rfl⟩
  · rcases emit_cases x.word x.asm (s.accept left) with
      ⟨_, he⟩ | ⟨hr, hs, he⟩ | ⟨later, _, _, he⟩ | ⟨later, _, _, he⟩
    · exact .inr ⟨_, _, he ▸ h, rfl⟩
    · exact .inl ⟨by rw [h, he], hr, hs⟩
    · exact .inr ⟨_, _, he ▸ h, rfl⟩
    · exact .inr ⟨_, _, he ▸ h, rfl⟩

/-- The settled answer of an accepted request: held, or the answer of `exec`. -/
theorem settle_exec (i : Instr) (s : State) (left : List Int) :
    (settle s (exec i (s.accept left)) = .next s ∧ exec i (s.accept left) = .next (s.accept left) ∧
      s.hasRoom = true ∧ s.sinkOk = []) ∨
    (∃ t r, settle s (exec i (s.accept left)) = .next t ∧ exec i (s.accept left) = .next t ∧
      t.response = some r) := by
  rcases exec_accepted i s left with ⟨h, hr, hs⟩ | ⟨t, r, h, ht⟩
  · refine .inl ⟨?_, h, hr, hs⟩
    rw [h]; rfl
  · refine .inr ⟨t, r, ?_, h, ht⟩
    rw [h, settle, ht]; rfl

/-- Everything a step that answers a next state can have done. -/
theorem step_cases {s t : State} (h : step s = .next t) :
    s.cfg.structured = true ∧
    ((s.inputs = [] ∧ t = s) ∨
     (∃ later, s.inputs = .reset :: later ∧ t = applyReset { s with inputs := later }) ∨
     (∃ req later, s.inputs = .request req :: later ∧ s.halted = true ∧
        t = respondHalted (s.accept s.draws)) ∨
     (∃ req later, s.inputs = .request req :: later ∧ s.halted = false ∧
        select s.cfg req s.draws = .waits ∧ t = s) ∨
     (∃ req later info left, s.inputs = .request req :: later ∧ s.halted = false ∧
        select s.cfg req s.draws = .raises info left ∧ t = takeFault info (s.accept left)) ∨
     (∃ req later i left, s.inputs = .request req :: later ∧ s.halted = false ∧
        select s.cfg req s.draws = .runs i left ∧ s.hasRoom = true ∧ s.sinkOk = [] ∧
        exec i (s.accept left) = .next (s.accept left) ∧ t = s) ∨
     (∃ req later i left r, s.inputs = .request req :: later ∧ s.halted = false ∧
        select s.cfg req s.draws = .runs i left ∧ exec i (s.accept left) = .next t ∧
        t.response = some r)) := by
  cases hc : s.cfg.structured with
  | false => rw [step_unstructured hc] at h; cases h
  | true =>
    refine ⟨rfl, ?_⟩
    cases hi : s.inputs with
    | nil =>
      rw [step_idle hc hi] at h; cases h
      exact .inl ⟨rfl, rfl⟩
    | cons x later =>
      cases x with
      | reset =>
        rw [step_reset hc hi] at h; cases h
        exact .inr (.inl ⟨later, rfl, rfl⟩)
      | request req =>
        rw [step_request hc hi] at h
        refine .inr (.inr ?_)
        cases hh : s.halted with
        | true =>
          rw [performInputRequest_halted hh] at h; cases h
          exact .inl ⟨req, later, rfl, rfl, rfl⟩
        | false =>
          refine .inr ?_
          cases hs : select s.cfg req s.draws with
          | waits =>
            rw [performInputRequest_waits hh hs] at h; cases h
            exact .inl ⟨req, later, rfl, rfl, hs, rfl⟩
          | raises info left =>
            rw [performInputRequest_raises hh hs] at h; cases h
            exact .inr (.inl ⟨req, later, info, left, rfl, rfl, hs, rfl⟩)
          | runs i left =>
            rw [performInputRequest_runs hh hs] at h
            refine .inr (.inr ?_)
            rcases settle_exec i s left with ⟨h1, h2, hr, hk⟩ | ⟨t', r, h1, h2, ht⟩
            · rw [h1] at h; cases h
              exact .inl ⟨req, later, i, left, rfl, rfl, hs, hr, hk, h2, rfl⟩
            · rw [h1] at h; cases h
              exact .inr ⟨req, later, i, left, r, rfl, rfl, hs, h2, ht⟩

end Sys2Proof.Machine
end

