-- ==== Sys2Proof/Laws/Select.lean ====
section
/-! SUPPORT. Row selection: the directed request of an instruction selects it, and what a draw that is in
its range does. -/

namespace Sys2Proof

open Sys2Proof.Machine

/-- The mnemonics of a structured catalog, format by format (R85, R89). -/
theorem mnemonics_eq {c : Config} (h : c.catalog.namesOk = true) :
    c.mnemonics .R = ["add", "sub", "and", "or", "xor", "sll", "srl", "sra"] ∧
    c.mnemonics .I =
      ["addi", "andi", "ori", "xori", "slli", "srli", "jalr", "lb", "lh", "lw", "lbu", "lhu"] ∧
    c.mnemonics .S = ["sb", "sh", "sw"] ∧
    c.mnemonics .B = ["beq", "bne", "blt", "bge", "bltu", "bgeu"] ∧
    c.mnemonics .U = ["lui", "auipc"] ∧ c.mnemonics .J = ["jal"] := by
  simp only [Catalog.namesOk, Bool.and_eq_true, beq_iff_eq, and_assoc] at h
  exact h

/-- The parts of `Config.structured` that selection and decode use. -/
theorem structured_parts {c : Config} (h : c.structured = true) :
    c.catalog.namesOk = true ∧ c.catalog.subKindsOk = true ∧ c.sysNamesOk = true ∧
      c.disambiguated = true ∧ c.baseAligned = true := by
  simp only [Config.structured, Bool.and_eq_true] at h
  exact ⟨h.1.1.1.1.1.1.1.1.1.1, h.1.1.1.1.1.1.1.1.1.2, h.1.1.2, h.1.2, h.2⟩

/-- No catalog of a structured configuration names a mnemonic twice. -/
theorem mnemonics_nodup {c : Config} (h : c.structured = true) (f : Fmt) : (c.mnemonics f).Nodup := by
  obtain ⟨hn, _, hs, _, _⟩ := structured_parts h
  obtain ⟨hR, hI, hS, hB, hU, hJ⟩ := mnemonics_eq hn
  cases f
  case R => rw [hR]; decide
  case I => rw [hI]; decide
  case S => rw [hS]; decide
  case B => rw [hB]; decide
  case U => rw [hU]; decide
  case J => rw [hJ]; decide
  case SYS => simpa [Config.sysNamesOk, Config.mnemonics] using hs

/-- The number of rows of each catalog (R36). -/
theorem mnemonics_length (c : Config) (f : Fmt) :
    (c.mnemonics f).length =
      match f with
      | .R => 8 | .I => 12 | .S => 3 | .B => 6 | .U => 2 | .J => 1 | .SYS => 5 := by
  cases f <;> simp [Config.mnemonics]

end Sys2Proof

namespace Sys2Proof.Machine

/-- The row at a position of a structured catalog is the row its mnemonic names (R108). -/
theorem rowNamed_at {c : Config} (h : c.structured = true) {f : Fmt} {k : Nat} {mn : String}
    (hk : (c.mnemonics f)[k]? = some mn) (rd rs1 rs2 imm : Int) :
    rowNamed c f mn rd rs1 rs2 imm = rowAt f k rd rs1 rs2 imm := by
  obtain ⟨hlt, heq⟩ := List.getElem?_eq_some_iff.mp hk
  rw [rowNamed, ← heq, (mnemonics_nodup h f).idxOf_getElem k hlt]

/-- A mnemonic that is not in the catalog of the format selects no row (R108). -/
theorem rowNamed_unknown {c : Config} {f : Fmt} {mn : String} (h : mn ∉ c.mnemonics f)
    (rd rs1 rs2 imm : Int) : rowNamed c f mn rd rs1 rs2 imm = none := by
  have hl := mnemonics_length c f
  rw [rowNamed, List.idxOf_eq_length h]
  cases f <;> simp only at hl <;> rw [hl] <;> rfl

theorem select_directed_runs {c : Config} {f : Fmt} {mn : String} {rd rs1 rs2 imm : Int} {i : Instr}
    (h : rowNamed c f mn rd rs1 rs2 imm = some i) (draws : List Int) :
    select c (.directed (.known f) mn rd rs1 rs2 imm) draws = .runs i draws := by
  simp only [select, h]

theorem select_directed_unknown {c : Config} {f : Fmt} {mn : String} (h : mn ∉ c.mnemonics f)
    (rd rs1 rs2 imm : Int) (draws : List Int) :
    select c (.directed (.known f) mn rd rs1 rs2 imm) draws =
      .raises (.select (.known f) (.mnemonic mn)) draws := by
  simp only [select, rowNamed_unknown h]

/-- The mnemonic of an instruction stands at its row index. -/
theorem mnemonic_at (c : Config) (i : Instr) :
    (c.mnemonics i.fmt)[i.rowIndex]? = some (i.mnemonic c) := by
  have hl := mnemonics_length c i.fmt
  have hlt : i.rowIndex < (c.mnemonics i.fmt).length := by
    rw [hl]; cases i <;> simp [Instr.rowIndex, Instr.fmt]
  rw [Instr.mnemonic, List.getElem?_eq_getElem hlt]; rfl

/-- The directed request of an instruction selects the instruction and takes no draw. -/
theorem select_toRequest {c : Config} (h : c.structured = true) (i : Instr) (draws : List Int) :
    select c (i.toRequest c) draws = .runs i draws := by
  have key := fun rd rs1 rs2 imm => rowNamed_at h (mnemonic_at c i) rd rs1 rs2 imm
  cases i <;> exact select_directed_runs (key _ _ _ _) draws

/-! ## The draws a selection takes (R113, R231) -/

/-- The draws a selection leaves, if it is made. -/
def Selection.left : Selection → Option (List Int)
  | .waits => none
  | .raises _ l => some l
  | .runs _ l => some l

/-- The selection takes at most `n` draws, oldest first. -/
def TakesAtMost (n : Nat) (draws : List Int) (x : Selection) : Prop :=
  ∀ l, x.left = some l → ∃ taken, draws = taken ++ l ∧ taken.length ≤ n

theorem takes_none {n : Nat} {draws : List Int} {x : Selection} (h : x.left = some draws) :
    TakesAtMost n draws x := by
  intro l hl
  rw [h] at hl; cases hl
  exact ⟨[], rfl, Nat.zero_le n⟩

theorem takes_cons {n : Nat} {v : Int} {draws : List Int} {x : Selection}
    (h : TakesAtMost n draws x) : TakesAtMost (n + 1) (v :: draws) x := by
  intro l hl
  obtain ⟨taken, h1, h2⟩ := h l hl
  exact ⟨v :: taken, by rw [h1]; rfl, by simpa using h2⟩

theorem drawOperand_takes {n : Nat} {name : OperandName} {lo hi scale : Int} {draws : List Int}
    {k : Int → List Int → Selection} (h : ∀ v d, TakesAtMost n d (k v d)) :
    TakesAtMost (n + 1) draws (drawOperand name lo hi scale draws k) := by
  unfold drawOperand
  split
  · intro l hl; cases hl
  · refine takes_cons ?_
    split
    · exact h _ _
    · exact takes_none rfl

theorem drawRow_takes {n rows : Nat} {f : Fmt} {draws : List Int} {k : Nat → List Int → Selection}
    (h : ∀ r d, TakesAtMost n d (k r d)) : TakesAtMost (n + 1) draws (drawRow f rows draws k) := by
  unfold drawRow
  split
  · intro l hl; cases hl
  · refine takes_cons ?_
    split
    · exact h _ _
    · exact takes_none rfl

theorem runRow_takes {n : Nat} {f : Fmt} {k : Nat} {rd rs1 rs2 imm : Int} {draws : List Int} :
    TakesAtMost n draws (runRow f k rd rs1 rs2 imm draws) := by
  unfold runRow
  split <;> exact takes_none rfl

theorem takes_mono {n m : Nat} (hnm : n ≤ m) {draws : List Int} {x : Selection}
    (h : TakesAtMost n draws x) : TakesAtMost m draws x := by
  intro l hl
  obtain ⟨taken, h1, h2⟩ := h l hl
  exact ⟨taken, h1, h2.trans hnm⟩

/-- No selection takes more than four draws (R231). -/
theorem select_takes (c : Config) (req : Request) (draws : List Int) :
    TakesAtMost 4 draws (select c req draws) := by
  unfold select
  split
  · exact takes_none rfl
  · exact takes_none rfl
  · split <;> exact takes_none rfl
  · rename_i f
    cases f
    case R =>
      show TakesAtMost (0 + 1 + 1 + 1 + 1) draws (drawR draws)
      simp only [drawR, drawReg]
      exact drawRow_takes fun _ _ => drawOperand_takes fun _ _ => drawOperand_takes fun _ _ =>
        drawOperand_takes fun _ _ => runRow_takes
    case I =>
      show TakesAtMost (0 + 1 + 1 + 1 + 1) draws (drawI c draws)
      simp only [drawI, drawReg]
      refine drawRow_takes fun r d => drawOperand_takes fun rd d => drawOperand_takes fun rs1 d => ?_
      split
      · exact drawOperand_takes fun _ _ => runRow_takes
      · exact drawOperand_takes fun _ _ => runRow_takes
      · exact drawOperand_takes fun _ _ => runRow_takes
      · exact takes_none rfl
    case S =>
      show TakesAtMost (0 + 1 + 1 + 1 + 1) draws (drawS draws)
      simp only [drawS, drawReg]
      exact drawRow_takes fun _ _ => drawOperand_takes fun _ _ => drawOperand_takes fun _ _ =>
        drawOperand_takes fun _ _ => runRow_takes
    case B =>
      show TakesAtMost (0 + 1 + 1 + 1 + 1) draws (drawB draws)
      simp only [drawB, drawReg]
      exact drawRow_takes fun _ _ => drawOperand_takes fun _ _ => drawOperand_takes fun _ _ =>
        drawOperand_takes fun _ _ => runRow_takes
    case U =>
      show TakesAtMost (1 + 1 + 1 + 1) draws (drawU draws)
      simp only [drawU, drawReg]
      exact drawRow_takes fun _ _ => drawOperand_takes fun _ _ => drawOperand_takes fun _ _ =>
        runRow_takes
    case J =>
      show TakesAtMost (2 + 1 + 1) draws (drawJ draws)
      simp only [drawJ, drawReg]
      exact drawOperand_takes fun _ _ => drawOperand_takes fun _ _ => runRow_takes
    case SYS =>
      show TakesAtMost (3 + 1) draws (drawSys draws)
      simp only [drawSys]
      exact drawRow_takes fun _ _ => runRow_takes

/-! ## One draw -/

theorem drawOperand_in {name : OperandName} {lo hi v : Int} (h : lo ≤ v ∧ v ≤ hi) (scale : Int)
    (left : List Int) (k : Int → List Int → Selection) :
    drawOperand name lo hi scale (v :: left) k = k (scale * v) left := by
  simp [drawOperand, inRange, h.1, h.2]

theorem drawOperand_out {name : OperandName} {lo hi v : Int} (h : ¬ (lo ≤ v ∧ v ≤ hi)) (scale : Int)
    (left : List Int) (k : Int → List Int → Selection) :
    drawOperand name lo hi scale (v :: left) k = .raises (.range name (scale * v)) left := by
  have : inRange lo hi v = false := by
    rw [inRange, ← Bool.decide_and]; exact decide_eq_false h
  simp [drawOperand, this]

theorem drawReg_in {name : OperandName} {v : Int} (h : 0 ≤ v ∧ v ≤ 31) (left : List Int)
    (k : Int → List Int → Selection) : drawReg name (v :: left) k = k v left := by
  rw [drawReg, drawOperand_in h, one_mul]

theorem drawReg_out {name : OperandName} {v : Int} (h : ¬ (0 ≤ v ∧ v ≤ 31)) (left : List Int)
    (k : Int → List Int → Selection) :
    drawReg name (v :: left) k = .raises (.range name v) left := by
  rw [drawReg, drawOperand_out h, one_mul]

theorem drawRow_in {f : Fmt} {rows : Nat} {r : Int} (h : 0 ≤ r ∧ r ≤ rows - 1) (left : List Int)
    (k : Nat → List Int → Selection) : drawRow f rows (r :: left) k = k r.toNat left := by
  simp [drawRow, inRange, h.1, h.2]

theorem drawRow_out {f : Fmt} {rows : Nat} {r : Int} (h : ¬ (0 ≤ r ∧ r ≤ rows - 1)) (left : List Int)
    (k : Nat → List Int → Selection) :
    drawRow f rows (r :: left) k = .raises (.select (.known f) (.rowIndex r)) left := by
  have : inRange 0 ((rows : Int) - 1) r = false := by
    rw [inRange, ← Bool.decide_and]; exact decide_eq_false h
  simp [drawRow, this]

end Sys2Proof.Machine
end

