-- ==== Sys2Proof/Laws/Text.lean ====
section
/-! SUPPORT. The text templates with their separators joined, as the family rules write them (R145, R155 to
R157, R170, R175, R183, R187). -/

namespace Sys2Proof.Machine

theorem sep_x : " x" = " " ++ "x" := by decide
theorem sep_comma_x : ", x" = ", " ++ "x" := by decide
theorem sep_paren_x : "(x" = "(" ++ "x" := by decide

variable (mn : String) (a b c : Int)

theorem textR_joined : textR mn a b c =
    mn ++ " x" ++ toString a ++ ", x" ++ toString b ++ ", x" ++ toString c := by
  simp only [textR, xreg, sdec, sep_x, sep_comma_x, String.append_assoc]

theorem textI_joined : textI mn a b c =
    mn ++ " x" ++ toString a ++ ", x" ++ toString b ++ ", " ++ toString c := by
  simp only [textI, xreg, sdec, sep_x, sep_comma_x, String.append_assoc]

theorem textMem_joined : textMem mn a b c =
    mn ++ " x" ++ toString a ++ ", " ++ toString c ++ "(x" ++ toString b ++ ")" := by
  simp only [textMem, xreg, sdec, sep_x, sep_paren_x, String.append_assoc]

theorem textS_joined : textS mn a b c =
    mn ++ " x" ++ toString b ++ ", " ++ toString c ++ "(x" ++ toString a ++ ")" := by
  simp only [textS, xreg, sdec, sep_x, sep_paren_x, String.append_assoc]

theorem textB_joined : textB mn a b c =
    mn ++ " x" ++ toString a ++ ", x" ++ toString b ++ ", " ++ toString c := by
  simp only [textB, xreg, sdec, sep_x, sep_comma_x, String.append_assoc]

theorem textU_joined : textU mn a b = mn ++ " x" ++ toString a ++ ", " ++ toString b := by
  simp only [textU, xreg, sdec, sep_x, String.append_assoc]

end Sys2Proof.Machine
end

