-- ==== Sys2Proof/Tests/Slice0.lean ====
section
/-! SUPPORT. The model's own tests. Expected values are the vectors of `spec/95_test_vectors.md` (their ids
stand in the docstrings), the tables of `spec/30_encoding.md`, or hand calculation from the rules. The
last part shows, for every statement that has hypotheses, a concrete state and operands that meet them. -/

namespace Sys2Proof.Tests

open Sys2Proof Sys2Proof.Machine Sys2Proof.Spec

/-! ## Helpers -/

/-- The outcome is a next state of which `p` holds. -/
def nextIs (o : Host.Outcome State Fault Refusal) (p : State → Bool) : Bool :=
  match o with
  | .next t => p t
  | .fault _ => false
  | .refused _ => false

theorem next_of {o : Host.Outcome State Fault Refusal} {P : State → Prop} [DecidablePred P]
    (h : nextIs o (fun t => decide (P t)) = true) : ∃ t, o = .next t ∧ P t := by
  cases o with
  | next t => exact ⟨t, rfl, of_decide_eq_true h⟩
  | fault f => cases h
  | refused r => cases h

/-- A reset block with default tables, the given image size, inputs, draws and sink answers. -/
abbrev block (imageBytes : Nat) (inputs : List Input) (draws : List Int) (sinkOk : List Bool) : State :=
  State.resetWith (Config.withBytes imageBytes) inputs draws sinkOk

/-- A block with room for two words and a sink that takes one. -/
abbrev ready : State := block 8 [] [] [true]

abbrev decodes (w : Word) (i : Instr) : Prop := decode Config.default w = .row i

/-- From `ready`, the instruction is answered `Ok` at address 0 with these bytes. -/
abbrev answersOk (i : Instr) (w : Word) (asm : String) (bytes : List Byte) : Prop :=
  nextIs (exec i ready) (fun t => decide
    (t.response = some (.ok w asm 0) ∧ t.imgPtr = 4 ∧ t.faultCause = .none ∧
      t.image = [0, 1, 2, 3].zip bytes)) = true

/-- The step answers `r` and leaves the given cause and pointer. -/
abbrev stepAnswers (s : State) (r : Response) (cause : FaultCause) (ptr : Nat) : Prop :=
  nextIs (step s) (fun t => decide
    (t.response = some r ∧ t.faultCause = cause ∧ t.imgPtr = ptr ∧ t.inputs = s.inputs.tail)) = true

/-- A directed request as the oldest input of a reset block with room and a ready sink. -/
abbrev asked (f : Fmt) (mn : String) (rd rs1 rs2 imm : Int) : State :=
  block 8 [.request (.directed (.known f) mn rd rs1 rs2 imm)] [] [true]

/-- A random request as the oldest input, with its draws. -/
abbrev drawn (f : Fmt) (draws : List Int) : State := block 8 [.request (.random (.known f))] draws [true]

/-! ## Well-formedness: each check refuses an ill-formed instruction (R10) -/

theorem test_wf_reg_high : (Instr.add 32 0 0).wf = false := by decide
theorem test_wf_reg_negative : (Instr.add 0 (-1) 0).wf = false := by decide
theorem test_wf_imm12_high : (Instr.addi 0 0 2048).wf = false := by decide
theorem test_wf_imm12_low : (Instr.sw 0 0 (-2049)).wf = false := by decide
theorem test_wf_shamt_high : (Instr.slli 0 0 32).wf = false := by decide
theorem test_wf_shamt_negative : (Instr.srli 0 0 (-1)).wf = false := by decide
theorem test_wf_offset13_high : (Instr.beq 0 0 4096).wf = false := by decide
theorem test_wf_offset13_low : (Instr.beq 0 0 (-4098)).wf = false := by decide
theorem test_wf_offset13_odd : (Instr.beq 0 0 3).wf = false := by decide
theorem test_wf_imm20_high : (Instr.lui 0 524288).wf = false := by decide
theorem test_wf_imm20_low : (Instr.auipc 0 (-524289)).wf = false := by decide
theorem test_wf_offset21_high : (Instr.jal 0 1048576).wf = false := by decide
theorem test_wf_offset21_low : (Instr.jal 0 (-1048578)).wf = false := by decide
theorem test_wf_offset21_odd : (Instr.jal 0 1).wf = false := by decide
/-- L2-F-21 and L2-F-22: the earlier operand is named (R112). -/
theorem test_firstIllegal_order : (Instr.beq 40 2 3).firstIllegal = some (.rs1, 40) ∧
    (Instr.lui 40 524288).firstIllegal = some (.rd, 40) := by decide
theorem test_wf_boundaries : (Instr.add 0 31 31).wf ∧ (Instr.addi 0 0 (-2048)).wf ∧
    (Instr.lb 0 0 2047).wf ∧ (Instr.beq 0 0 (-4096)).wf ∧ (Instr.beq 0 0 4094).wf ∧
    (Instr.lui 0 (-524288)).wf ∧ (Instr.jal 0 1048574).wf := by decide

/-! ## Match and mask (R89, R90) -/

theorem test_patterns_R : ((catalogRows.filter (·.fmt == .R)).map (Instr.pattern Config.default)) = [
    some ⟨0x00000033#32, 0xFE00707F#32⟩,
    some ⟨0x40000033#32, 0xFE00707F#32⟩,
    some ⟨0x00007033#32, 0xFE00707F#32⟩,
    some ⟨0x00006033#32, 0xFE00707F#32⟩,
    some ⟨0x00004033#32, 0xFE00707F#32⟩,
    some ⟨0x00001033#32, 0xFE00707F#32⟩,
    some ⟨0x00005033#32, 0xFE00707F#32⟩,
    some ⟨0x40005033#32, 0xFE00707F#32⟩] := by decide

theorem test_patterns_I : ((catalogRows.filter (·.fmt == .I)).map (Instr.pattern Config.default)) = [
    some ⟨0x00000013#32, 0x0000707F#32⟩,
    some ⟨0x00007013#32, 0x0000707F#32⟩,
    some ⟨0x00006013#32, 0x0000707F#32⟩,
    some ⟨0x00004013#32, 0x0000707F#32⟩,
    some ⟨0x00001013#32, 0xFE00707F#32⟩,
    some ⟨0x00005013#32, 0xFE00707F#32⟩,
    some ⟨0x00000067#32, 0x0000707F#32⟩,
    some ⟨0x00000003#32, 0x0000707F#32⟩,
    some ⟨0x00001003#32, 0x0000707F#32⟩,
    some ⟨0x00002003#32, 0x0000707F#32⟩,
    some ⟨0x00004003#32, 0x0000707F#32⟩,
    some ⟨0x00005003#32, 0x0000707F#32⟩] := by decide

theorem test_patterns_S : ((catalogRows.filter (·.fmt == .S)).map (Instr.pattern Config.default)) = [
    some ⟨0x00000023#32, 0x0000707F#32⟩,
    some ⟨0x00001023#32, 0x0000707F#32⟩,
    some ⟨0x00002023#32, 0x0000707F#32⟩] := by decide

theorem test_patterns_B : ((catalogRows.filter (·.fmt == .B)).map (Instr.pattern Config.default)) = [
    some ⟨0x00000063#32, 0x0000707F#32⟩,
    some ⟨0x00001063#32, 0x0000707F#32⟩,
    some ⟨0x00004063#32, 0x0000707F#32⟩,
    some ⟨0x00005063#32, 0x0000707F#32⟩,
    some ⟨0x00006063#32, 0x0000707F#32⟩,
    some ⟨0x00007063#32, 0x0000707F#32⟩] := by decide

theorem test_patterns_U : ((catalogRows.filter (·.fmt == .U)).map (Instr.pattern Config.default)) = [
    some ⟨0x00000037#32, 0x0000007F#32⟩,
    some ⟨0x00000017#32, 0x0000007F#32⟩] := by decide

theorem test_patterns_J : ((catalogRows.filter (·.fmt == .J)).map (Instr.pattern Config.default)) = [
    some ⟨0x0000006F#32, 0x0000007F#32⟩] := by decide

theorem test_patterns_SYS : ((catalogRows.filter (·.fmt == .SYS)).map (Instr.pattern Config.default)) = [
    some ⟨0x00000073#32, 0xFFFFFFFF#32⟩,
    some ⟨0x00100073#32, 0xFFFFFFFF#32⟩,
    some ⟨0x0FF0000F#32, 0xFFFFFFFF#32⟩,
    some ⟨0x8330000F#32, 0xFFFFFFFF#32⟩,
    some ⟨0x0100000F#32, 0xFFFFFFFF#32⟩] := by decide

/-! ## Decoding, one word written out per row -/

/-- L2-R-1. -/
theorem test_decode_add : decodes
    (0b0000000#7 ++ 0b00011#5 ++ 0b00010#5 ++ 0b000#3 ++ 0b00001#5 ++ 0b0110011#7)
    (.add 1 2 3) := by decide

/-- L2-R-4. -/
theorem test_decode_sub : decodes
    (0b0100000#7 ++ 0b00011#5 ++ 0b00010#5 ++ 0b000#3 ++ 0b00100#5 ++ 0b0110011#7)
    (.sub 4 2 3) := by decide

/-- L2-R-6. -/
theorem test_decode_and : decodes
    (0b0000000#7 ++ 0b00111#5 ++ 0b00110#5 ++ 0b111#3 ++ 0b00101#5 ++ 0b0110011#7)
    (.and 5 6 7) := by decide

/-- L2-R-7. -/
theorem test_decode_or : decodes
    (0b0000000#7 ++ 0b01010#5 ++ 0b01001#5 ++ 0b110#3 ++ 0b01000#5 ++ 0b0110011#7)
    (.or 8 9 10) := by decide

/-- By hand from R67 and row `R[4]` of R89. -/
theorem test_decode_xor : decodes
    (0b0000000#7 ++ 0b00011#5 ++ 0b00010#5 ++ 0b100#3 ++ 0b00001#5 ++ 0b0110011#7)
    (.xor 1 2 3) := by decide

/-- L2-R-9. -/
theorem test_decode_sll : decodes
    (0b0000000#7 ++ 0b00010#5 ++ 0b00000#5 ++ 0b001#3 ++ 0b00001#5 ++ 0b0110011#7)
    (.sll 1 0 2) := by decide

/-- L2-R-10. -/
theorem test_decode_srl : decodes
    (0b0000000#7 ++ 0b00101#5 ++ 0b00100#5 ++ 0b101#3 ++ 0b00011#5 ++ 0b0110011#7)
    (.srl 3 4 5) := by decide

/-- L2-R-11. -/
theorem test_decode_sra : decodes
    (0b0100000#7 ++ 0b00010#5 ++ 0b00001#5 ++ 0b101#3 ++ 0b00000#5 ++ 0b0110011#7)
    (.sra 0 1 2) := by decide

/-- L2-IA-4. -/
theorem test_decode_addi : decodes
    (0b011111111111#12 ++ 0b00010#5 ++ 0b000#3 ++ 0b00001#5 ++ 0b0010011#7)
    (.addi 1 2 2047) := by decide

/-- L2-IA-6. -/
theorem test_decode_andi : decodes
    (0b111111111111#12 ++ 0b00101#5 ++ 0b111#3 ++ 0b00101#5 ++ 0b0010011#7)
    (.andi 5 5 (-1)) := by decide

/-- L2-IA-7. -/
theorem test_decode_ori : decodes
    (0b011111111111#12 ++ 0b00111#5 ++ 0b110#3 ++ 0b00110#5 ++ 0b0010011#7)
    (.ori 6 7 2047) := by decide

/-- L2-IA-8. -/
theorem test_decode_xori : decodes
    (0b100000000000#12 ++ 0b01001#5 ++ 0b100#3 ++ 0b01000#5 ++ 0b0010011#7)
    (.xori 8 9 (-2048)) := by decide

/-- L2-IA-10. -/
theorem test_decode_slli : decodes
    (0b0000000#7 ++ 0b11111#5 ++ 0b00010#5 ++ 0b001#3 ++ 0b00001#5 ++ 0b0010011#7)
    (.slli 1 2 31) := by decide

/-- L2-IA-14. -/
theorem test_decode_srli : decodes
    (0b0000000#7 ++ 0b10000#5 ++ 0b00110#5 ++ 0b101#3 ++ 0b00101#5 ++ 0b0010011#7)
    (.srli 5 6 16) := by decide

/-- L2-IM-3. -/
theorem test_decode_jalr : decodes
    (0b111111111111#12 ++ 0b00010#5 ++ 0b000#3 ++ 0b00001#5 ++ 0b1100111#7)
    (.jalr 1 2 (-1)) := by decide

/-- L2-IM-5. -/
theorem test_decode_lb : decodes
    (0b111111111111#12 ++ 0b00010#5 ++ 0b000#3 ++ 0b00111#5 ++ 0b0000011#7)
    (.lb 7 2 (-1)) := by decide

/-- L2-IM-7. -/
theorem test_decode_lh : decodes
    (0b000000000010#12 ++ 0b00011#5 ++ 0b001#3 ++ 0b01000#5 ++ 0b0000011#7)
    (.lh 8 3 2) := by decide

/-- L2-IM-8. -/
theorem test_decode_lw : decodes
    (0b100000000000#12 ++ 0b01010#5 ++ 0b010#3 ++ 0b01001#5 ++ 0b0000011#7)
    (.lw 9 10 (-2048)) := by decide

/-- L2-IM-10. -/
theorem test_decode_lbu : decodes
    (0b011111111111#12 ++ 0b01100#5 ++ 0b100#3 ++ 0b01011#5 ++ 0b0000011#7)
    (.lbu 11 12 2047) := by decide

/-- L2-IM-13. -/
theorem test_decode_lhu : decodes
    (0b111111111110#12 ++ 0b00010#5 ++ 0b101#3 ++ 0b00001#5 ++ 0b0000011#7)
    (.lhu 1 2 (-2)) := by decide

/-- L2-S-1. -/
theorem test_decode_sb : decodes
    (0b0000000#7 ++ 0b00101#5 ++ 0b00010#5 ++ 0b000#3 ++ 0b00000#5 ++ 0b0100011#7)
    (.sb 2 5 0) := by decide

/-- L2-S-3. -/
theorem test_decode_sh : decodes
    (0b1111111#7 ++ 0b00110#5 ++ 0b00111#5 ++ 0b001#3 ++ 0b11110#5 ++ 0b0100011#7)
    (.sh 7 6 (-2)) := by decide

/-- L2-S-6. -/
theorem test_decode_sw : decodes
    (0b0111111#7 ++ 0b01000#5 ++ 0b01001#5 ++ 0b010#3 ++ 0b11111#5 ++ 0b0100011#7)
    (.sw 9 8 2047) := by decide

/-- L2-B-1. -/
theorem test_decode_beq : decodes
    (0b1#1 ++ 0b000000#6 ++ 0b00010#5 ++ 0b00001#5 ++ 0b000#3 ++ 0b0000#4 ++ 0b0#1 ++ 0b1100011#7)
    (.beq 1 2 (-4096)) := by decide

/-- L2-B-3. -/
theorem test_decode_bne : decodes
    (0b0#1 ++ 0b111111#6 ++ 0b00100#5 ++ 0b00011#5 ++ 0b001#3 ++ 0b1111#4 ++ 0b1#1 ++ 0b1100011#7)
    (.bne 3 4 4094) := by decide

/-- L2-B-4. -/
theorem test_decode_blt : decodes
    (0b0#1 ++ 0b000000#6 ++ 0b00110#5 ++ 0b00101#5 ++ 0b100#3 ++ 0b0100#4 ++ 0b0#1 ++ 0b1100011#7)
    (.blt 5 6 8) := by decide

/-- L2-B-5. -/
theorem test_decode_bge : decodes
    (0b1#1 ++ 0b111111#6 ++ 0b01000#5 ++ 0b00111#5 ++ 0b101#3 ++ 0b1111#4 ++ 0b1#1 ++ 0b1100011#7)
    (.bge 7 8 (-2)) := by decide

/-- L2-B-12. -/
theorem test_decode_bltu : decodes
    (0b1#1 ++ 0b000000#6 ++ 0b00010#5 ++ 0b00001#5 ++ 0b110#3 ++ 0b0000#4 ++ 0b1#1 ++ 0b1100011#7)
    (.bltu 1 2 (-2048)) := by decide

/-- L2-B-7. -/
theorem test_decode_bgeu : decodes
    (0b0#1 ++ 0b000000#6 ++ 0b01100#5 ++ 0b01011#5 ++ 0b111#3 ++ 0b0000#4 ++ 0b1#1 ++ 0b1100011#7)
    (.bgeu 11 12 2048) := by decide

/-- L2-U-1. -/
theorem test_decode_lui : decodes
    (0b11111111111111111111#20 ++ 0b00001#5 ++ 0b0110111#7)
    (.lui 1 (-1)) := by decide

/-- L2-U-6. -/
theorem test_decode_auipc : decodes
    (0b01111111111111111111#20 ++ 0b00010#5 ++ 0b0010111#7)
    (.auipc 2 524287) := by decide

/-- L2-J-1. -/
theorem test_decode_jal : decodes
    (0b1#1 ++ 0b0000000000#10 ++ 0b0#1 ++ 0b00000000#8 ++ 0b00001#5 ++ 0b1101111#7)
    (.jal 1 (-1048576)) := by decide

/-- L2-SYS-1. -/
theorem test_decode_ecall : decodes
    (0b00000000000000000000000001110011#32)
    .ecall := by decide

/-- L2-SYS-2. -/
theorem test_decode_ebreak : decodes
    (0b00000000000100000000000001110011#32)
    .ebreak := by decide

/-- L2-SYS-3. -/
theorem test_decode_fence : decodes
    (0b00001111111100000000000000001111#32)
    .fence := by decide

/-- L2-SYS-4. -/
theorem test_decode_fenceTso : decodes
    (0b10000011001100000000000000001111#32)
    .fenceTso := by decide

/-- L2-SYS-5. -/
theorem test_decode_pause : decodes
    (0b00000001000000000000000000001111#32)
    .pause := by decide

/-! ## Words outside the catalog (R92, R93) -/

def notInCatalog (w : Word) : Bool := decode Config.default w == .notInCatalog

/-- L2-DEC-14 to L2-DEC-17 and L2-DEC-26. -/
theorem test_notInCatalog_arithmetic : [0x00002033#32, 0x00002013#32, 0x40005013#32,
    0x02005013#32, 0x02000033#32].all notInCatalog = true := by decide

/-- L2-DEC-18 to L2-DEC-21. -/
theorem test_notInCatalog_memory : [0x00001067#32, 0x00003003#32, 0x00003023#32,
    0x00002063#32].all notInCatalog = true := by decide

/-- L2-DEC-22 to L2-DEC-25. -/
theorem test_notInCatalog_system : [0x0000100F#32, 0x10500073#32, 0x00000000#32,
    0xFFFFFFFF#32].all notInCatalog = true := by decide

/-- L1-5: bytes in image order are the word, byte0 lowest. -/
theorem test_decodeBytes : decodeBytes Config.default [0xB3#8, 0x00#8, 0x31#8, 0x00#8] =
    .row (.add 1 2 3) ∧ decodeBytes Config.default [0xB3#8, 0x00#8, 0x31#8] = .shortOfAWord := by decide

theorem test_decodeTableWord : decodeTableWord 32 0xFE639F23 = some (.sh 7 6 (-2)) ∧
    decodeTableWord 32 0 = none := by decide

/-! ## One answered request per row -/

/-- L2-R-3. -/
theorem test_exec_add : answersOk (.add 31 31 31)
    0x01FF8FB3#32 "add x31, x31, x31" [0xB3, 0x8F, 0xFF, 0x01] := by decide

/-- L2-R-5. -/
theorem test_exec_sub : answersOk (.sub 1 1 1)
    0x401080B3#32 "sub x1, x1, x1" [0xB3, 0x80, 0x10, 0x40] := by decide

/-- L2-R-6. -/
theorem test_exec_and : answersOk (.and 5 6 7)
    0x007372B3#32 "and x5, x6, x7" [0xB3, 0x72, 0x73, 0x00] := by decide

/-- L2-R-7. -/
theorem test_exec_or : answersOk (.or 8 9 10)
    0x00A4E433#32 "or x8, x9, x10" [0x33, 0xE4, 0xA4, 0x00] := by decide

/-- L2-R-8. -/
theorem test_exec_xor : answersOk (.xor 31 31 31)
    0x01FFCFB3#32 "xor x31, x31, x31" [0xB3, 0xCF, 0xFF, 0x01] := by decide

/-- L2-R-9. -/
theorem test_exec_sll : answersOk (.sll 1 0 2)
    0x002010B3#32 "sll x1, x0, x2" [0xB3, 0x10, 0x20, 0x00] := by decide

/-- L2-R-10. -/
theorem test_exec_srl : answersOk (.srl 3 4 5)
    0x005251B3#32 "srl x3, x4, x5" [0xB3, 0x51, 0x52, 0x00] := by decide

/-- L2-R-12. -/
theorem test_exec_sra : answersOk (.sra 31 31 31)
    0x41FFDFB3#32 "sra x31, x31, x31" [0xB3, 0xDF, 0xFF, 0x41] := by decide

/-- L2-IA-5. -/
theorem test_exec_addi : answersOk (.addi 1 2 (-2048))
    0x80010093#32 "addi x1, x2, -2048" [0x93, 0x00, 0x01, 0x80] := by decide

/-- L2-IA-6. -/
theorem test_exec_andi : answersOk (.andi 5 5 (-1))
    0xFFF2F293#32 "andi x5, x5, -1" [0x93, 0xF2, 0xF2, 0xFF] := by decide

/-- L2-IA-7. -/
theorem test_exec_ori : answersOk (.ori 6 7 2047)
    0x7FF3E313#32 "ori x6, x7, 2047" [0x13, 0xE3, 0xF3, 0x7F] := by decide

/-- L2-IA-9. -/
theorem test_exec_xori : answersOk (.xori 1 1 (-1))
    0xFFF0C093#32 "xori x1, x1, -1" [0x93, 0xC0, 0xF0, 0xFF] := by decide

/-- L2-IA-11. -/
theorem test_exec_slli : answersOk (.slli 1 1 0)
    0x00009093#32 "slli x1, x1, 0" [0x93, 0x90, 0x00, 0x00] := by decide

/-- L2-IA-12. -/
theorem test_exec_srli : answersOk (.srli 3 4 0)
    0x00025193#32 "srli x3, x4, 0" [0x93, 0x51, 0x02, 0x00] := by decide

/-- L2-IM-1. -/
theorem test_exec_jalr : answersOk (.jalr 1 5 0)
    0x000280E7#32 "jalr x1, 0(x5)" [0xE7, 0x80, 0x02, 0x00] := by decide

/-- L2-IM-6. -/
theorem test_exec_lb : answersOk (.lb 1 2 0)
    0x00010083#32 "lb x1, 0(x2)" [0x83, 0x00, 0x01, 0x00] := by decide

/-- L2-IM-7. -/
theorem test_exec_lh : answersOk (.lh 8 3 2)
    0x00219403#32 "lh x8, 2(x3)" [0x03, 0x94, 0x21, 0x00] := by decide

/-- L2-IM-9. -/
theorem test_exec_lw : answersOk (.lw 1 2 0)
    0x00012083#32 "lw x1, 0(x2)" [0x83, 0x20, 0x01, 0x00] := by decide

/-- L2-IM-11. -/
theorem test_exec_lbu : answersOk (.lbu 1 2 0)
    0x00014083#32 "lbu x1, 0(x2)" [0x83, 0x40, 0x01, 0x00] := by decide

/-- L2-IM-12. -/
theorem test_exec_lhu : answersOk (.lhu 13 0 4)
    0x00405683#32 "lhu x13, 4(x0)" [0x83, 0x56, 0x40, 0x00] := by decide

/-- L2-S-2. -/
theorem test_exec_sb : answersOk (.sb 0 0 (-1))
    0xFE000FA3#32 "sb x0, -1(x0)" [0xA3, 0x0F, 0x00, 0xFE] := by decide

/-- L2-S-4. -/
theorem test_exec_sh : answersOk (.sh 1 2 31)
    0x00209FA3#32 "sh x2, 31(x1)" [0xA3, 0x9F, 0x20, 0x00] := by decide

/-- L2-S-7. -/
theorem test_exec_sw : answersOk (.sw 1 2 (-2048))
    0x8020A023#32 "sw x2, -2048(x1)" [0x23, 0xA0, 0x20, 0x80] := by decide

/-- L2-B-8. -/
theorem test_exec_beq : answersOk (.beq 1 1 2)
    0x00108163#32 "beq x1, x1, 2" [0x63, 0x81, 0x10, 0x00] := by decide

/-- L2-B-9. -/
theorem test_exec_bne : answersOk (.bne 1 0 (-4))
    0xFE009EE3#32 "bne x1, x0, -4" [0xE3, 0x9E, 0x00, 0xFE] := by decide

/-- L2-B-10. -/
theorem test_exec_blt : answersOk (.blt 31 31 30)
    0x01FFCF63#32 "blt x31, x31, 30" [0x63, 0xCF, 0xFF, 0x01] := by decide

/-- L2-B-11. -/
theorem test_exec_bge : answersOk (.bge 1 2 32)
    0x0220D063#32 "bge x1, x2, 32" [0x63, 0xD0, 0x20, 0x02] := by decide

/-- L2-B-6. -/
theorem test_exec_bltu : answersOk (.bltu 9 10 0)
    0x00A4E063#32 "bltu x9, x10, 0" [0x63, 0xE0, 0xA4, 0x00] := by decide

/-- L2-B-13. -/
theorem test_exec_bgeu : answersOk (.bgeu 1 2 2046)
    0x7E20FF63#32 "bgeu x1, x2, 2046" [0x63, 0xFF, 0x20, 0x7E] := by decide

/-- L2-U-3. -/
theorem test_exec_lui : answersOk (.lui 5 1)
    0x000012B7#32 "lui x5, 1" [0xB7, 0x12, 0x00, 0x00] := by decide

/-- L2-U-7. -/
theorem test_exec_auipc : answersOk (.auipc 2 (-1))
    0xFFFFF117#32 "auipc x2, -1" [0x17, 0xF1, 0xFF, 0xFF] := by decide

/-- L2-J-3. -/
theorem test_exec_jal : answersOk (.jal 1 2048)
    0x001000EF#32 "jal x1, 2048" [0xEF, 0x00, 0x10, 0x00] := by decide

/-- L2-SYS-1. -/
theorem test_exec_ecall : answersOk .ecall
    0x00000073#32 "ecall" [0x73, 0x00, 0x00, 0x00] := by decide

/-- L2-SYS-2. -/
theorem test_exec_ebreak : answersOk .ebreak
    0x00100073#32 "ebreak" [0x73, 0x00, 0x10, 0x00] := by decide

/-- L2-SYS-3. -/
theorem test_exec_fence : answersOk .fence
    0x0FF0000F#32 "fence" [0x0F, 0x00, 0xF0, 0x0F] := by decide

/-- L2-SYS-4. -/
theorem test_exec_fenceTso : answersOk .fenceTso
    0x8330000F#32 "fence.tso" [0x0F, 0x00, 0x30, 0x83] := by decide

/-- L2-SYS-5. -/
theorem test_exec_pause : answersOk .pause
    0x0100000F#32 "pause" [0x0F, 0x00, 0x00, 0x01] := by decide

/-! ## The Field Codec -/

/-- L2-C-1 to L2-C-9. -/
theorem test_packField_patterns :
    packField (-1) 12 .signed = .ok ⟨12, 0b111111111111#12⟩ ∧
    packField 0 12 .signed = .ok ⟨12, 0b000000000000#12⟩ ∧
    packField (-1) 13 .signed = .ok ⟨13, 0x1FFF#13⟩ ∧ packField (-1) 20 .signed = .ok ⟨20, 0xFFFFF#20⟩ ∧
    packField (-1) 21 .signed = .ok ⟨21, 0x1FFFFF#21⟩ ∧
    packField 2047 12 .signed = .ok ⟨12, 0b011111111111#12⟩ ∧
    packField (-2048) 12 .signed = .ok ⟨12, 0b100000000000#12⟩ ∧
    packField 0 5 .unsigned = .ok ⟨5, 0b00000#5⟩ ∧ packField 31 5 .unsigned = .ok ⟨5, 0b11111#5⟩ :=
  ⟨rfl, rfl, rfl, rfl, rfl, rfl, rfl, rfl, rfl⟩

/-- L2-C-10 to L2-C-14. -/
theorem test_packField_raises :
    packField 2048 12 .signed = .error (.packMisfit 2048 12 .signed) ∧
    packField (-2049) 12 .signed = .error (.packMisfit (-2049) 12 .signed) ∧
    packField 32 5 .unsigned = .error (.packMisfit 32 5 .unsigned) ∧
    packField (-1) 5 .unsigned = .error (.packMisfit (-1) 5 .unsigned) ∧
    packField 0 0 .unsigned = .error (.packWidth 0) := ⟨rfl, rfl, rfl, rfl, rfl⟩

/-- L2-C-15 to L2-C-21. -/
theorem test_extractBits :
    extractBits ⟨4, 0b1011#4⟩ 3 1 = .ok 5 ∧
    extractBits ⟨13, trunc 13 (-4096)⟩ 12 12 = .ok 1 ∧
    extractBits ⟨13, trunc 13 (-4096)⟩ 11 11 = .ok 0 ∧
    extractBits ⟨13, trunc 13 2048⟩ 11 11 = .ok 1 ∧
    extractBits ⟨12, trunc 12 (-2)⟩ 11 5 = .ok 127 ∧ extractBits ⟨12, trunc 12 (-2)⟩ 4 0 = .ok 30 ∧
    extractBits ⟨4, 0b1011#4⟩ 2 3 = .error (.extractRange 2 3) ∧
    extractBits ⟨12, 0#12⟩ 12 0 = .error (.extractRange 12 0) := ⟨rfl, rfl, rfl, rfl, rfl, rfl, rfl, rfl⟩

/-- L2-C-22 and L2-C-23. -/
theorem test_concatWord :
    concatWord [⟨7, 0#7⟩, ⟨5, 0b00011#5⟩, ⟨5, 0b00010#5⟩, ⟨3, 0#3⟩, ⟨5, 0b00001#5⟩, ⟨7, 0b0110011#7⟩] =
      .ok 0x003100B3#32 ∧
    concatWord [⟨7, 0#7⟩, ⟨5, 0#5⟩, ⟨5, 0#5⟩, ⟨3, 0#3⟩, ⟨5, 0#5⟩, ⟨6, 0#6⟩] = .error (.concatWidth 31) :=
  ⟨rfl, rfl⟩

/-- L2-C-24 to L2-C-26. -/
theorem test_serialize_and_sext :
    serialize 0x8330000F#32 = [0x0F#8, 0x00#8, 0x30#8, 0x83#8] ∧
    sext 0xFFF#12 = -1 ∧ sext 0x7FF#12 = 2047 ∧ sext 0x800#12 = -2048 ∧ sext 0x1FFE#13 = -2 ∧
    sext 0x100000#21 = -1048576 := by decide

/-! ## Faults, the halted block and reset -/

/-- L2-F-1. -/
theorem test_fault_rd : stepAnswers (asked .R "add" 32 0 0 0) (.fault .range (.range .rd 32)) .range 0 := by
  decide
/-- L2-F-4. -/
theorem test_fault_imm : stepAnswers (asked .I "addi" 1 2 0 2048)
    (.fault .range (.range .imm 2048)) .range 0 := by decide
/-- L2-F-9. -/
theorem test_fault_odd : stepAnswers (asked .B "beq" 0 1 2 3) (.fault .range (.range .imm 3)) .range 0 := by
  decide
/-- L2-F-13. -/
theorem test_fault_unsigned_imm20 : stepAnswers (asked .U "auipc" 1 0 0 1048575)
    (.fault .range (.range .imm 1048575)) .range 0 := by decide
/-- L2-F-17. -/
theorem test_fault_case : stepAnswers (asked .I "ADDI" 1 2 0 3)
    (.fault .select (.select (.known .I) (.mnemonic "ADDI"))) .select 0 := by decide
/-- L2-F-18. -/
theorem test_fault_tag : stepAnswers
    (block 8 [.request (.directed (.other "mixed") "add" 1 2 3 0)] [] [true])
    (.fault .select (.select (.other "mixed") .none)) .select 0 := by decide
/-- L2-F-20. -/
theorem test_fault_select_first : stepAnswers (asked .R "addi" 99 0 0 0)
    (.fault .select (.select (.known .R) (.mnemonic "addi"))) .select 0 := by decide
/-- L2-F-24. -/
theorem test_unused_operand : stepAnswers (asked .S "sb" 77 2 5 0)
    (.ok 0x00510023#32 "sb x5, 0(x2)" 0) .none 4 := by decide
/-- L2-F-26, second request. -/
theorem test_fault_capacity : stepAnswers
    { block 4 [.request (.directed (.known .SYS) "ebreak" 0 0 0 0)] [] [true] with
      imgPtr := 4, image := [(0, 0x73#8), (1, 0#8), (2, 0#8), (3, 0#8)] }
    (.fault .io (.io 4)) .io 4 := by decide
/-- L2-F-27. -/
theorem test_fault_sink : stepAnswers
    (block 8 [.request (.directed (.known .R) "add" 1 2 3 0)] [] [false]) (.fault .io (.io 0)) .io 0 := by
  decide
/-- L2-F-29. -/
theorem test_halted_no_draw : nextIs (step { drawn .SYS [3] with faultCause := .range })
    (fun t => decide (t.response = some (.halted .range) ∧ t.draws = [3] ∧ t.image = [])) = true := by
  decide
/-- P6, step 4. -/
theorem test_reset : nextIs (step
    { block 8 [.reset] [] [] with faultCause := .range, imgPtr := 4, image := [(0, 0x93#8)] })
    (fun t => decide (t.response = none ∧ t.faultCause = .none ∧ t.imgPtr = 0 ∧ t.image = [])) = true := by
  decide
/-- P4, third request: an image at base 256. -/
theorem test_base : stepAnswers
    { State.resetWith { Config.withBytes 64 with imageBase := 256 }
        [.request (.directed (.known .S) "sb" 0 0 2 256)] [] [true] with imgPtr := 264 }
    (.ok 0x10200023#32 "sb x2, 256(x0)" 264) .none 268 := by decide
/-- R202: `sh` with a funct3 of 8, too wide for its field, raises `F_CODEC` when it is packed. -/
theorem test_fault_codec : nextIs (step { State.resetWith
      { Config.withBytes 8 with catalog := { Catalog.default with
          s := #v[⟨"sb", 0b0100011, 0⟩, ⟨"sh", 0b0100011, 8⟩, ⟨"sw", 0b0100011, 2⟩] } }
      [.request (.directed (.known .S) "sh" 0 1 2 4)] [] [true] with imgPtr := 4 })
    (fun t => decide (t.response = some (.fault .codec (.codec (.packMisfit 8 3 .unsigned))) ∧
      t.faultCause = .codec ∧ t.imgPtr = 4 ∧ t.image = [])) = true := by decide
/-- The request's answer is an `F_CODEC` for `value` in `width` bits, under this catalog. -/
abbrev raisesCodec (catalog : Catalog) (f : Fmt) (mn : String) (value : Int) (width : Nat) : Prop :=
  stepAnswers (State.resetWith { Config.withBytes 8 with catalog := catalog }
      [.request (.directed (.known f) mn 1 1 1 0)] [] [true])
    (.fault .codec (.codec (.packMisfit value width .unsigned))) .codec 0
/-- R37, U16: a too-wide opcode of one store row alone is no reason to refuse the configuration. -/
theorem test_fault_codec_opcode : raisesCodec { Catalog.default with
    s := #v[⟨"sb", 200, 0⟩, ⟨"sh", 0b0100011, 1⟩, ⟨"sw", 0b0100011, 2⟩] } .S "sb" 200 7 := by decide
/-- R37, U16: nor is a too-wide `funct7` of `sub` alone. -/
theorem test_fault_codec_funct7 : raisesCodec
    { Catalog.default with r := Catalog.default.r.set 1 ⟨"sub", 0b0110011, 0, 128⟩ }
    .R "sub" 128 7 := by decide
/-- R37, U16: nor is a too-wide code of a row whose numbers R85 (i) fixes. -/
theorem test_fault_codec_fixed : raisesCodec
    { Catalog.default with i := Catalog.default.i.set 0 ⟨"addi", 0b0010011, 8, .arith⟩ }
    .I "addi" 8 3 := by decide
/-- R85 (d), U16: a store opcode that fits and is not the format's one opcode is refused. -/
theorem test_refused_opcode : step (State.resetWith { Config.default with catalog :=
    { Catalog.default with s := #v[⟨"sb", 0b0101011, 0⟩, ⟨"sh", 0b0100011, 1⟩, ⟨"sw", 0b0100011, 2⟩] } }
    [] [] []) = .refused .configNotAdmitted := rfl
/-- L1-5: the consumer reads the word back; R53: the next byte holds no value. -/
theorem test_read_back : nextIs (exec (.add 1 2 3) ready) (fun t =>
    (match t.readWord 0 with | .ok w => w == 0x003100B3#32 | .error _ => false) &&
    (match t.readImage 4 with | .ok _ => false | .error e => e == .imageByteUnwritten 4) &&
    (match t.readImage 8 with | .ok _ => false | .error e => e == .addressOutsideImage 8)) = true := by
  decide

/-! ## Random requests -/

/-- L2-RND-1. -/
theorem test_random_B : stepAnswers (drawn .B [0, 1, 2, -2048])
    (.ok 0x80208063#32 "beq x1, x2, -4096" 0) .none 4 := by decide
/-- L2-RND-4. -/
theorem test_random_U : stepAnswers (drawn .U [1, 2, 524287])
    (.ok 0x7FFFF117#32 "auipc x2, 524287" 0) .none 4 := by decide
/-- L2-RND-6. -/
theorem test_random_J : stepAnswers (drawn .J [0, 4]) (.ok 0x0080006F#32 "jal x0, 8" 0) .none 4 := by
  decide
/-- L2-RND-7. -/
theorem test_random_shift : stepAnswers (drawn .I [4, 1, 2, 31])
    (.ok 0x01F11093#32 "slli x1, x2, 31" 0) .none 4 := by decide
/-- L2-RND-8. -/
theorem test_random_load : stepAnswers (drawn .I [7, 7, 2, -1])
    (.ok 0xFFF10383#32 "lb x7, -1(x2)" 0) .none 4 := by decide
/-- L2-RND-9. -/
theorem test_random_S : stepAnswers (drawn .S [1, 7, 6, -2])
    (.ok 0xFE639F23#32 "sh x6, -2(x7)" 0) .none 4 := by decide
/-- L2-RND-10. -/
theorem test_random_R : stepAnswers (drawn .R [7, 0, 1, 2])
    (.ok 0x4020D033#32 "sra x0, x1, x2" 0) .none 4 := by decide
/-- L2-RND-11. -/
theorem test_random_SYS : stepAnswers (drawn .SYS [3]) (.ok 0x8330000F#32 "fence.tso" 0) .none 4 := by
  decide
/-- L2-RND-12: no further draw. -/
theorem test_random_row_out : nextIs (step (drawn .R [8, 1, 2, 3]))
    (fun t => decide (t.faultCause = .select ∧ t.draws = [1, 2, 3])) = true := by decide
/-- L2-RND-13. -/
theorem test_random_shamt_out : stepAnswers (drawn .I [4, 1, 2, 32])
    (.fault .range (.range .imm 32)) .range 0 := by decide

/-! ## The host's way to present a word -/

/-- L1-1 through `withFetchWord`. -/
theorem test_withFetchWord : nextIs (step (State.reset.withFetchWord 32 0x003100B3)) (fun t => decide
    (t.response = some (.ok 0x003100B3#32 "add x1, x2, x3" 0) ∧ t.inputs = [])) = true := by decide

/-! ## Witnesses: states and operands that meet the hypotheses of the statements -/

theorem structured_default : Config.default.structured = true := by decide

theorem structured_bytes (n : Nat) : (Config.withBytes n).structured = true := structured_default

/-- A configuration whose `sh` row does not fit its field; it is structured. -/
abbrev misfit : Config :=
  { Config.withBytes 8 with catalog := { Catalog.default with
      s := #v[⟨"sb", 0b0100011, 0⟩, ⟨"sh", 0b0100011, 8⟩, ⟨"sw", 0b0100011, 2⟩] } }

/-- A configuration with another opcode for `lui`; it is admitted. -/
abbrev otherLui : Config :=
  { Config.withBytes 8 with catalog := { Catalog.default with
      u := #v[⟨"lui", 0b0101011⟩, ⟨"auipc", 0b0010111⟩] } }

theorem structured_misfit : misfit.structured = true := by decide

/-- The default tables with values of four rows too wide: an opcode, a `funct7`, a `funct3`, a literal. -/
abbrev misfitMany : Config :=
  { Config.withBytes 8 with
    catalog := { Catalog.default with
      r := Catalog.default.r.set 1 ⟨"sub", 0b0110011, 0, 128⟩
      i := Catalog.default.i.set 0 ⟨"addi", 0b0010011, 8, .arith⟩
      s := Catalog.default.s.set 0 ⟨"sb", 200, 0⟩ }
    sysLiterals := Config.defaultSysLiterals.set 0 ⟨"ecall", -1⟩ }

theorem admitted_otherLui : otherLui.admitted = true := by decide

/-- A block that has emitted `add x1, x2, x3`, with one more request waiting. -/
abbrev oneWord : State :=
  { block 8 [.request (.directed (.known .SYS) "pause" 0 0 0 0)] [] [true] with
    imgPtr := 4, image := [(0, 0xB3#8), (1, 0x00#8), (2, 0x31#8), (3, 0x00#8)] }

theorem inv_oneWord : Inv oneWord := by
  refine ⟨structured_bytes 8, ⟨by decide, by decide, by decide⟩, rfl, ?_⟩
  intro k hk
  have : k = 0 := by
    simp only [State.resetWith, Config.withBytes] at hk
    omega
  subst this
  exact ⟨0x003100B3#32, .add 1 2 3, by rfl, by decide, by decide⟩

/-- `Malforms` is decided value by value. -/
theorem malforms_of {l l' : List (Int × Nat)} (h : decide (l.length = l'.length ∧
    ∀ p ∈ l.zip l', p.2 = p.1 ∨ (p.2.2 = p.1.2 ∧ Misfit p.2.1 p.2.2)) = true) : Malforms l l' :=
  have h := of_decide_eq_true h
  List.forall₂_iff_zip.mpr ⟨h.1, fun hp => h.2 _ hp⟩

/-- `s` is not halted and is asked `req` next. -/
abbrev Asks (s : State) (req : Request) : Prop :=
  s.cfg.structured = true ∧ s.faultCause = .none ∧ ∃ later, s.inputs = .request req :: later

/-- A step of `oneWord`: an input is taken and the answer is `Ok`. -/
theorem step_oneWord : ∃ t, step oneWord = .next t ∧ TookInput oneWord t ∧
    t.response = some (.ok 0x0100000F#32 "pause" 4) := next_of (by decide)

/-- A step that raises each of the four faults. -/
theorem witness_faults :
    (∃ t, step (asked .R "add" 32 0 0 0) = .next t ∧ TookInput (asked .R "add" 32 0 0 0) t ∧
      t.response = some (.fault .range (.range .rd 32))) ∧
    (∃ t, step (drawn .R [8, 1]) = .next t ∧ TookInput (drawn .R [8, 1]) t ∧
      t.response = some (.fault .select (.select (.known .R) (.rowIndex 8)))) ∧
    (∃ t, step (block 0 [.request (.random (.known .SYS))] [4] []) = .next t ∧
      TookInput (block 0 [.request (.random (.known .SYS))] [4] []) t ∧
      t.response = some (.fault .io (.io 0))) ∧
    (∃ t, step (block 4 [.request (.random (.known .SYS))] [4] [false]) = .next t ∧
      TookInput (block 4 [.request (.random (.known .SYS))] [4] [false]) t ∧
      t.response = some (.fault .io (.io 0))) :=
  ⟨next_of (by decide), next_of (by decide), next_of (by decide), next_of (by decide)⟩

theorem witness_ResetInputRestarts :
    (block 8 [.reset] [] []).cfg.structured = true ∧ (block 8 [.reset] [] []).inputs = .reset :: [] :=
  ⟨structured_bytes 8, rfl⟩

theorem witness_ResetMeetsInvariant : Config.default.structured = true := structured_default

/-- A halted block with a request, and one with the reset input, whose step changes the cause. -/
theorem witness_HaltedUntilReset :
    ({ asked .R "add" 1 2 3 0 with faultCause := .io } : State).faultCause ≠ .none ∧
    ∃ t, step { block 8 [.reset] [] [] with faultCause := .io } = .next t ∧
      t.faultCause ≠ FaultCause.io ∧ FaultCause.io ≠ .none :=
  ⟨by decide, next_of (by decide)⟩

theorem witness_FaultCauseIsSticky : (∃ t, step oneWord = .next t) ∧
    ({ ready with faultCause := .codec } : State).faultCause ≠ .none :=
  ⟨⟨_, step_oneWord.choose_spec.1⟩, by decide⟩

theorem witness_FaultEntryIsPrecise : ∃ (s t : State) (cause : FaultCause) (info : FaultInfo),
    step s = .next t ∧ TookInput s t ∧ t.response = some (.fault cause info) :=
  ⟨_, _, _, _, witness_faults.1.choose_spec⟩

/-- Halted; an unknown mnemonic; an illegal operand. -/
theorem witness_RequestFaultPriority :
    (∃ (s : State) (req : Request) (later : List Input), s.cfg.structured = true ∧
      s.inputs = .request req :: later ∧ s.faultCause ≠ .none) ∧
    (∃ s, Asks s (.directed (.known .R) "addi" 99 0 0 0) ∧ "addi" ∉ s.cfg.mnemonics .R) ∧
    (∃ s, Asks s (.directed (.known .R) "add" 32 0 0 0) ∧
      select s.cfg (.directed (.known .R) "add" 32 0 0 0) s.draws = .runs (.add 32 0 0) [] ∧
      (Instr.add 32 0 0).firstIllegal = some (.rd, 32)) :=
  ⟨⟨{ asked .R "add" 1 2 3 0 with faultCause := .io }, _, _, structured_bytes 8, rfl, by decide⟩,
    ⟨asked .R "addi" 99 0 0 0, ⟨structured_bytes 8, rfl, _, rfl⟩, by decide⟩,
    ⟨asked .R "add" 32 0 0 0, ⟨structured_bytes 8, rfl, _, rfl⟩, by decide, by decide⟩⟩

/-- A row that does not fit (its `funct3` is 8); no room; room to the last byte and a refusing sink. -/
theorem witness_RequestFaultPriority_emission :
    (∃ s, Asks s (.directed (.known .S) "sh" 0 1 2 4) ∧
      select s.cfg (.directed (.known .S) "sh" 0 1 2 4) s.draws = .runs (.sh 1 2 4) [] ∧
      (Instr.sh 1 2 4).wf = true ∧ (Instr.sh 1 2 4).rowFits s.cfg = false) ∧
    (∃ s, Asks s (.random (.known .SYS)) ∧
      select s.cfg (.random (.known .SYS)) s.draws = .runs .pause [] ∧ Instr.pause.wf = true ∧
      Instr.pause.rowFits s.cfg = true ∧ s.cfg.imageBase + s.cfg.imageBytes < s.imgPtr + 4) ∧
    (∃ s, Asks s (.random (.known .SYS)) ∧
      select s.cfg (.random (.known .SYS)) s.draws = .runs .pause [] ∧ Instr.pause.wf = true ∧
      Instr.pause.rowFits s.cfg = true ∧ s.imgPtr + 4 ≤ s.cfg.imageBase + s.cfg.imageBytes ∧
      s.sinkOk.head? = some false) :=
  ⟨⟨State.resetWith misfit [.request (.directed (.known .S) "sh" 0 1 2 4)] [] [],
      ⟨structured_misfit, rfl, _, rfl⟩, by decide, by decide, by decide⟩,
    ⟨block 3 [.request (.random (.known .SYS))] [4] [], ⟨structured_bytes 3, rfl, _, rfl⟩, by decide,
      by decide, by decide, by decide⟩,
    ⟨block 4 [.request (.random (.known .SYS))] [4] [false], ⟨structured_bytes 4, rfl, _, rfl⟩, by decide,
      by decide, by decide, by decide, by decide⟩⟩

/-- A selected instruction with a sink answer, and one whose word has no room and no sink answer. -/
theorem witness_StepRunsSelectedInstruction :
    (∃ s, Asks s (.random (.known .SYS)) ∧
      select s.cfg (.random (.known .SYS)) s.draws = .runs .pause [9] ∧ s.sinkOk ≠ []) ∧
    (∃ s, Asks s (.random (.known .SYS)) ∧
      select s.cfg (.random (.known .SYS)) s.draws = .runs .pause [9] ∧ s.sinkOk = [] ∧
      ¬ (s.imgPtr + 4 ≤ s.cfg.imageBase + s.cfg.imageBytes)) :=
  ⟨⟨drawn .SYS [4, 9], ⟨structured_bytes 8, rfl, _, rfl⟩, by decide, by decide⟩,
    ⟨block 3 [.request (.random (.known .SYS))] [4, 9] [], ⟨structured_bytes 3, rfl, _, rfl⟩, by decide,
      by decide, by decide⟩⟩

theorem witness_PresentedWordRuns : ready.cfg.structured = true ∧ ready.faultCause = .none ∧
    ready.decodePort 0x003100B3#32 = .row (.add 1 2 3) ∧ ready.sinkOk ≠ [] ∧
    (block 8 [] [] []).sinkOk = [] := ⟨structured_bytes 8, by decide, by decide, by decide, by decide⟩

theorem witness_OnlyUnadmittedConfigurationsStop : State.reset.cfg.structured = true ∧
    (State.resetWith { Config.default with imageBase := 2 } [] [] []).cfg.structured = false ∧
    ({ Config.default with imageBase := 2 } : Config).imageBase % 4 ≠ 0 :=
  ⟨structured_default, by decide, by decide⟩

/-- An instruction that emits, one that raises a fault, one that finds the block halted. -/
theorem witness_ExecFrame : (∃ t, exec (.add 1 2 3) ready = .next t ∧ t.imgPtr = 4) ∧
    (∃ t, exec (.add 1 2 32) ready = .next t ∧ t.faultCause = .range) ∧
    (∃ t, exec .ecall { ready with faultCause := .io } = .next t ∧ t.faultCause = .io) :=
  ⟨next_of (by decide), next_of (by decide), next_of (by decide)⟩

theorem witness_StepFrame : ∃ t, step (drawn .B [0, 1, 2, -2048, 7]) = .next t ∧ t.draws = [7] :=
  next_of (by decide)

/-- A random request with too few draws, and a directed one without a sink answer. -/
theorem witness_HeldRequestChangesNothing :
    (∃ s, Asks s (.random (.known .B)) ∧ select s.cfg (.random (.known .B)) s.draws = .waits) ∧
    (∃ s, Asks s (.directed (.known .SYS) "pause" 0 0 0 0) ∧
      select s.cfg (.directed (.known .SYS) "pause" 0 0 0 0) s.draws = .runs .pause [] ∧
      Instr.pause.wf = true ∧ Instr.pause.rowFits s.cfg = true ∧
      s.imgPtr + 4 ≤ s.cfg.imageBase + s.cfg.imageBytes ∧ s.sinkOk = []) :=
  ⟨⟨drawn .B [0, 1, 2], ⟨structured_bytes 8, rfl, _, rfl⟩, by decide⟩,
    ⟨block 4 [.request (.directed (.known .SYS) "pause" 0 0 0 0)] [] [],
      ⟨structured_bytes 4, rfl, _, rfl⟩, by decide, by decide, by decide, by decide, rfl⟩⟩

/-- In-range draws of which the last is missing, and of which all but the first are. -/
theorem witness_HeldRequestChangesNothing_draws : InReg 0 ∧ InReg 31 ∧ (0 : Int) ≤ 11 ∧
    ([11, 31, 0] : List Int) <+: [11, 31, 0] ∧ ([11] : List Int) <+: [11, 31, 0] ∧
    ([1, 31] : List Int) <+: [1, 31] ∧ ([31] : List Int) <+: [31] ∧
    select Config.default (.random (.known .I)) [11, 31, 0] = .waits ∧
    select Config.default (.random (.known .J)) [31] = .waits := by decide

theorem witness_AnswersIgnoreTheImage : ∃ t, step oneWord = .next t ∧ TookInput oneWord t :=
  ⟨_, step_oneWord.choose_spec.1, step_oneWord.choose_spec.2.1⟩

theorem witness_UnknownTagRaisesSelect :
    (∃ s, Asks s (.random (.other "mixed"))) ∧
    (∃ s, Asks s (.directed (.other "Z") "add" 1 2 3 0)) :=
  ⟨⟨block 8 [.request (.random (.other "mixed"))] [] [], structured_bytes 8, rfl, _, rfl⟩,
    ⟨block 8 [.request (.directed (.other "Z") "add" 1 2 3 0)] [] [], structured_bytes 8, rfl, _, rfl⟩⟩

theorem witness_DirectedRequestSelectsRow : Config.default.structured = true ∧
    "nop" ∉ Config.default.mnemonics .I := ⟨structured_default, by decide⟩

/-- The last row of every table, the ends of every range. -/
theorem witness_RandomDrawsNameRowAndOperands :
    InReg 0 ∧ InReg 31 ∧ (0 : Int) ≤ 11 ∧
    [Instr.add, .sub, .and, .or, .xor, .sll, .srl, .sra][(7 : Int).toNat]? = some .sra ∧
    [Instr.addi, .andi, .ori, .xori, .slli, .srli, .jalr, .lb, .lh, .lw, .lbu, .lhu][(5 : Int).toNat]? =
      some .srli ∧
    [Instr.addi, .andi, .ori, .xori, .slli, .srli, .jalr, .lb, .lh, .lw, .lbu, .lhu][(11 : Int).toNat]? =
      some .lhu ∧
    (if (5 : Int) = 4 ∨ (5 : Int) = 5 then InShamt 31 else InImm12 31) ∧
    (if (11 : Int) = 4 ∨ (11 : Int) = 5 then InShamt (-2048) else InImm12 (-2048)) ∧
    [Instr.sb, .sh, .sw][(2 : Int).toNat]? = some .sw ∧
    [Instr.beq, .bne, .blt, .bge, .bltu, .bgeu][(5 : Int).toNat]? = some .bgeu ∧
    (-2048 : Int) ≤ 2047 ∧ InImm20 (-524288) ∧ InImm20 524287 ∧
    [Instr.ecall, .ebreak, .fence, .fenceTso, .pause][(4 : Int).toNat]? = some .pause :=
  ⟨by decide, by decide, by decide, rfl, rfl, rfl, by decide, by decide, rfl, rfl, by decide, by decide,
    by decide, rfl⟩

theorem witness_RandomDrawOutOfRangeRaises :
    (Fmt.SYS, 4) ∈ [(Fmt.R, 7), (.I, 11), (.S, 2), (.B, 5), (.U, 1), (.SYS, 4)] ∧
    ¬ ((0 : Int) ≤ 5 ∧ (5 : Int) ≤ (4 : Nat)) ∧ ¬ ((0 : Int) ≤ -1 ∧ (-1 : Int) ≤ (4 : Nat)) ∧
    (Fmt.I, 11) ∈ [(Fmt.R, 7), (.I, 11), (.U, 1)] ∧ (Fmt.I, 11) ∈ [(Fmt.R, 7), (.I, 11)] ∧
    (Fmt.B, 5) ∈ [(Fmt.S, 2), (.B, 5)] ∧ ¬ InReg 32 ∧ ¬ InReg (-1) ∧
    ¬ (if (4 : Int) = 4 ∨ (4 : Int) = 5 then InShamt 32 else InImm12 32) ∧
    ¬ (if (0 : Int) = 4 ∨ (0 : Int) = 5 then InShamt 2048 else InImm12 2048) ∧ ¬ InImm12 (-2049) ∧
    ¬ ((-2048 : Int) ≤ 2048 ∧ (2048 : Int) ≤ 2047) ∧ ¬ InImm20 524288 ∧
    ¬ ((-524288 : Int) ≤ -524289 ∧ (-524289 : Int) ≤ 524287) := by decide

/-- A request whose first draw raises, and one whose last does. -/
theorem witness_RandomDrawOutOfRangeRaises_step :
    (∃ s, Asks s (.random (.known .R)) ∧
      select s.cfg (.random (.known .R)) s.draws = .raises (.select (.known .R) (.rowIndex 8)) [1]) ∧
    (∃ s, Asks s (.random (.known .J)) ∧
      select s.cfg (.random (.known .J)) s.draws = .raises (.range .imm 1048576) [7]) :=
  ⟨⟨drawn .R [8, 1], ⟨structured_bytes 8, rfl, _, rfl⟩, by decide⟩,
    ⟨drawn .J [31, 524288, 7], ⟨structured_bytes 8, rfl, _, rfl⟩, by decide⟩⟩

theorem witness_RandomAnswersAsDirected : ∃ s, Asks s (.random (.known .J)) ∧
    select s.cfg (.random (.known .J)) s.draws = .runs (.jal 0 8) [] ∧ s.sinkOk ≠ [] :=
  ⟨drawn .J [0, 4], ⟨structured_bytes 8, rfl, _, rfl⟩, by decide, by decide⟩

theorem witness_RandomReachesExactlyLegalInstructions : Config.default.structured = true ∧
    (Instr.jal 31 (-1048576)).fmt = .J ∧ (Instr.jal 31 (-1048576)).wf = true ∧
    select Config.default (.random (.known .J)) [31, -524288] = .runs (.jal 31 (-1048576)) [] :=
  ⟨structured_default, by decide, by decide, by decide⟩

theorem canEmit_ready : CanEmit ready := ⟨by decide, by decide⟩

/-- The state hypotheses of the row statements; the word may end exactly at the end of the image. -/
theorem witness_rows_state : DefaultTables ready ∧ ready.faultCause = .none ∧ CanEmit ready ∧
    CanEmit { block 8 [] [] [true, false] with imgPtr := 4 } :=
  ⟨⟨rfl, rfl⟩, rfl, canEmit_ready, ⟨by decide, by decide⟩⟩

/-- The operand hypotheses of the row statements, at the ends of each range and just beyond. -/
theorem witness_rows_operands :
    InReg 0 ∧ InReg 31 ∧ ¬ InReg 32 ∧ ¬ InReg (-1) ∧
    InImm12 (-2048) ∧ InImm12 2047 ∧ ¬ InImm12 2048 ∧ ¬ InImm12 (-2049) ∧
    InShamt 0 ∧ InShamt 31 ∧ ¬ InShamt 32 ∧ ¬ InShamt (-1) ∧
    InOffset13 (-4096) ∧ InOffset13 4094 ∧ ¬ InOffset13 4095 ∧ ¬ InOffset13 4096 ∧
    InImm20 (-524288) ∧ InImm20 524287 ∧ ¬ InImm20 524288 ∧ ¬ InImm20 (-524289) ∧
    InOffset21 (-1048576) ∧ InOffset21 1048574 ∧ ¬ InOffset21 1 ∧ ¬ InOffset21 1048576 := by decide

theorem witness_EveryCatalogEmitsTheLayoutWord : (Instr.lui 31 (-524288)).wf = true ∧
    (Instr.lui 31 (-524288)).rowFits otherLui = true ∧
    CanEmit (State.resetWith otherLui [] [] [true]) ∧
    (State.resetWith otherLui [] [] [true]).faultCause = .none :=
  ⟨by decide, by decide, ⟨by decide, by decide⟩, rfl⟩

theorem witness_MalformedRowRaisesCodec : (Instr.sh 0 31 2047).wf = true ∧
    ((8, 3) ∈ (Instr.sh 0 31 2047).catalogValues (State.resetWith misfit [] [] []).cfg ∧ Misfit 8 3) ∧
    ((-1, 32) ∈ Instr.ecall.catalogValues misfitMany ∧ Misfit (-1) 32) ∧
    (State.resetWith misfit [] [] []).faultCause = .none := by decide

/-- The last operand is illegal and those before it are legal; the first one is. -/
theorem witness_FirstIllegalOperandIsNamed :
    ((Instr.lui 31 524288).operands = [.reg .rd 31] ++ .imm20 524288 :: [] ∧
      (∀ p ∈ [UsedOperand.reg .rd 31], p.legal = true) ∧ (UsedOperand.imm20 524288).legal = false) ∧
    ((Instr.beq (-1) 99 3).operands = [] ++ .reg .rs1 (-1) :: [.reg .rs2 99, .offset13 3] ∧
      (UsedOperand.reg .rs1 (-1)).legal = false) := by decide

/-- No room by one byte; room to the last byte with a refusing and with a taking sink. -/
theorem witness_EmitOrIoFault : Instr.ecall.wf = true ∧ Instr.ecall.rowFits (Config.withBytes 7) = true ∧
    ({ block 7 [] [] [] with imgPtr := 4 } : State).cfg.imageBytes < 8 ∧
    ((block 4 [] [] [false]).imgPtr + 4 ≤ (block 4 [] [] [false]).cfg.imageBytes ∧
      (block 4 [] [] [false]).sinkOk.head? = some false) ∧
    CanEmit (block 4 [] [] [true]) :=
  ⟨by decide, by decide, by decide, by decide, ⟨by decide, by decide⟩⟩

theorem witness_EmittedBytesReassemble : ∃ (s t : State) (w : Word) (asm : String) (a : Nat),
    PtrInv s ∧ step s = .next t ∧ TookInput s t ∧ t.response = some (.ok w asm a) :=
  ⟨_, _, _, _, _, inv_oneWord.2.1, step_oneWord.choose_spec⟩

theorem witness_MixedWidthViews : ∃ (s t : State) (w : Word) (asm : String) (a : Nat),
    PtrInv s ∧ step s = .next t ∧ TookInput s t ∧ t.response = some (.ok w asm a) :=
  witness_EmittedBytesReassemble

/-- A request that writes its word, one that writes nothing, and one that is held. -/
theorem witness_AllFourBytesOrNone : (∃ t, step oneWord = .next t ∧ t.imgPtr = 8) ∧
    (∃ t, step { oneWord with sinkOk := [false] } = .next t ∧ t.imgPtr = 4) ∧
    (∃ t, step { oneWord with sinkOk := [] } = .next t ∧ t = { oneWord with sinkOk := [] }) :=
  ⟨next_of (by decide), next_of (by decide), next_of (by decide)⟩

/-- A reachable state after one `Ok` response. -/
theorem reaches_one : ∃ t, Reaches t [0x0100000F#32] ∧ t.imgPtr = 4 := by
  obtain ⟨t, ht, hw, hp⟩ : ∃ t, step (drawn .SYS [4]) = .next t ∧
      okWords (drawn .SYS [4]) t [] = [0x0100000F#32] ∧ t.imgPtr = 4 := next_of (by decide)
  exact ⟨t, hw ▸ .step _ t [] (.start (Config.withBytes 8) _ _ _ (structured_bytes 8)) ht, hp⟩

theorem witness_PointerCountsOkResponses :
    (∃ s t : State, step s = .next t ∧ answeredOk s t = true) ∧
    (∃ t, step { oneWord with inputs := [.reset] } = .next t ∧ t.imgPtr = 0) ∧
    (∃ s words, Reaches s words ∧ words.length = 1) :=
  ⟨⟨oneWord, (next_of (by decide) : ∃ t, step oneWord = .next t ∧ answeredOk oneWord t = true)⟩,
    next_of (by decide), ⟨_, _, reaches_one.choose_spec.1, rfl⟩⟩

/-- The first word, at the first address; the last byte of the image and the first beyond it. -/
theorem witness_ReachableImageIsThePrefix : ∃ (s : State) (words : List Word), Reaches s words ∧
    words[0]? = some 0x0100000F#32 ∧ s.imgPtr = 4 :=
  ⟨_, _, reaches_one.choose_spec.1, rfl, reaches_one.choose_spec.2⟩

theorem witness_StepKeepsInvariant : Inv oneWord ∧ ∃ t, step oneWord = .next t ∧ t.imgPtr = 8 :=
  ⟨inv_oneWord, next_of (by decide)⟩

theorem witness_ImageStaysCanonical : oneWord.image.wf = true ∧
    (∃ t, step oneWord = .next t ∧ t.imgPtr = 8) ∧ ∃ t, exec (.jal 0 8) oneWord = .next t ∧ t.imgPtr = 8 :=
  ⟨by decide, next_of (by decide), next_of (by decide)⟩

/-- A word of the catalog and a word outside it. -/
theorem witness_DecodeAnswersTheSelectingRow : Config.default.structured = true ∧
    (∃ row ∈ catalogRows, row.selectedBy Config.default 0x40005033#32 = true) ∧
    (∀ row ∈ catalogRows, row.selectedBy Config.default 0x40005013#32 = false) :=
  ⟨structured_default, by decide, by decide⟩

theorem witness_DecodeOfEncodeIsTheInstruction : otherLui.structured = true ∧
    (Instr.lui 31 524287).wf = true ∧ (Instr.lui 31 524287).rowFits otherLui = true := by decide

theorem witness_EncodeOfDecodeIsTheWord : Config.default.structured = true ∧
    decode Config.default 0x80208063#32 = .row (.beq 1 2 (-4096)) := ⟨structured_default, by decide⟩

theorem witness_WordsAreDistinct : Config.default.structured = true ∧ (Instr.sra 0 0 0).wf = true ∧
    (Instr.sra 0 0 0).rowFits Config.default = true ∧
    encodeWith Config.default (.sra 0 0 0) = 0x40005033#32 := ⟨structured_default, by decide⟩

theorem witness_OkResponseRoundTrips : ∃ (s t : State) (w : Word) (asm : String) (a : Nat),
    step s = .next t ∧ TookInput s t ∧ t.response = some (.ok w asm a) :=
  ⟨_, _, _, _, _, step_oneWord.choose_spec⟩

theorem witness_AllOnesAndAllZeros : Instr.lhu ∈
      [Instr.addi, .andi, .ori, .xori, .jalr, .lb, .lh, .lw, .lbu, .lhu] ∧
    Instr.sw ∈ [Instr.sb, .sh, .sw] ∧ Instr.bgeu ∈ [Instr.beq, .bne, .blt, .bge, .bltu, .bgeu] ∧
    Instr.auipc ∈ [Instr.lui, .auipc] := by simp

theorem witness_RowsDifferOnlyWhereStated : Config.default.structured = true ∧
    Instr.sb ∈ [Instr.sb, .sh, .sw] ∧ Instr.sw ∈ [Instr.sb, .sh, .sw] ∧
    (Instr.sb 1 2 3).rowFits Config.default = true ∧ (Instr.sw 1 2 3).rowFits Config.default = true :=
  ⟨structured_default, by simp, by simp, by decide, by decide⟩

/-- The ends of the 12-bit signed and 5-bit unsigned ranges, and the first values beyond. -/
theorem witness_PackFieldPattern : (0 : Int) < 1 ∧ (1 : Nat) ≤ 12 ∧
    ¬ (-(2 : Int) ^ (12 - 1) ≤ 2048 ∧ (2048 : Int) ≤ 2 ^ (12 - 1) - 1) ∧
    ¬ ((0 : Int) ≤ 32 ∧ (32 : Int) ≤ 2 ^ 5 - 1) ∧
    (-(2 : Int) ^ (12 - 1) ≤ -2048 ∧ (-2048 : Int) ≤ 2 ^ (12 - 1) - 1) ∧
    ((0 : Int) ≤ 31 ∧ (31 : Int) ≤ 2 ^ 5 - 1) := by decide

theorem witness_ExtractBitsOfRange :
    ((2 : Int) < 3 ∨ (3 : Int) < 0 ∨ ((4 : Nat) : Int) ≤ 2) ∧
    ((4 : Int) < 0 ∨ (0 : Int) < 0 ∨ ((4 : Nat) : Int) ≤ 4) ∧
    ((0 : Int) ≤ 0 ∧ (0 : Int) ≤ 3 ∧ (3 : Int) < ((4 : Nat) : Int)) := by decide

theorem witness_ConcatJoinsMostSignificantFirst :
    (([⟨20, 1#20⟩, ⟨12, 2#12⟩] : List Machine.Field).map (·.width)).sum = 32 ∧
    (([⟨20, 1#20⟩, ⟨11, 2#11⟩] : List Machine.Field).map (·.width)).sum ≠ 32 := by decide

theorem witness_ConcatenatedFieldReadsBack :
    concatWord ([⟨20, 1#20⟩] ++ ⟨5, 31#5⟩ :: [⟨7, 0x37#7⟩]) = .ok 0x00001FB7#32 ∧
    (1 : Nat) ≤ 5 ∧ 7 = (([⟨7, 0x37#7⟩] : List Machine.Field).map (·.width)).sum :=
  ⟨rfl, by decide, by decide⟩

theorem malformedFrom_misfitMany : MalformedFrom (Config.withBytes 8) misfitMany where
  mnemonics f := by cases f <;> rfl
  subKinds k := by
    by_cases hk : k < 12
    · interval_cases k <;> rfl
    · simp [Config.subKindAt, hk]
  base := rfl
  bytes := rfl
  values i := by cases i <;> exact malforms_of rfl

/-- A legal request for a row with a too-wide value. -/
theorem witness_MisfitValuesAreNotRefused : (Config.withBytes 8).structured = true ∧
    MalformedFrom (Config.withBytes 8) misfitMany ∧
    ∃ s : State, s.cfg = misfitMany ∧ Asks s (.directed (.known .S) "sb" 0 31 0 2047) ∧
      select misfitMany (.directed (.known .S) "sb" 0 31 0 2047) s.draws = .runs (.sb 31 0 2047) [] ∧
      (Instr.sb 31 0 2047).wf = true ∧
      (200, 7) ∈ (Instr.sb 31 0 2047).catalogValues misfitMany ∧ Misfit 200 7 :=
  ⟨structured_bytes 8, malformedFrom_misfitMany,
    State.resetWith misfitMany [.request (.directed (.known .S) "sb" 0 31 0 2047)] [] [], rfl,
    ⟨by decide, rfl, _, rfl⟩, by decide, by decide, by decide, by decide⟩

/-- A step that writes the last word of the image, one that writes none, and the reset input. -/
theorem witness_StepKeepsImageBelowPointer : PtrInv oneWord ∧ ImageInv oneWord ∧
    (∃ t, step oneWord = .next t ∧ okWord oneWord t = some 0x0100000F#32) ∧
    (∃ t, step { oneWord with sinkOk := [false] } = .next t ∧
      okWord { oneWord with sinkOk := [false] } t = none) ∧
    (∃ t, step { oneWord with inputs := [.reset] } = .next t ∧
      okWord { oneWord with inputs := [.reset] } t = none) :=
  ⟨inv_oneWord.2.1, inv_oneWord.2.2.1, next_of (by decide), next_of (by decide), next_of (by decide)⟩

end Sys2Proof.Tests
end

section
/-! # Proofs: the state of the block

The first part says once, as inductive relations, what `exec` and `step` do to the state; the frames, the sticky
fault cause and the noninterference of the image follow case by case. -/

namespace Sys2Proof.Machine

open Sys2Proof Sys2Proof.Spec

/-! ## Fields and rows -/

/-- A value is a misfit of an `n`-bit catalog field exactly when the codec does not pack it (R37, R125). -/
theorem misfit_iff {v : Int} {n : Nat} : Misfit v n ↔ fitsField v n .unsigned = false := by
  have hpow : ((2 ^ n : Nat) : Int) = (2 : Int) ^ n := by push_cast; rfl
  simp only [Misfit, fitsField, decide_eq_false_iff_not, hpow, Int.le_sub_one_iff]

/-- Only a row that fits is encoded, and then as the word and the text of its format (R37, R67 to R74). -/
theorem encoding_ok {c : Config} {i : Instr} {x : Encoded} (hwf : i.wf = true)
    (h : i.encoding c = .ok x) : i.rowFits c = true ∧ x = ⟨encodeWith c i, i.text c⟩ := by
  cases hfit : i.rowFits c with
  | true =>
    rw [encoding_eq hwf hfit] at h
    exact ⟨rfl, (Except.ok.inj h).symm⟩
  | false =>
    obtain ⟨v, n, -, -, herr⟩ := encoding_misfit hwf hfit
    rw [herr] at h; cases h

/-! ## What `exec` does -/

/-- What an instruction does to the state, case by case (R105, R107, R117, R118, R227). -/
inductive ExecDoes (i : Instr) (s : State) : State → Prop where
  | answersHalted : s.halted = true → ExecDoes i s (respondHalted s)
  | faults (info : FaultInfo) (sink : List Bool) :
      s.halted = false → (sink = s.sinkOk ∨ s.sinkOk = false :: sink) →
      ExecDoes i s (takeFault info { s with sinkOk := sink })
  | holds : s.hasRoom = true → s.sinkOk = [] → ExecDoes i s s
  | emits (sink : List Bool) :
      s.halted = false → i.wf = true → i.rowFits s.cfg = true → s.hasRoom = true →
      s.sinkOk = true :: sink →
      ExecDoes i s (respond (.ok (encodeWith s.cfg i) (i.text s.cfg) s.imgPtr)
        { s with
          sinkOk := sink
          image := s.image.writeWord s.imgPtr (encodeWith s.cfg i)
          imgPtr := s.imgPtr + 4 })

/-- Every instruction answers a next state, which is one of those of `ExecDoes`. -/
theorem exec_does (i : Instr) (s : State) : ∃ t, exec i s = .next t ∧ ExecDoes i s t := by
  rcases exec_cases i s with ⟨hh, h⟩ | ⟨n, v, hh, -, h⟩ | ⟨e, hh, -, -, h⟩ | ⟨x, hh, hwf, hx, h⟩
  · exact ⟨_, h, .answersHalted hh⟩
  · exact ⟨_, h, .faults _ s.sinkOk hh (.inl rfl)⟩
  · exact ⟨_, h, .faults _ s.sinkOk hh (.inl rfl)⟩
  · obtain ⟨hfit, rfl⟩ := encoding_ok hwf hx
    refine ⟨_, h, ?_⟩
    rcases emit_cases (encodeWith s.cfg i) (i.text s.cfg) s with
      ⟨-, he⟩ | ⟨hr, hs, he⟩ | ⟨sink, -, hs, he⟩ | ⟨sink, hr, hs, he⟩
    · exact he ▸ .faults _ s.sinkOk hh (.inl rfl)
    · exact he.symm ▸ .holds hr hs
    · exact he ▸ .faults _ sink hh (.inr hs)
    · exact he ▸ .emits sink hh hwf hfit hr hs

theorem execDoes_of_next {i : Instr} {s t : State} (h : exec i s = .next t) : ExecDoes i s t := by
  obtain ⟨t', h', hdo⟩ := exec_does i s
  rw [h] at h'; cases h'
  exact hdo

/-- With legal operands and an encoding that raises (R202). -/
theorem exec_codec {i : Instr} {s : State} {e : CodecFault} (hh : s.halted = false)
    (hwf : i.wf = true) (he : i.encoding s.cfg = .error e) :
    exec i s = .next (takeFault (.codec e) s) := by
  rw [exec_eq]; unfold performRequest
  rw [if_neg (by simp [hh]), firstViolation_eq, (wf_iff_firstIllegal i).mp hwf, he]

/-- A legal instruction of a row that does not fit raises a misfit of the row (R37, R202). -/
theorem exec_misfit {i : Instr} {s : State} (hh : s.halted = false) (hwf : i.wf = true)
    (hfit : i.rowFits s.cfg = false) :
    ∃ v n, (v, n) ∈ i.catalogValues s.cfg ∧ Misfit v n ∧
      exec i s = .next (takeFault (.codec (.packMisfit v n .unsigned)) s) := by
  obtain ⟨v, n, hmem, hv, herr⟩ := encoding_misfit hwf hfit
  exact ⟨v, n, hmem, misfit_iff.mpr hv, exec_codec hh hwf herr⟩

/-- A row one of whose values is a misfit does not fit. -/
theorem rowFits_false_of_misfit {c : Config} {i : Instr}
    (h : ∃ v n, (v, n) ∈ i.catalogValues c ∧ Misfit v n) : i.rowFits c = false := by
  obtain ⟨v, n, hmem, hv⟩ := h
  cases hfit : i.rowFits c with
  | false => rfl
  | true =>
    have hfits := rowFits_iff.mp hfit (v, n) hmem
    rw [misfit_iff.mp hv] at hfits; cases hfits

/-- Fault entry leaves what the statements call `Faulted` (R118, R206). -/
theorem faulted_takeFault (info : FaultInfo) (s : State) : Faulted s info (takeFault info s) :=
  ⟨rfl, rfl, rfl, fun _ => rfl⟩

/-! ## What `step` does -/

/-- What a step that answers a next state does to the state, case by case (R105, R107, R118, R217, R220,
R227): it keeps the state (idle or held), applies the reset input, or answers a request. -/
inductive StepDoes (s : State) : State → Prop where
  | keeps : (∀ later, s.inputs ≠ .reset :: later) → StepDoes s s
  | resets (later : List Input) :
      s.inputs = .reset :: later → StepDoes s (applyReset { s with inputs := later })
  | answersHalted (req : Request) (later : List Input) :
      s.inputs = .request req :: later → s.halted = true →
      StepDoes s (respondHalted (s.accept s.draws))
  | faults (req : Request) (later : List Input) (info : FaultInfo) (taken left : List Int)
      (sink : List Bool) :
      s.inputs = .request req :: later → s.halted = false → s.draws = taken ++ left →
      taken.length ≤ 4 → (sink = s.sinkOk ∨ s.sinkOk = false :: sink) →
      StepDoes s (takeFault info { s.accept left with sinkOk := sink })
  | emits (req : Request) (later : List Input) (i : Instr) (taken left : List Int)
      (sink : List Bool) :
      s.inputs = .request req :: later → s.halted = false → s.draws = taken ++ left →
      taken.length ≤ 4 → i.wf = true → i.rowFits s.cfg = true → s.hasRoom = true →
      s.sinkOk = true :: sink →
      StepDoes s (respond (.ok (encodeWith s.cfg i) (i.text s.cfg) s.imgPtr)
        { s.accept left with
          sinkOk := sink
          image := s.image.writeWord s.imgPtr (encodeWith s.cfg i)
          imgPtr := s.imgPtr + 4 })

theorem step_does {s t : State} (h : step s = .next t) : StepDoes s t := by
  obtain ⟨-, hcases⟩ := step_cases h
  rcases hcases with ⟨hi, rfl⟩ | ⟨later, hi, rfl⟩ | ⟨req, later, hi, hh, rfl⟩ |
    ⟨req, later, hi, -, -, rfl⟩ | ⟨req, later, info, left, hi, hh, hs, rfl⟩ |
    ⟨req, later, i, left, hi, -, -, -, -, -, rfl⟩ | ⟨req, later, i, left, r, hi, hh, hs, he, ht⟩
  · exact .keeps fun _ => by simp [hi]
  · exact .resets later hi
  · exact .answersHalted req later hi hh
  · exact .keeps fun _ => by simp [hi]
  · obtain ⟨taken, hd, hlen⟩ := select_takes s.cfg req s.draws left (by rw [hs]; rfl)
    exact .faults req later info taken left s.sinkOk hi hh hd hlen (.inl rfl)
  · exact .keeps fun _ => by simp [hi]
  · obtain ⟨taken, hd, hlen⟩ := select_takes s.cfg req s.draws left (by rw [hs]; rfl)
    cases execDoes_of_next he with
    | answersHalted hh' => rw [accept_halted, hh] at hh'; cases hh'
    | faults info sink _ hsink =>
      exact .faults req later info taken left sink hi hh hd hlen hsink
    | holds => cases ht
    | emits sink _ hwf hfit hr hsink =>
      exact .emits req later i taken left sink hi hh hd hlen hwf hfit hr hsink

/-- Under a structured configuration every step answers a next state. -/
theorem step_answers {s : State} (hc : s.cfg.structured = true) : ∃ t, step s = .next t := by
  match hi : s.inputs with
  | [] => exact ⟨s, step_idle hc hi⟩
  | .reset :: later => exact ⟨_, step_reset hc hi⟩
  | .request req :: later =>
    rw [step_request hc hi]
    cases hh : s.halted with
    | true => exact ⟨_, performInputRequest_halted hh req⟩
    | false =>
      cases hs : select s.cfg req s.draws with
      | waits => exact ⟨_, performInputRequest_waits hh hs⟩
      | raises info left => exact ⟨_, performInputRequest_raises hh hs⟩
      | runs i left =>
        rw [performInputRequest_runs hh hs]
        rcases settle_exec i s left with ⟨h, -⟩ | ⟨t, r, h, -⟩ <;> exact ⟨_, h⟩

/-- A step that answers a next state keeps the parameters (R35, R224). -/
theorem step_keeps_cfg {s t : State} (h : step s = .next t) : t.cfg = s.cfg := by
  cases step_does h <;> rfl

/-! ## The image is not read (R32) -/

/-- `t'` is `t` but for the image, and both images were left, were written with the same word at the same
place, or were emptied. -/
def AlikeButImage (s : State) (m : Memory) (t t' : State) : Prop :=
  t' = { t with image := t'.image } ∧
    ((t.image = s.image ∧ t'.image = m) ∨
      (∃ w, t.image = s.image.writeWord s.imgPtr w ∧ t'.image = m.writeWord s.imgPtr w) ∨
      (t.image = [] ∧ t'.image = []))

theorem emit_ignores_image (w : Word) (asm : String) (s : State) (m : Memory) :
    AlikeButImage s m (emit w asm s) (emit w asm { s with image := m }) := by
  rcases emit_cases w asm s with ⟨hr, h⟩ | ⟨hr, hs, h⟩ | ⟨sink, hr, hs, h⟩ | ⟨sink, hr, hs, h⟩
  · rw [h, emit_no_room (s := { s with image := m }) hr]
    exact ⟨rfl, .inl ⟨rfl, rfl⟩⟩
  · rw [h, emit_waits (s := { s with image := m }) hr hs]
    exact ⟨rfl, .inl ⟨rfl, rfl⟩⟩
  · rw [h, emit_refused (s := { s with image := m }) hr hs]
    exact ⟨rfl, .inl ⟨rfl, rfl⟩⟩
  · rw [h, emit_ok (s := { s with image := m }) hr hs]
    exact ⟨rfl, .inr (.inl ⟨w, rfl, rfl⟩)⟩

theorem exec_ignores_image {i : Instr} {s t : State} (m : Memory) (h : exec i s = .next t) :
    ∃ t', exec i { s with image := m } = .next t' ∧ AlikeButImage s m t t' := by
  rcases exec_cases i s with ⟨hh, h'⟩ | ⟨n, v, hh, hi, h'⟩ | ⟨e, hh, hwf, he, h'⟩ | ⟨x, hh, hwf, hx, h'⟩
  · rw [h] at h'; cases h'
    exact ⟨_, exec_halted (s := { s with image := m }) hh i, rfl, .inl ⟨rfl, rfl⟩⟩
  · rw [h] at h'; cases h'
    exact ⟨_, exec_illegal (s := { s with image := m }) hh hi, rfl, .inl ⟨rfl, rfl⟩⟩
  · rw [h] at h'; cases h'
    exact ⟨_, exec_codec (s := { s with image := m }) hh hwf he, rfl, .inl ⟨rfl, rfl⟩⟩
  · rw [h] at h'; cases h'
    obtain ⟨hfit, rfl⟩ := encoding_ok hwf hx
    exact ⟨_, exec_emits (s := { s with image := m }) hh hwf hfit, emit_ignores_image _ _ s m⟩

end Sys2Proof.Machine

open Sys2Proof Sys2Proof.Machine Sys2Proof.Spec

/-- Settles O10: a step on each oldest input answers under a structured configuration, and the guard refuses
under any other. -/
theorem onlyUnadmittedConfigurationsStop : Obligations.OnlyUnadmittedConfigurationsStop := by
  refine ⟨fun i s => ?_, fun s => step_answers, fun s => step_unstructured, fun c hbase => ?_⟩
  · obtain ⟨t, h, -⟩ := exec_does i s
    exact ⟨t, h⟩
  · by_contra hc
    obtain ⟨-, -, -, -, haligned⟩ := structured_parts (Bool.not_eq_false _ ▸ hc)
    exact hbase (by simpa [Config.baseAligned] using haligned)

/-- Settles O11: case by case on what an instruction does. -/
theorem execFrame : Obligations.ExecFrame := by
  intro i s t h
  cases execDoes_of_next h with
  | answersHalted => exact ⟨rfl, rfl, rfl, .inl rfl, .inl rfl, fun _ _ => rfl, .inr ⟨rfl, fun _ => rfl⟩⟩
  | faults info sink hh hsink =>
    refine ⟨rfl, rfl, rfl, ?_, .inr ⟨(not_halted_iff s).mp hh, info, rfl, rfl⟩, fun _ _ => rfl,
      .inr ⟨rfl, fun _ => rfl⟩⟩
    rcases hsink with rfl | hsink
    · exact .inl rfl
    · exact .inr ⟨false, hsink⟩
  | holds => exact ⟨rfl, rfl, rfl, .inl rfl, .inl rfl, fun _ _ => rfl, .inr ⟨rfl, fun _ => rfl⟩⟩
  | emits sink _ _ _ _ hsink =>
    exact ⟨rfl, rfl, rfl, .inr ⟨true, hsink⟩, .inl rfl,
      fun a ha => read_writeBytes_other _ _ _ _ ha, .inl ⟨rfl, _, _, rfl⟩⟩

/-- Settles O12: case by case on what a step does. -/
theorem stepFrame : Obligations.StepFrame := by
  intro s t h
  cases step_does h with
  | keeps => exact ⟨rfl, .inl rfl, ⟨[], rfl, by simp⟩, .inl rfl⟩
  | resets later hi => exact ⟨rfl, .inr ⟨_, hi⟩, ⟨[], rfl, by simp⟩, .inl rfl⟩
  | answersHalted req later hi =>
    exact ⟨rfl, .inr ⟨.request req, by simp [hi]⟩, ⟨[], rfl, by simp⟩, .inl rfl⟩
  | faults req later info taken left sink hi _ hd hlen hsink =>
    refine ⟨rfl, .inr ⟨.request req, by simp [hi]⟩, ⟨taken, hd, hlen⟩, ?_⟩
    rcases hsink with rfl | hsink
    · exact .inl rfl
    · exact .inr ⟨false, hsink⟩
  | emits req later i taken left sink hi _ hd hlen _ _ _ hsink =>
    exact ⟨rfl, .inr ⟨.request req, by simp [hi]⟩, ⟨taken, hd, hlen⟩, .inr ⟨true, hsink⟩⟩

/-- Settles O5: only a faulting request and the reset input write the cause. -/
theorem faultCauseIsSticky : Obligations.FaultCauseIsSticky := by
  refine ⟨by decide, fun s t h => ?_, fun s => (halted_iff s).mpr, fun _ _ _ _ => rfl⟩
  cases step_does h with
  | keeps => exact .inl rfl
  | resets later hi => exact .inr (.inr ⟨⟨later, hi⟩, rfl⟩)
  | answersHalted => exact .inl rfl
  | faults req later info _ _ _ hi hh =>
    exact .inr (.inl ⟨(not_halted_iff s).mp hh, ⟨req, later, hi⟩, info, rfl, rfl⟩)
  | emits => exact .inl rfl

/-- Settles O31: the encoder's first pack that fails is of a value of the row that does not fit. -/
theorem malformedRowRaisesCodec : Obligations.MalformedRowRaisesCodec := by
  intro i s hcause hwf hmisfit
  obtain ⟨v, n, hmem, hv, h⟩ :=
    exec_misfit ((not_halted_iff s).mpr hcause) hwf (rowFits_false_of_misfit hmisfit)
  exact ⟨_, v, n, hmem, hv, h, faulted_takeFault _ s⟩

/-- Settles O14: each way a step can take an input is the same on another image, because the selection reads
the parameters and the draws alone and the selected instruction ignores the image. -/
theorem answersIgnoreTheImage : Obligations.AnswersIgnoreTheImage := by
  intro s t m r h htook
  obtain ⟨hc, hcases⟩ := step_cases h
  rcases hcases with ⟨-, rfl⟩ | ⟨later, hi, rfl⟩ | ⟨req, later, hi, hh, rfl⟩ |
    ⟨-, -, -, -, -, rfl⟩ | ⟨req, later, info, left, hi, hh, hs, rfl⟩ |
    ⟨-, -, -, -, -, -, -, -, -, -, rfl⟩ | ⟨req, later, i, left, answer, hi, hh, hs, he, ht⟩
  · exact absurd htook (lt_irrefl _)
  · exact ⟨_, step_reset (s := { s with image := m, response := r }) hc hi, rfl, .inr (.inr ⟨rfl, rfl⟩)⟩
  · rw [step_request (s := { s with image := m, response := r }) hc hi]
    exact ⟨_, performInputRequest_halted (s := { s with image := m, response := r }) hh req, rfl,
      .inl ⟨rfl, rfl⟩⟩
  · exact absurd htook (lt_irrefl _)
  · rw [step_request (s := { s with image := m, response := r }) hc hi]
    exact ⟨_, performInputRequest_raises (s := { s with image := m, response := r }) hh hs, rfl,
      .inl ⟨rfl, rfl⟩⟩
  · exact absurd htook (lt_irrefl _)
  · rw [step_request (s := { s with image := m, response := r }) hc hi,
      performInputRequest_runs (s := { s with image := m, response := r }) hh hs]
    obtain ⟨t', he', halike, himage⟩ := exec_ignores_image m he
    have ht' : t'.response = some answer := by rw [halike]; exact ht
    have haccept : ({ s with image := m, response := r } : State).accept left =
      { s.accept left with image := m } := rfl
    refine ⟨t', ?_, halike, himage⟩
    rw [haccept, he', settle, ht']
    rfl
end

section
/-! # Proofs: the image and its pointer

What a step does to `img_ptr` and the image, said once (`image_does`); the invariant of the written bytes and the
count of the words since reset follow from it. -/

namespace Sys2Proof.Machine

open Sys2Proof

/-! ## What a step does to the image -/

/-- What a step does to `img_ptr` and the image, with the word of its `Ok` response (R31, R47, R52, R220). -/
inductive ImageDoes (s t : State) : Prop where
  | stays : (∀ later, s.inputs ≠ .reset :: later) → t.imgPtr = s.imgPtr → t.image = s.image →
      okWord s t = none → ImageDoes s t
  | restarts (later : List Input) : s.inputs = .reset :: later → t.imgPtr = s.cfg.imageBase →
      t.image = [] → okWord s t = none → ImageDoes s t
  | grows (req : Request) (later : List Input) (i : Instr) : s.inputs = .request req :: later →
      i.wf = true → i.rowFits s.cfg = true → s.hasRoom = true → t.imgPtr = s.imgPtr + 4 →
      t.image = s.image.writeWord s.imgPtr (encodeWith s.cfg i) →
      okWord s t = some (encodeWith s.cfg i) → ImageDoes s t

theorem image_does {s t : State} (h : step s = .next t) : ImageDoes s t := by
  cases step_does h with
  | keeps hi => exact .stays hi rfl rfl (by simp [okWord])
  | resets later hi => exact .restarts later hi rfl rfl (by simp [okWord, hi])
  | answersHalted req later hi =>
    exact .stays (by simp [hi]) rfl rfl (by simp [okWord, hi])
  | faults req later info _ _ _ hi =>
    exact .stays (by simp [hi]) rfl rfl (by simp [okWord, hi])
  | emits req later i _ _ _ hi _ _ _ hwf hfit hr =>
    exact .grows req later i hi hwf hfit hr rfl rfl (by simp [okWord, hi])

theorem okWords_stays {s t : State} {words : List Word} (hi : ∀ later, s.inputs ≠ .reset :: later)
    (hw : okWord s t = none) : okWords s t words = words := by
  unfold okWords
  split
  · exact absurd ‹_› (hi _)
  · simp [hw]
  · rfl

theorem okWords_restarts {s t : State} {words : List Word} {later : List Input}
    (hi : s.inputs = .reset :: later) : okWords s t words = [] := by
  rw [okWords, hi]

theorem okWords_grows {s t : State} {words : List Word} {req : Request} {later : List Input}
    {w : Word} (hi : s.inputs = .request req :: later) (hw : okWord s t = some w) :
    okWords s t words = words ++ [w] := by
  rw [okWords, hi, hw]; rfl

/-! ## Reads of the image -/

/-- The four bytes of a word reassemble to it (R46, R48). -/
theorem reassemble_bytes (w : Word) :
    reassemble (w.extractLsb' 0 8) (w.extractLsb' 8 8) (w.extractLsb' 16 8) (w.extractLsb' 24 8) =
      w := by
  have hor : ∀ b0 b1 b2 b3 : Byte, reassemble b0 b1 b2 b3 = b3 ++ b2 ++ b1 ++ b0 := by
    intro b0 b1 b2 b3
    ext k hk
    simp only [reassemble, BitVec.getElem_or, BitVec.getElem_shiftLeft, BitVec.getElem_setWidth]
    grind
  rw [hor]
  apply BitVec.eq_of_toNat_eq
  simp only [toNat_append_add, toNat_extract]
  omega

/-- Four readable bytes are a readable word. -/
theorem readWord_ok {s : State} {a : Nat} {b0 b1 b2 b3 : Byte} (h0 : s.readImage a = .ok b0)
    (h1 : s.readImage (a + 1) = .ok b1) (h2 : s.readImage (a + 2) = .ok b2)
    (h3 : s.readImage (a + 3) = .ok b3) : s.readWord a = .ok (reassemble b0 b1 b2 b3) := by
  rw [State.readWord, h0, h1, h2, h3]

theorem readImage_ok_iff {s : State} {a : Nat} {b : Byte} : s.readImage a = .ok b ↔
    (s.cfg.imageBase ≤ a ∧ a < s.cfg.imageBase + s.cfg.imageBytes) ∧ s.image.read a = some b := by
  have hin : s.inImage a = true ↔
      s.cfg.imageBase ≤ a ∧ a < s.cfg.imageBase + s.cfg.imageBytes := by simp [State.inImage]
  rw [← hin, State.readImage]
  cases s.inImage a <;> cases s.image.read a <;> simp

/-- A read of a byte looks at the parameters and that byte alone. -/
theorem readImage_congr {s t : State} {a : Nat} (hc : t.cfg = s.cfg)
    (h : t.image.read a = s.image.read a) : t.readImage a = s.readImage a := by
  unfold State.readImage State.inImage
  rw [hc, h]

/-- A read of a word looks at the parameters and its four bytes alone. -/
theorem readWord_congr {s t : State} {a : Nat} (hc : t.cfg = s.cfg)
    (h : ∀ x, x < a + 4 → t.image.read x = s.image.read x) : t.readWord a = s.readWord a := by
  have hbyte : ∀ x, x < a + 4 → t.readImage x = s.readImage x := fun x hx => readImage_congr hc (h x hx)
  simp only [State.readWord, hbyte a (by omega), hbyte (a + 1) (by omega), hbyte (a + 2) (by omega),
    hbyte (a + 3) (by omega)]

/-- A word that was written inside the image is read back (R47, R48). -/
theorem readWord_written {s t : State} {w : Word} (himage : t.image = s.image.writeWord s.imgPtr w)
    (hbase : t.cfg.imageBase ≤ s.imgPtr)
    (hroom : s.imgPtr + 4 ≤ t.cfg.imageBase + t.cfg.imageBytes) : t.readWord s.imgPtr = .ok w := by
  have hbyte : ∀ k < 4, t.readImage (s.imgPtr + k) = .ok (w.extractLsb' (8 * k) 8) := by
    intro k hk
    refine readImage_ok_iff.mpr ⟨by omega, ?_⟩
    rw [himage, read_writeWord]
    interval_cases k <;> simp
  have h := readWord_ok (hbyte 0 (by decide)) (hbyte 1 (by decide)) (hbyte 2 (by decide))
    (hbyte 3 (by decide))
  exact h.trans (congrArg _ (reassemble_bytes w))

/-! ## The written bytes are those below the pointer -/

/-- Under `ImageInv` a byte holds a value exactly between `IMAGE_BASE` and `img_ptr` (R29, R53). -/
theorem written_iff {s : State} (hp : PtrInv s) (hi : ImageInv s) (a : Nat) :
    (s.image.read a).isSome = true ↔ s.cfg.imageBase ≤ a ∧ a < s.imgPtr := by
  have hbase := hp.1
  rw [read_isSome_iff, hi, List.mem_range'_1]
  omega

theorem unwritten_from_pointer {s : State} (hp : PtrInv s) (hi : ImageInv s) {a : Nat}
    (ha : s.imgPtr ≤ a) : s.image.read a = none := by
  rw [← Option.not_isSome_iff_eq_none, written_iff hp hi]
  omega

/-- Writing the next word appends its four addresses to the written ones. -/
theorem addresses_writeWord {s : State} (hp : PtrInv s) (hi : ImageInv s) (w : Word) :
    (s.image.writeWord s.imgPtr w).map Prod.fst =
      List.range' s.cfg.imageBase (s.imgPtr + 4 - s.cfg.imageBase) := by
  have hbase := hp.1
  have hbelow : ∀ c ∈ s.image, c.1 < s.imgPtr := by
    intro c hc
    have hmem := List.mem_map_of_mem (f := Prod.fst) hc
    rw [hi, List.mem_range'_1] at hmem
    omega
  have hptr : s.imgPtr = s.cfg.imageBase + 1 * (s.imgPtr - s.cfg.imageBase) := by omega
  have hlen : s.imgPtr + 4 - s.cfg.imageBase = (s.imgPtr - s.cfg.imageBase) + 4 := by omega
  calc (s.image.writeWord s.imgPtr w).map Prod.fst
      = s.image.map Prod.fst ++ List.range' s.imgPtr 4 := writeBytes_above (serialize w) hbelow
    _ = List.range' s.cfg.imageBase (s.imgPtr - s.cfg.imageBase) ++
          List.range' (s.cfg.imageBase + 1 * (s.imgPtr - s.cfg.imageBase)) 4 := by rw [hi, ← hptr]
    _ = List.range' s.cfg.imageBase (s.imgPtr + 4 - s.cfg.imageBase) := by
        rw [List.range'_append, hlen]

theorem step_keeps_ptrInv {s t : State} (h : step s = .next t) (hp : PtrInv s) : PtrInv t := by
  have hc := step_keeps_cfg h
  obtain ⟨hbase, hmod, htop⟩ := hp
  cases image_does h with
  | stays _ hptr => simp only [PtrInv, hc, hptr]; exact ⟨hbase, hmod, htop⟩
  | restarts _ _ hptr => simp [PtrInv, hc, hptr]
  | grows _ _ _ _ _ _ hr hptr =>
    have hroom := (hasRoom_iff s).mp hr
    simp only [PtrInv, hc, hptr]
    omega

theorem step_keeps_imageInv {s t : State} (h : step s = .next t) (hp : PtrInv s)
    (hi : ImageInv s) : ImageInv t := by
  have hc := step_keeps_cfg h
  cases image_does h with
  | stays _ hptr himage => simp only [ImageInv, hc, hptr, himage]; exact hi
  | restarts _ _ hptr himage => simp [ImageInv, hc, hptr, himage]
  | grows _ _ i _ _ _ _ hptr himage =>
    simp only [ImageInv, hc, hptr, himage]
    exact addresses_writeWord hp hi (encodeWith s.cfg i)

/-- The word of an `Ok` response is read back at the old pointer (R48). -/
theorem step_readWord_new {s t : State} (h : step s = .next t) (hp : PtrInv s) {w : Word}
    (hw : okWord s t = some w) : t.readWord s.imgPtr = .ok w := by
  have hc := step_keeps_cfg h
  cases image_does h with
  | stays _ _ _ hnone => rw [hnone] at hw; cases hw
  | restarts _ _ _ _ hnone => rw [hnone] at hw; cases hw
  | grows _ _ i _ _ _ hr _ himage hsome =>
    rw [hsome] at hw; cases hw
    exact readWord_written himage (hc ▸ hp.1) (hc ▸ (hasRoom_iff s).mp hr)

/-- A step that is no reset leaves every byte below the pointer (R54). -/
theorem step_keeps_bytes_below {s t : State} (h : step s = .next t)
    (hi : ∀ later, s.inputs ≠ .reset :: later) {a : Nat} (ha : a < s.imgPtr) :
    t.image.read a = s.image.read a := by
  cases image_does h with
  | stays _ _ himage => rw [himage]
  | restarts later hreset => exact absurd hreset (hi later)
  | grows _ _ _ _ _ _ _ _ himage => rw [himage]; exact read_writeBytes_other _ _ _ _ (.inl ha)

/-- A step that is no reset leaves every word below the pointer (R54). -/
theorem step_keeps_words_below {s t : State} (h : step s = .next t)
    (hi : ∀ later, s.inputs ≠ .reset :: later) {a : Nat} (ha : a + 4 ≤ s.imgPtr) :
    t.readWord a = s.readWord a :=
  readWord_congr (step_keeps_cfg h) fun _ hx => step_keeps_bytes_below h hi (by omega)

/-! ## The words since reset -/

/-- The image holds exactly `words`, in order from `IMAGE_BASE` on. -/
structure HoldsWords (s : State) (words : List Word) : Prop where
  ptr : PtrInv s
  image : ImageInv s
  count : s.imgPtr = s.cfg.imageBase + 4 * words.length
  reads : ∀ k w, words[k]? = some w → s.readWord (s.cfg.imageBase + 4 * k) = .ok w

theorem holdsWords_reset (cfg : Config) (inputs : List Input) (draws : List Int)
    (sinkOk : List Bool) : HoldsWords (State.resetWith cfg inputs draws sinkOk) [] where
  ptr := by simp [PtrInv]
  image := by simp [ImageInv]
  count := rfl
  reads k w hk := by simp at hk

/-- The pointer goes on counting the words of the `Ok` responses (R31, R213). -/
theorem step_keeps_count {s t : State} {words : List Word} (h : step s = .next t)
    (hcount : s.imgPtr = s.cfg.imageBase + 4 * words.length) :
    t.imgPtr = t.cfg.imageBase + 4 * (okWords s t words).length := by
  have hc := step_keeps_cfg h
  cases image_does h with
  | stays hi hptr _ hnone => rw [okWords_stays hi hnone, hc, hptr, hcount]
  | restarts later hi hptr => rw [okWords_restarts hi, hc, hptr]; rfl
  | grows req later i hi _ _ _ hptr _ hsome =>
    rw [okWords_grows hi hsome, hc, hptr, hcount, List.length_append]
    simp only [List.length_singleton]
    omega

theorem step_keeps_holdsWords {s t : State} {words : List Word} (h : step s = .next t)
    (hs : HoldsWords s words) : HoldsWords t (okWords s t words) := by
  refine ⟨step_keeps_ptrInv h hs.ptr, step_keeps_imageInv h hs.ptr hs.image,
    step_keeps_count h hs.count, ?_⟩
  have hcount := hs.count
  have hold : (∀ later, s.inputs ≠ .reset :: later) → ∀ k w, words[k]? = some w →
      t.readWord (t.cfg.imageBase + 4 * k) = .ok w := by
    intro hi k w hk
    obtain ⟨hlt, -⟩ := List.getElem?_eq_some_iff.mp hk
    rw [step_keeps_cfg h, step_keeps_words_below h hi (by omega)]
    exact hs.reads k w hk
  cases image_does h with
  | stays hi _ _ hnone => rw [okWords_stays hi hnone]; exact hold hi
  | restarts later hi => rw [okWords_restarts hi]; intro k w hk; simp at hk
  | grows req later i hi _ _ _ _ _ hsome =>
    rw [okWords_grows hi hsome]
    intro k w hk
    rcases Nat.lt_or_ge k words.length with hlt | hge
    · rw [List.getElem?_append_left hlt] at hk
      exact hold (by simp [hi]) k w hk
    · obtain ⟨hlt, hw⟩ := List.getElem?_eq_some_iff.mp hk
      obtain rfl : k = words.length := by simp at hlt; omega
      have hnew : w = encodeWith s.cfg i := by simpa using hw.symm
      rw [step_keeps_cfg h, ← hcount, hnew]
      exact step_readWord_new h hs.ptr hsome

/-- On every reachable state the image holds the words of the `Ok` responses since reset. -/
theorem reaches_holdsWords {s : State} {words : List Word} (h : Reaches s words) :
    HoldsWords s words := by
  induction h with
  | start cfg inputs draws sinkOk _ => exact holdsWords_reset cfg inputs draws sinkOk
  | arrive s words inputs draws sinkOk _ ih => exact ⟨ih.ptr, ih.image, ih.count, ih.reads⟩
  | step s t words _ h ih => exact step_keeps_holdsWords h ih

end Sys2Proof.Machine

open Sys2Proof Sys2Proof.Machine Sys2Proof.Spec

/-- Settles O37: the step lemma case by case on what a step does to the image, the count on reachable states
by the invariant `HoldsWords`. -/
theorem pointerCountsOkResponses : Obligations.PointerCountsOkResponses := by
  refine ⟨fun s t h => ?_, fun s words h => ?_, fun _ _ _ _ => rfl⟩
  · cases image_does h with
    | stays _ hptr _ hnone => exact .inr (.inr ⟨by simp [answeredOk, hnone], hptr⟩)
    | restarts later hi hptr => exact .inr (.inl ⟨⟨later, hi⟩, hptr⟩)
    | grows _ _ _ _ _ _ _ hptr _ hsome => exact .inl ⟨by simp [answeredOk, hsome], hptr⟩
  · have hcount := (reaches_holdsWords h).count
    exact ⟨hcount, by omega⟩

/-- Settles O55: the three parts of `image_does` under the invariant of the written bytes. -/
theorem stepKeepsImageBelowPointer : Obligations.StepKeepsImageBelowPointer := by
  intro s t hp hi h
  refine ⟨step_keeps_ptrInv h hp, step_keeps_imageInv h hp hi, fun w hw => ?_, fun hnone => ?_⟩
  · have hreq : ∀ later, s.inputs ≠ .reset :: later := by
      cases image_does h with
      | stays hreq => exact hreq
      | restarts _ _ _ _ hnone => rw [hnone] at hw; cases hw
      | grows _ _ _ hreq => simp [hreq]
    exact ⟨unwritten_from_pointer hp hi le_rfl, step_readWord_new h hp hw,
      fun a ha => step_keeps_bytes_below h hreq ha⟩
  · cases image_does h with
    | stays _ _ himage => exact .inl himage
    | restarts later hreset _ himage => exact .inr ⟨himage, later, hreset⟩
    | grows _ _ _ _ _ _ _ _ _ hsome => rw [hsome] at hnone; cases hnone

/-- Settles O38: the parts of the invariant `HoldsWords`; a byte is readable exactly below the pointer. -/
theorem reachableImageIsThePrefix : Obligations.ReachableImageIsThePrefix := by
  intro s words h
  obtain ⟨hp, hi, hcount, hreads⟩ := reaches_holdsWords h
  refine ⟨?_, hreads, fun a => ?_, fun a => unwritten_from_pointer hp hi⟩
  · rw [State.wordsEmitted, hcount]; omega
  · have ⟨_, _, htop⟩ := hp
    have hwritten := written_iff hp hi a
    simp only [readImage_ok_iff, exists_and_left, ← Option.isSome_iff_exists, hwritten]
    omega
end

section
/-! # Proofs: a word belongs to one instruction

Under a structured configuration at most one catalog row selects a word, so the word of a legal instruction
decodes to it; injectivity of the encoding and the invariant of the block follow. -/

namespace Sys2Proof

open Sys2Proof.Machine

/-! ## The patterns of a structured configuration, row by row -/

/-- The patterns of a configuration are those of its catalog rows, in order (R89). -/
theorem patterns_eq_rows (c : Config) : c.patterns = catalogRows.map (Instr.pattern c) := by
  have expand : ∀ {α : Type} {n : Nat} (v : Vector α n),
      v.toList = List.ofFn fun k : Fin n => v[k] := by
    intro α n v
    apply List.ext_getElem <;> simp
  simp [Config.patterns, catalogRows, Instr.pattern, expand, List.ofFn_succ]

/-- Two different rows of a structured configuration that fit have disjoint patterns (R38). -/
theorem rows_pairwise_disjoint {c : Config} (h : c.disambiguated = true) :
    catalogRows.Pairwise fun i j => ∀ p, i.pattern c = some p → ∀ q, j.pattern c = some q →
      p.disjoint q = true := by
  rw [Config.disambiguated, pairwiseDisjoint_iff, List.pairwise_filterMap, patterns_eq_rows,
    List.pairwise_map] at h
  exact h

theorem selectedBy_iff {c : Config} {w : Word} {i : Instr} : i.selectedBy c w = true ↔
    ∃ p, i.pattern c = some p ∧ p.selects w = true := by
  unfold Instr.selectedBy
  cases i.pattern c <;> simp

/-- At most one row of a structured configuration selects a word: of the selecting rows no two stand in a
list (R38). -/
theorem selecting_rows_le_one {c : Config} (h : c.disambiguated = true) (w : Word) :
    (catalogRows.filter (Instr.selectedBy c w)).Pairwise fun _ _ => False := by
  rw [List.pairwise_filter]
  refine (rows_pairwise_disjoint h).imp fun {i j} hdisj hi hj => ?_
  obtain ⟨p, hp, hpw⟩ := selectedBy_iff.mp hi
  obtain ⟨q, hq, hqw⟩ := selectedBy_iff.mp hj
  rw [not_both_select (hdisj p hp q hq) w hpw] at hqw
  cases hqw

/-- Decode answers a row that selects the word (R136). -/
theorem decode_of_selects {c : Config} (h : c.disambiguated = true) {w : Word} {row : Instr}
    (hmem : row ∈ catalogRows) (hsel : row.selectedBy c w = true) :
    decode c w = .row (decodeFields row w) := by
  have hin : row ∈ catalogRows.filter (Instr.selectedBy c w) := List.mem_filter.mpr ⟨hmem, hsel⟩
  have hone := selecting_rows_le_one h w
  unfold decode
  match hf : catalogRows.filter (Instr.selectedBy c w) with
  | [] => rw [hf] at hin; cases hin
  | [row'] => rw [hf, List.mem_singleton] at hin; rw [hin]
  | _ :: _ :: _ =>
    rw [hf] at hone
    exact (List.rel_of_pairwise_cons hone List.mem_cons_self).elim

/-- The catalog row of an instruction: the instruction with 0 at every operand. -/
theorem catalogRow_of (i : Instr) : ∃ row ∈ catalogRows,
    (∀ c, row.pattern c = i.pattern c) ∧ ∀ w, decodeFields row w = decodeFields i w := by
  have hd : rdOf 0#32 = 0 := by decide
  have h1 : rs1Of 0#32 = 0 := by decide
  have h2 : rs2Of 0#32 = 0 := by decide
  have hI : immIOf 0#32 = 0 := by decide
  have hsh : shamtOf 0#32 = 0 := by decide
  have hS : immSOf 0#32 = 0 := by decide
  have hB : immBOf 0#32 = 0 := by decide
  have hU : immUOf 0#32 = 0 := by decide
  have hJ : immJOf 0#32 = 0 := by decide
  refine ⟨decodeFields i 0#32, ?_, fun c => ?_, fun w => ?_⟩
  · cases i <;>
      simp [decodeFields, fieldsR, fieldsI, fieldsShift, fieldsS, fieldsB, fieldsU, fieldsJ, hd, h1,
        h2, hI, hsh, hS, hB, hU, hJ, catalogRows]
  · cases i <;> rfl
  · cases i <;> rfl

/-- The word of a legal instruction carries its operands (R84). -/
theorem decodeFields_encodeWith {i : Instr} (h : i.wf = true) (c : Config) :
    decodeFields i (encodeWith c i) = i := by
  revert h c
  show Laws.Fields.Statement i
  cases i with
  | add => exact Laws.Fields.add _ _ _
  | sub => exact Laws.Fields.sub _ _ _
  | and => exact Laws.Fields.and _ _ _
  | or => exact Laws.Fields.or _ _ _
  | xor => exact Laws.Fields.xor _ _ _
  | sll => exact Laws.Fields.sll _ _ _
  | srl => exact Laws.Fields.srl _ _ _
  | sra => exact Laws.Fields.sra _ _ _
  | addi => exact Laws.Fields.addi _ _ _
  | andi => exact Laws.Fields.andi _ _ _
  | ori => exact Laws.Fields.ori _ _ _
  | xori => exact Laws.Fields.xori _ _ _
  | slli => exact Laws.Fields.slli _ _ _
  | srli => exact Laws.Fields.srli _ _ _
  | jalr => exact Laws.Fields.jalr _ _ _
  | lb => exact Laws.Fields.lb _ _ _
  | lh => exact Laws.Fields.lh _ _ _
  | lw => exact Laws.Fields.lw _ _ _
  | lbu => exact Laws.Fields.lbu _ _ _
  | lhu => exact Laws.Fields.lhu _ _ _
  | sb => exact Laws.Fields.sb _ _ _
  | sh => exact Laws.Fields.sh _ _ _
  | sw => exact Laws.Fields.sw _ _ _
  | beq => exact Laws.Fields.beq _ _ _
  | bne => exact Laws.Fields.bne _ _ _
  | blt => exact Laws.Fields.blt _ _ _
  | bge => exact Laws.Fields.bge _ _ _
  | bltu => exact Laws.Fields.bltu _ _ _
  | bgeu => exact Laws.Fields.bgeu _ _ _
  | lui => exact Laws.Fields.lui _ _
  | auipc => exact Laws.Fields.auipc _ _
  | jal => exact Laws.Fields.jal _ _
  | ecall => exact Laws.Fields.ecall
  | ebreak => exact Laws.Fields.ebreak
  | fence => exact Laws.Fields.fence
  | fenceTso => exact Laws.Fields.fenceTso
  | pause => exact Laws.Fields.pause

/-- The word of a legal instruction of a structured configuration decodes to it (R84, R91). -/
theorem decode_encodeWith {c : Config} {i : Instr} (hc : c.structured = true) (hwf : i.wf = true)
    (hfit : i.rowFits c = true) : decode c (encodeWith c i) = .row i := by
  obtain ⟨-, hkinds, -, hdisamb, -⟩ := structured_parts hc
  obtain ⟨row, hmem, hpattern, hfields⟩ := catalogRow_of i
  have hsel : row.selectedBy c (encodeWith c i) = true := by
    have hown := selectedBy_own hkinds hfit
    rwa [Instr.selectedBy, ← hpattern c] at hown
  rw [decode_of_selects hdisamb hmem hsel, hfields, decodeFields_encodeWith hwf]

end Sys2Proof

namespace Sys2Proof.Machine

open Sys2Proof

/-- Every step keeps the words of the image words of the catalog: an old one stays where it is, the new one
is the word of a legal instruction (R54, R91). -/
theorem step_keeps_wordsInv {s t : State} (h : step s = .next t) (hs : Inv s) : WordsInv t := by
  obtain ⟨hstruct, hp, hi, hwords⟩ := hs
  have hc := step_keeps_cfg h
  have hold : (∀ later, s.inputs ≠ .reset :: later) → ∀ k, s.cfg.imageBase + 4 * k + 4 ≤ s.imgPtr →
      ∃ w i, t.readWord (s.cfg.imageBase + 4 * k) = .ok w ∧ i.wf = true ∧ decode s.cfg w = .row i := by
    intro hreq k hk
    rw [step_keeps_words_below h hreq hk]
    exact hwords k hk
  intro k hk
  rw [hc] at hk ⊢
  cases image_does h with
  | stays hreq hptr => exact hold hreq k (hptr ▸ hk)
  | restarts _ _ hptr => omega
  | grows req later i hreq hwf hfit _ hptr _ hsome =>
    have ⟨_, hmod, _⟩ := hp
    rcases Nat.lt_or_ge (s.cfg.imageBase + 4 * k) s.imgPtr with hlt | hge
    · exact hold (by simp [hreq]) k (by omega)
    · have heq : s.cfg.imageBase + 4 * k = s.imgPtr := by omega
      rw [heq]
      exact ⟨encodeWith s.cfg i, i, step_readWord_new h hp hsome, hwf,
        decode_encodeWith hstruct hwf hfit⟩

end Sys2Proof.Machine

open Sys2Proof Sys2Proof.Machine Sys2Proof.Spec

/-- Settles O39: the four parts of the invariant are kept one by one. -/
theorem stepKeepsInvariant : Obligations.StepKeepsInvariant := by
  intro s t hs h
  have hwords := step_keeps_wordsInv h hs
  obtain ⟨hstruct, hp, hi, -⟩ := hs
  exact ⟨(step_keeps_cfg h).symm ▸ hstruct, step_keeps_ptrInv h hp, step_keeps_imageInv h hp hi, hwords⟩

/-- Settles O45: one word decodes to one instruction. -/
theorem wordsAreDistinct : Obligations.WordsAreDistinct := by
  intro c i j hc hi hj fi fj heq
  have hdecode := decode_encodeWith hc hi fi
  rw [heq, decode_encodeWith hc hj fj] at hdecode
  exact (DecodeVerdict.row.inj hdecode).symm
end

section
/-! # Proofs: values made too wide for their fields

Making values of a structured configuration too wide for their fields (`MalformedFrom`) keeps it structured: each
check of `Config.structured` is asked of values that fit, and every value that still fits is the old one. -/

namespace Sys2Proof

open Sys2Proof.Machine Sys2Proof.Spec

/-! ## Checks over lists that correspond element by element -/

section lists
variable {α β : Type} {T : α → α → Prop}

theorem exists_old_of_mem_new {l l' : List α} (h : List.Forall₂ T l l') {y : α} (hy : y ∈ l') :
    ∃ x ∈ l, T x y := by
  induction h with
  | nil => cases hy
  | cons hxy _ ih =>
    rcases List.mem_cons.mp hy with rfl | hy
    · exact ⟨_, List.mem_cons_self, hxy⟩
    · obtain ⟨x, hx, hT⟩ := ih hy
      exact ⟨x, List.mem_cons_of_mem _ hx, hT⟩

theorem pairwise_of_forall₂ {R : α → α → Prop} {l l' : List α} (h : List.Forall₂ T l l')
    (hl : l.Pairwise R) (hR : ∀ x y x' y', T x x' → T y y' → R x y → R x' y') : l'.Pairwise R := by
  induction h with
  | nil => exact .nil
  | cons hxy htail ih =>
    obtain ⟨hhead, hrest⟩ := List.pairwise_cons.mp hl
    refine List.pairwise_cons.mpr ⟨fun y' hy' => ?_, ih hrest⟩
    obtain ⟨y, hy, hT⟩ := exists_old_of_mem_new htail hy'
    exact hR _ _ _ _ hxy hT (hhead y hy)

theorem all_all_of_forall₂ {p : α → α → Bool} {l l' m m' : List α} (hl : List.Forall₂ T l l')
    (hm : List.Forall₂ T m m') (h : l.all (fun x => m.all (p x)) = true)
    (hp : ∀ x y x' y', T x x' → T y y' → p x y = true → p x' y' = true) :
    l'.all (fun x => m'.all (p x)) = true := by
  simp only [List.all_eq_true] at h ⊢
  intro x' hx' y' hy'
  obtain ⟨x, hx, hxT⟩ := exists_old_of_mem_new hl hx'
  obtain ⟨y, hy, hyT⟩ := exists_old_of_mem_new hm hy'
  exact hp _ _ _ _ hxT hyT (h x hx y hy)

theorem forall₂_map_of_imp {S : β → β → Prop} {f : β → α} {l l' : List β}
    (h : List.Forall₂ S l l') (hf : ∀ x x', S x x' → T (f x) (f x')) :
    List.Forall₂ T (l.map f) (l'.map f) := by
  rw [List.forall₂_map_left_iff, List.forall₂_map_right_iff]
  exact h.imp hf

end lists

/-! ## One value -/

/-- The new value of an `n`-bit field is the old one or does not fit. -/
def Widened (n : Nat) (v v' : Int) : Prop := v' = v ∨ fitsField v' n .unsigned = false

theorem Widened.refl (n : Nat) (v : Int) : Widened n v v := .inl rfl

/-- A new value that fits is the old one. -/
theorem Widened.eq_of_fits {n : Nat} {v v' : Int} (h : Widened n v v')
    (hfit : fitsField v' n .unsigned = true) : v' = v := by
  rcases h with h | h
  · exact h
  · rw [h] at hfit; cases hfit

theorem sameWhereFit_widened {n : Nat} {v w v' w' : Int} (hv : Widened n v v') (hw : Widened n w w')
    (h : sameWhereFit n v w = true) : sameWhereFit n v' w' = true := by
  refine sameWhereFit_iff.mpr fun fv fw => ?_
  obtain rfl := hv.eq_of_fits fv
  obtain rfl := hw.eq_of_fits fw
  exact sameWhereFit_iff.mp h fv fw

theorem differWhereFit_widened {n : Nat} {v w v' w' : Int} (hv : Widened n v v')
    (hw : Widened n w w') (h : differWhereFit n v w = true) : differWhereFit n v' w' = true := by
  refine differWhereFit_iff.mpr fun fv fw => ?_
  obtain rfl := hv.eq_of_fits fv
  obtain rfl := hw.eq_of_fits fw
  exact differWhereFit_iff.mp h fv fw

theorem allSameWhereFit_widened {n : Nat} {vs vs' : List Int} (hv : List.Forall₂ (Widened n) vs vs')
    (h : allSameWhereFit n vs = true) : allSameWhereFit n vs' = true :=
  all_all_of_forall₂ hv hv h fun _ _ _ _ => sameWhereFit_widened

theorem allDifferWhereFit_widened {n : Nat} {vs vs' : List Int}
    (hv : List.Forall₂ (Widened n) vs vs') (h : allDifferWhereFit n vs = true) :
    allDifferWhereFit n vs' = true :=
  allDifferWhereFit_iff.mpr
    (pairwise_of_forall₂ hv (allDifferWhereFit_iff.mp h) fun _ _ _ _ => differWhereFit_widened)

/-! ## The values of a row -/

theorem malforms_cons {v v' : Int} {n n' : Nat} {l l' : List (Int × Nat)} :
    Malforms ((v, n) :: l) ((v', n') :: l') ↔ n' = n ∧ Widened n v v' ∧ Malforms l l' := by
  simp only [Malforms, List.forall₂_cons, misfit_iff, Widened, Prod.mk.injEq]
  grind

theorem malforms_R {x y : RRow} (h : Malforms x.values y.values) : Widened 7 x.funct7 y.funct7 ∧
    Widened 3 x.funct3 y.funct3 ∧ Widened 7 x.opcode y.opcode := by
  simp only [RRow.values, malforms_cons] at h
  obtain ⟨-, h7, -, h3, -, ho, -⟩ := h
  exact ⟨h7, h3, ho⟩

theorem malforms_I {x y : IRow} (h : Malforms x.values y.values) :
    Widened 3 x.funct3 y.funct3 ∧ Widened 7 x.opcode y.opcode := by
  simp only [IRow.values, malforms_cons] at h
  obtain ⟨-, h3, -, ho, -⟩ := h
  exact ⟨h3, ho⟩

theorem malforms_funct {x y : FunctRow} (h : Malforms x.values y.values) :
    Widened 3 x.funct3 y.funct3 ∧ Widened 7 x.opcode y.opcode := by
  simp only [FunctRow.values, malforms_cons] at h
  obtain ⟨-, h3, -, ho, -⟩ := h
  exact ⟨h3, ho⟩

theorem malforms_opcode {x y : OpcodeRow} (h : Malforms x.values y.values) :
    Widened 7 x.opcode y.opcode := by
  simp only [OpcodeRow.values, malforms_cons] at h
  obtain ⟨-, ho, -⟩ := h
  exact ho

/-- Values that all fit are the old ones. -/
theorem malforms_eq_of_fits {l l' : List (Int × Nat)} (h : Malforms l l')
    (hfit : ∀ p ∈ l', fitsField p.1 p.2 .unsigned = true) : l' = l := by
  induction h with
  | nil => rfl
  | cons hp _ ih =>
    obtain ⟨hhead, htail⟩ := List.forall_mem_cons.mp hfit
    rw [ih htail]
    rcases hp with rfl | ⟨-, hmis⟩
    · rfl
    · rw [misfit_iff.mp hmis] at hhead; cases hhead

/-! ## Tables of rows -/

theorem functRowsOk_malformed {xs ys : List FunctRow}
    (hrows : List.Forall₂ (fun x y => Malforms (FunctRow.values x) y.values) xs ys)
    (hc : functRowsOk xs = true) : functRowsOk ys = true := by
  simp only [functRowsOk, Bool.and_eq_true] at hc ⊢
  obtain ⟨copcode, cfunct3⟩ := hc
  exact ⟨allSameWhereFit_widened (forall₂_map_of_imp hrows fun _ _ hxy => (malforms_funct hxy).2) copcode,
    allDifferWhereFit_widened (forall₂_map_of_imp hrows fun _ _ hxy => (malforms_funct hxy).1) cfunct3⟩

theorem functPairsDiffer_malformed {xs ys : List RRow}
    (hrows : List.Forall₂ (fun x y => Malforms (RRow.values x) y.values) xs ys)
    (hc : functPairsDiffer xs = true) : functPairsDiffer ys = true := by
  rw [functPairsDiffer_iff] at hc ⊢
  refine pairwise_of_forall₂ hrows hc fun _ _ _ _ hx hy hxy => ?_
  obtain ⟨x7, x3, -⟩ := malforms_R hx
  obtain ⟨y7, y3, -⟩ := malforms_R hy
  exact hxy.imp (differWhereFit_widened x7 y7) (differWhereFit_widened x3 y3)

/-! ## The tables of a malformed configuration -/

section tables
variable {c d : Config} (h : MalformedFrom c d)
include h

theorem malforms_rows_R :
    List.Forall₂ (fun x y => Malforms (RRow.values x) y.values) c.catalog.r.toList d.catalog.r.toList := by
  refine List.forall₂_iff_get.mpr ⟨by simp, fun k hk _ => ?_⟩
  have hrow : ∀ k (hk : k < 8), Malforms c.catalog.r[k].values d.catalog.r[k].values := by
    intro k hk
    interval_cases k
    exacts [h.values (.add 0 0 0), h.values (.sub 0 0 0), h.values (.and 0 0 0), h.values (.or 0 0 0),
      h.values (.xor 0 0 0), h.values (.sll 0 0 0), h.values (.srl 0 0 0), h.values (.sra 0 0 0)]
  simpa using hrow k (by simpa using hk)

theorem malforms_rows_S :
    List.Forall₂ (fun x y => Malforms (FunctRow.values x) y.values) c.catalog.s.toList
      d.catalog.s.toList := by
  refine List.forall₂_iff_get.mpr ⟨by simp, fun k hk _ => ?_⟩
  have hrow : ∀ k (hk : k < 3), Malforms c.catalog.s[k].values d.catalog.s[k].values := by
    intro k hk
    interval_cases k
    exacts [h.values (.sb 0 0 0), h.values (.sh 0 0 0), h.values (.sw 0 0 0)]
  simpa using hrow k (by simpa using hk)

theorem malforms_rows_B :
    List.Forall₂ (fun x y => Malforms (FunctRow.values x) y.values) c.catalog.b.toList
      d.catalog.b.toList := by
  refine List.forall₂_iff_get.mpr ⟨by simp, fun k hk _ => ?_⟩
  have hrow : ∀ k (hk : k < 6), Malforms c.catalog.b[k].values d.catalog.b[k].values := by
    intro k hk
    interval_cases k
    exacts [h.values (.beq 0 0 0), h.values (.bne 0 0 0), h.values (.blt 0 0 0), h.values (.bge 0 0 0),
      h.values (.bltu 0 0 0), h.values (.bgeu 0 0 0)]
  simpa using hrow k (by simpa using hk)

/-! ## The checks, one by one -/

theorem namesOk_malformed (hc : c.catalog.namesOk = true) : d.catalog.namesOk = true := by
  obtain ⟨hR, hI, hS, hB, hU, hJ⟩ := mnemonics_eq hc
  simp only [← h.mnemonics] at hR hI hS hB hU hJ
  simp only [Catalog.namesOk, Bool.and_eq_true, beq_iff_eq, and_assoc]
  exact ⟨hR, hI, hS, hB, hU, hJ⟩

theorem sysNamesOk_malformed (hc : c.sysNamesOk = true) : d.sysNamesOk = true := by
  have hsys : d.sysLiterals.toList.map (·.mnemonic) = c.sysLiterals.toList.map (·.mnemonic) :=
    h.mnemonics .SYS
  rw [Config.sysNamesOk, hsys]
  exact hc

theorem subKinds_malformed :
    d.catalog.i.toList.map (·.subKind) = c.catalog.i.toList.map (·.subKind) :=
  List.ext_getElem? h.subKinds

theorem subKindsOk_malformed (hc : c.catalog.subKindsOk = true) : d.catalog.subKindsOk = true := by
  rw [Catalog.subKindsOk, subKinds_malformed h]
  exact hc

theorem rOk_malformed (hc : c.catalog.rOk = true) : d.catalog.rOk = true := by
  have hrows := malforms_rows_R h
  have hsub := h.values (.sub 0 0 0)
  have hsrl := h.values (.srl 0 0 0)
  have hsra := h.values (.sra 0 0 0)
  have hplain : List.Forall₂ (fun x y => Malforms (RRow.values x) y.values)
      [c.catalog.r[0], c.catalog.r[2], c.catalog.r[3], c.catalog.r[4], c.catalog.r[5], c.catalog.r[6]]
      [d.catalog.r[0], d.catalog.r[2], d.catalog.r[3], d.catalog.r[4], d.catalog.r[5], d.catalog.r[6]] :=
    .cons (h.values (.add 0 0 0)) (.cons (h.values (.and 0 0 0)) (.cons (h.values (.or 0 0 0))
      (.cons (h.values (.xor 0 0 0)) (.cons (h.values (.sll 0 0 0)) (.cons hsrl .nil)))))
  simp only [Catalog.rOk, Bool.and_eq_true, and_assoc] at hc ⊢
  obtain ⟨copcode, cplain, calt, cdiffer, cshift, cpairs⟩ := hc
  exact ⟨allSameWhereFit_widened (forall₂_map_of_imp hrows fun _ _ hxy => (malforms_R hxy).2.2) copcode,
    allSameWhereFit_widened (forall₂_map_of_imp hplain fun _ _ hxy => (malforms_R hxy).1) cplain,
    sameWhereFit_widened (malforms_R hsub).1 (malforms_R hsra).1 calt,
    all_all_of_forall₂ hplain (.cons hsub (.cons hsra .nil)) cdiffer fun _ _ _ _ hx hy =>
      differWhereFit_widened (malforms_R hx).1 (malforms_R hy).1,
    sameWhereFit_widened (malforms_R hsrl).2.1 (malforms_R hsra).2.1 cshift,
    functPairsDiffer_malformed hrows cpairs⟩

theorem iOk_malformed (hc : c.catalog.iOk = true) : d.catalog.iOk = true := by
  refine all_all_of_forall₂ (T := fun x y => Malforms (IRow.values x) y.values) ?_ ?_ hc
    fun _ _ _ _ hx hy => differWhereFit_widened (malforms_I hx).2 (malforms_I hy).2
  · exact .cons (h.values (.lb 0 0 0)) (.cons (h.values (.lh 0 0 0)) (.cons (h.values (.lw 0 0 0))
      (.cons (h.values (.lbu 0 0 0)) (.cons (h.values (.lhu 0 0 0)) .nil))))
  · exact .cons (h.values (.addi 0 0 0)) (.cons (h.values (.andi 0 0 0)) (.cons (h.values (.ori 0 0 0))
      (.cons (h.values (.xori 0 0 0)) (.cons (h.values (.slli 0 0 0)) (.cons (h.values (.srli 0 0 0)) .nil)))))

theorem uOk_malformed (hc : c.catalog.uOk = true) : d.catalog.uOk = true :=
  differWhereFit_widened (malforms_opcode (h.values (.lui 0 0)))
    (malforms_opcode (h.values (.auipc 0 0))) hc

theorem fixedOk_malformed (hc : c.catalog.fixedOk = true) : d.catalog.fixedOk = true := by
  obtain ⟨radd7, radd3, raddop⟩ := malforms_R (h.values (.add 0 0 0))
  obtain ⟨iaddi3, iaddiop⟩ := malforms_I (h.values (.addi 0 0 0))
  simp only [Catalog.fixedOk, Bool.and_eq_true, and_assoc] at hc ⊢
  obtain ⟨c1, c2, c3, c4, c5⟩ := hc
  exact ⟨sameWhereFit_widened raddop (.refl _ _) c1, sameWhereFit_widened radd3 (.refl _ _) c2,
    sameWhereFit_widened radd7 (.refl _ _) c3, sameWhereFit_widened iaddiop (.refl _ _) c4,
    sameWhereFit_widened iaddi3 (.refl _ _) c5⟩

end tables

/-! ## The patterns -/

theorem RRow.pattern_congr {x y : RRow} (h : y.values = x.values) : y.pattern = x.pattern := by
  cases x; cases y
  simp only [RRow.values, List.cons.injEq, Prod.mk.injEq, and_true] at h
  obtain ⟨rfl, rfl, rfl⟩ := h
  rfl

theorem IRow.pattern_congr {x y : IRow} (h : y.values = x.values) (hk : y.subKind = x.subKind) :
    y.pattern = x.pattern := by
  cases x; cases y
  simp only [IRow.values, List.cons.injEq, Prod.mk.injEq, and_true] at h
  obtain ⟨rfl, rfl⟩ := h
  cases hk
  rfl

theorem FunctRow.pattern_congr {x y : FunctRow} (h : y.values = x.values) :
    y.pattern = x.pattern := by
  cases x; cases y
  simp only [FunctRow.values, List.cons.injEq, Prod.mk.injEq, and_true] at h
  obtain ⟨rfl, rfl⟩ := h
  rfl

theorem OpcodeRow.pattern_congr {x y : OpcodeRow} (h : y.values = x.values) :
    y.pattern = x.pattern := by
  cases x; cases y
  simp only [OpcodeRow.values, List.cons.injEq, Prod.mk.injEq, and_true] at h
  subst h
  rfl

theorem SysRow.pattern_congr {x y : SysRow} (h : y.values = x.values) : y.pattern = x.pattern := by
  cases x; cases y
  simp only [SysRow.values, List.cons.injEq, Prod.mk.injEq, and_true] at h
  subst h
  rfl

section tables
variable {c d : Config} (h : MalformedFrom c d)
include h

/-- A row of the malformed configuration has the old pattern, or none. -/
theorem pattern_malformed (i : Instr) : i.pattern d = i.pattern c ∨ i.pattern d = none := by
  cases hfit : i.rowFits d with
  | false => exact .inr (by simpa [Instr.rowFits] using hfit)
  | true =>
    left
    have hv := malforms_eq_of_fits (h.values i) (rowFits_iff.mp hfit)
    have hk : ∀ k (hk : k < 12), d.catalog.i[k].subKind = c.catalog.i[k].subKind := by
      intro k hk
      have hsub := h.subKinds k
      simpa [Config.subKindAt, hk] using hsub
    clear hfit
    cases i
    case add | sub | and | or | xor | sll | srl | sra => exact RRow.pattern_congr hv
    case addi | andi | ori | xori | slli | srli | jalr | lb | lh | lw | lbu | lhu =>
      exact IRow.pattern_congr hv (hk _ _)
    case sb | sh | sw | beq | bne | blt | bge | bltu | bgeu => exact FunctRow.pattern_congr hv
    case lui | auipc | jal => exact OpcodeRow.pattern_congr hv
    case ecall | ebreak | fence | fenceTso | pause => exact SysRow.pattern_congr hv

theorem patterns_malformed : (d.patterns.filterMap id).Sublist (c.patterns.filterMap id) := by
  simp only [patterns_eq_rows, List.filterMap_map, Function.id_comp]
  induction catalogRows with
  | nil => exact .slnil
  | cons i rows ih =>
    simp only [List.filterMap_cons]
    rcases pattern_malformed h i with hi | hi
    · rw [hi]
      cases i.pattern c with
      | none => exact ih
      | some p => exact ih.cons_cons p
    · rw [hi]
      cases i.pattern c with
      | none => exact ih
      | some p => exact ih.cons p

theorem disambiguated_malformed (hc : c.disambiguated = true) : d.disambiguated = true := by
  rw [Config.disambiguated, pairwiseDisjoint_iff] at hc ⊢
  exact hc.sublist (patterns_malformed h)

/-- Making values too wide for their fields keeps a configuration structured (R37, U16). -/
theorem structured_malformed (hc : c.structured = true) : d.structured = true := by
  simp only [Config.structured, Bool.and_eq_true, and_assoc] at hc ⊢
  obtain ⟨names, kinds, r, i, s, b, u, fixed, sys, disamb, aligned⟩ := hc
  exact ⟨namesOk_malformed h names, subKindsOk_malformed h kinds, rOk_malformed h r,
    iOk_malformed h i, functRowsOk_malformed (malforms_rows_S h) s,
    functRowsOk_malformed (malforms_rows_B h) b, uOk_malformed h u, fixedOk_malformed h fixed,
    sysNamesOk_malformed h sys, disambiguated_malformed h disamb,
    by rw [Config.baseAligned, h.base]; exact aligned⟩

end tables

end Sys2Proof

open Sys2Proof Sys2Proof.Machine Sys2Proof.Spec

/-- Settles O54: the malformed configuration is structured, so every step answers, and the selected row's
encoder raises the misfit. -/
theorem misfitValuesAreNotRefused : Obligations.MisfitValuesAreNotRefused := by
  intro c d hc hd
  have hstruct := structured_malformed hd hc
  refine ⟨hstruct, fun s hs => step_answers (hs ▸ hstruct), ?_⟩
  rintro s req later i left rfl hcause hi hsel hwf hmisfit
  have hh := (not_halted_iff s).mpr hcause
  obtain ⟨v, n, hmem, hv, hexec⟩ :=
    exec_misfit (s := s.accept left) hh hwf (rowFits_false_of_misfit hmisfit)
  refine ⟨takeFault (.codec (.packMisfit v n .unsigned)) (s.accept left), v, n, hmem, hv, ?_,
    rfl, rfl, rfl, fun _ => rfl⟩
  rw [step_request hstruct hi, performInputRequest_runs hh hsel, hexec]
  rfl
end

section
/-! # Proofs: the bytes of an emitted word

A step that answers `Ok` leaves what the statements call `Emitted` (`step_ok_emits`); the consumer's reads of the
word's bytes, halves and whole follow from it. -/

namespace Sys2Proof.Machine

open Sys2Proof Sys2Proof.Spec

/-! ## The four bytes of a word -/

/-- Each byte of a written word reads back at its place, byte0 first (R46, R47). -/
theorem read_writeWord_byte (m : Memory) (a : Nat) (w : Word) {k : Nat} (hk : k < 4) :
    (m.writeWord a w).read (a + k) = some (w.extractLsb' (8 * k) 8) := by
  have hbyte := read_writeBytes_same (serialize w) m a k hk
  interval_cases k <;> exact hbyte

/-- Two consecutive byte reads are a half-word read (R49). -/
theorem readHalf_ok {s : State} {a : Nat} {b0 b1 : Byte} (h0 : s.readImage a = .ok b0)
    (h1 : s.readImage (a + 1) = .ok b1) : s.readHalf a = .ok (b1 ++ b0) := by
  rw [State.readHalf, h0, h1]

/-! ## What an `Ok` response leaves -/

/-- The state `Ok` leaves is one whose image is the old one with the word at `img_ptr` (R47, R117). -/
theorem emitted_of_writeWord {s t : State} {w : Word} {asm : String}
    (hresponse : t.response = some (.ok w asm s.imgPtr)) (hptr : t.imgPtr = s.imgPtr + 4)
    (hcause : t.faultCause = .none) (himage : t.image = s.image.writeWord s.imgPtr w) :
    Emitted s w asm t where
  response := hresponse
  pointer := hptr
  cause := hcause
  byte0 := himage ▸ read_writeWord_byte _ _ w (k := 0) (by decide)
  byte1 := himage ▸ read_writeWord_byte _ _ w (k := 1) (by decide)
  byte2 := himage ▸ read_writeWord_byte _ _ w (k := 2) (by decide)
  byte3 := himage ▸ read_writeWord_byte _ _ w (k := 3) (by decide)
  others _ ha := himage ▸ read_writeBytes_other _ _ _ _ ha

/-- A step that takes an input and answers `Ok` had room for the word and emitted it at `img_ptr` (R117). -/
theorem step_ok_emits {s t : State} {w : Word} {asm : String} {a : Nat} (h : step s = .next t)
    (htook : TookInput s t) (hok : t.response = some (.ok w asm a)) :
    a = s.imgPtr ∧ s.hasRoom = true ∧ Emitted s w asm t := by
  cases step_does h with
  | keeps => exact absurd htook (lt_irrefl _)
  | resets => cases hok
  | answersHalted => cases hok
  | faults => cases hok
  | emits _ _ _ _ _ _ _ hh _ _ _ _ hr =>
    cases hok
    exact ⟨rfl, hr, emitted_of_writeWord rfl rfl ((not_halted_iff s).mp hh) rfl⟩

end Sys2Proof.Machine

open Sys2Proof Sys2Proof.Machine Sys2Proof.Spec

/-- Settles O34: the bytes of an emitted word are the extracted ones, which reassemble to it. -/
theorem emittedBytesReassemble : Obligations.EmittedBytesReassemble := by
  intro s t w asm a h htook hok
  obtain ⟨rfl, -, hemit⟩ := step_ok_emits h htook hok
  exact ⟨_, _, _, _, hemit.byte0, hemit.byte1, hemit.byte2, hemit.byte3, reassemble_bytes w⟩

/-- Settles O35: the pointer's invariant and the room put the four bytes inside the image, so each is readable,
and adjacent extracted bytes join to the extracted half. -/
theorem mixedWidthViews : Obligations.MixedWidthViews := by
  intro s t w asm a hp h htook hok
  obtain ⟨rfl, hr, hemit⟩ := step_ok_emits h htook hok
  have hbase : t.cfg.imageBase ≤ s.imgPtr := step_keeps_cfg h ▸ hp.1
  have hroom : s.imgPtr + 4 ≤ t.cfg.imageBase + t.cfg.imageBytes :=
    step_keeps_cfg h ▸ (hasRoom_iff s).mp hr
  have h0 := readImage_ok_iff.mpr ⟨by omega, hemit.byte0⟩
  have h1 := readImage_ok_iff.mpr ⟨by omega, hemit.byte1⟩
  have h2 := readImage_ok_iff.mpr ⟨by omega, hemit.byte2⟩
  have h3 := readImage_ok_iff.mpr ⟨by omega, hemit.byte3⟩
  refine ⟨(readHalf_ok h0 h1).trans (congrArg _ ?_), (readHalf_ok h2 h3).trans (congrArg _ ?_),
    (readWord_ok h0 h1 h2 h3).trans (congrArg _ (reassemble_bytes w))⟩
  · exact BitVec.extractLsb'_append_extractLsb'_eq_extractLsb' rfl
  · exact BitVec.extractLsb'_append_extractLsb'_eq_extractLsb' rfl

/-- Settles O36: of the things a step does with a request only `emits` writes, and it writes the whole word. -/
theorem allFourBytesOrNone : Obligations.AllFourBytesOrNone := by
  intro s t req later hi h
  cases step_does h with
  | keeps => exact .inr ⟨fun _ => rfl, .inr (.inr rfl)⟩
  | resets later' hreset => rw [hi] at hreset; cases hreset
  | answersHalted => exact .inr ⟨fun _ => rfl, .inr (.inl ⟨_, rfl⟩)⟩
  | faults => exact .inr ⟨fun _ => rfl, .inl ⟨_, _, rfl⟩⟩
  | emits _ _ _ _ _ _ _ hh =>
    exact .inl ⟨_, _, emitted_of_writeWord rfl rfl ((not_halted_iff s).mp hh) rfl⟩

/-- Settles O40: the image stays, is emptied, or gets a word, and `writeWord` keeps the canonical form. -/
theorem imageStaysCanonical : Obligations.ImageStaysCanonical := by
  refine ⟨fun s t hwf h => ?_, fun i s t hwf h => ?_⟩
  · cases image_does h with
    | stays _ _ himage => exact himage ▸ hwf
    | restarts _ _ _ himage => rw [himage]; rfl
    | grows _ _ _ _ _ _ _ _ himage => exact himage ▸ writeWord_wf hwf _ _
  · cases execDoes_of_next h with
    | answersHalted => exact hwf
    | faults => exact hwf
    | holds => exact hwf
    | emits => exact writeWord_wf hwf _ _

/-- Settles O53: the bytes are the extracted ranges, which `extractBits` reads and `writeWord` writes. -/
theorem serializeIsLittleEndian : Obligations.SerializeIsLittleEndian := by
  intro w
  refine ⟨_, _, _, _, rfl, ?_, ?_, ?_, ?_, reassemble_bytes w, fun m a => ⟨?_, ?_, ?_, ?_⟩⟩
  · exact extractBits_inside ⟨32, w⟩ (hi := 7) (lo := 0) (by decide) (by decide : 7 < 32)
  · exact extractBits_inside ⟨32, w⟩ (hi := 15) (lo := 8) (by decide) (by decide : 15 < 32)
  · exact extractBits_inside ⟨32, w⟩ (hi := 23) (lo := 16) (by decide) (by decide : 23 < 32)
  · exact extractBits_inside ⟨32, w⟩ (hi := 31) (lo := 24) (by decide) (by decide : 31 < 32)
  · exact read_writeWord_byte m a w (k := 0) (by decide)
  · exact read_writeWord_byte m a w (k := 1) (by decide)
  · exact read_writeWord_byte m a w (k := 2) (by decide)
  · exact read_writeWord_byte m a w (k := 3) (by decide)
end

section
/-! # Proofs: encode and decode agree

A word a row selects carries the row's codes in its fixed bits (R90), and its other bits are the fields `decode`
reads (R81, R135); putting both back in their places gives the word again. With `decode_encodeWith` this is the
whole agreement of the two directions. The immediate bits of each signed format are read off the layouts. -/

namespace Sys2Proof.Machine

open Sys2Proof

/-! ## Reading a field and packing it again -/

/-- Packing what was read unsigned gives the bits back (R13, R134). -/
@[simp] theorem trunc_zext {n : Nat} (p : BitVec n) : trunc n (zext p) = p := by
  simp [trunc, zext]

/-- Packing what was read signed gives the bits back (R13, R134). -/
@[simp] theorem trunc_sext {n : Nat} (p : BitVec n) : trunc n (sext p) = p := BitVec.ofInt_toInt

theorem zext_reg_range (p : BitVec 5) : 0 ≤ zext p ∧ zext p ≤ 31 := by
  have hlt := p.isLt
  simp only [zext]
  omega

theorem sext_imm12_range (p : BitVec 12) : -2048 ≤ sext p ∧ sext p ≤ 2047 := by
  have hle := p.le_toInt
  have hlt := p.toInt_lt
  simp only [sext]
  omega

theorem sext_imm20_range (p : BitVec 20) : -524288 ≤ sext p ∧ sext p ≤ 524287 := by
  have hle := p.le_toInt
  have hlt := p.toInt_lt
  simp only [sext]
  omega

/-- An offset with its implicit zero is twice the offset that is stored (R78, R80). -/
theorem sext_append_zero {n : Nat} (p : BitVec n) : sext (p ++ 0#1) = 2 * sext p :=
  BitVec.toInt_append_zero

/-! ## A word is its fields in their places -/

theorem join_six (w : Word) : w.extractLsb' 25 7 ++ w.extractLsb' 20 5 ++ w.extractLsb' 15 5 ++
    w.extractLsb' 12 3 ++ w.extractLsb' 7 5 ++ w.extractLsb' 0 7 = w := by
  apply BitVec.eq_of_toNat_eq; simp only [toNat_append_add, toNat_extract]; omega

theorem join_five (w : Word) : w.extractLsb' 20 12 ++ w.extractLsb' 15 5 ++ w.extractLsb' 12 3 ++
    w.extractLsb' 7 5 ++ w.extractLsb' 0 7 = w := by
  apply BitVec.eq_of_toNat_eq; simp only [toNat_append_add, toNat_extract]; omega

theorem join_eight (w : Word) : w.extractLsb' 31 1 ++ w.extractLsb' 25 6 ++ w.extractLsb' 20 5 ++
    w.extractLsb' 15 5 ++ w.extractLsb' 12 3 ++ w.extractLsb' 8 4 ++ w.extractLsb' 7 1 ++
    w.extractLsb' 0 7 = w := by
  apply BitVec.eq_of_toNat_eq; simp only [toNat_append_add, toNat_extract]; omega

theorem join_three (w : Word) :
    w.extractLsb' 12 20 ++ w.extractLsb' 7 5 ++ w.extractLsb' 0 7 = w := by
  apply BitVec.eq_of_toNat_eq; simp only [toNat_append_add, toNat_extract]; omega

theorem join_jump (w : Word) : w.extractLsb' 31 1 ++ w.extractLsb' 21 10 ++ w.extractLsb' 20 1 ++
    w.extractLsb' 12 8 ++ w.extractLsb' 7 5 ++ w.extractLsb' 0 7 = w := by
  apply BitVec.eq_of_toNat_eq; simp only [toNat_append_add, toNat_extract]; omega

/-! ## The pieces of a split immediate, as it is read -/

section branch
variable (a b : BitVec 1) (c : BitVec 6) (d : BitVec 4)

theorem offset13_12 : (a ++ b ++ c ++ d ++ 0#1 : BitVec 13).extractLsb' 12 1 = a := by
  apply BitVec.eq_of_toNat_eq; simp only [toNat_append_add, toNat_extract, BitVec.toNat_ofNat]; omega
theorem offset13_11 : (a ++ b ++ c ++ d ++ 0#1 : BitVec 13).extractLsb' 11 1 = b := by
  apply BitVec.eq_of_toNat_eq; simp only [toNat_append_add, toNat_extract, BitVec.toNat_ofNat]; omega
theorem offset13_10_5 : (a ++ b ++ c ++ d ++ 0#1 : BitVec 13).extractLsb' 5 6 = c := by
  apply BitVec.eq_of_toNat_eq; simp only [toNat_append_add, toNat_extract, BitVec.toNat_ofNat]; omega
theorem offset13_4_1 : (a ++ b ++ c ++ d ++ 0#1 : BitVec 13).extractLsb' 1 4 = d := by
  apply BitVec.eq_of_toNat_eq; simp only [toNat_append_add, toNat_extract, BitVec.toNat_ofNat]; omega
end branch

section jump
variable (a : BitVec 1) (b : BitVec 8) (c : BitVec 1) (d : BitVec 10)

theorem offset21_20 : (a ++ b ++ c ++ d ++ 0#1 : BitVec 21).extractLsb' 20 1 = a := by
  apply BitVec.eq_of_toNat_eq; simp only [toNat_append_add, toNat_extract, BitVec.toNat_ofNat]; omega
theorem offset21_19_12 : (a ++ b ++ c ++ d ++ 0#1 : BitVec 21).extractLsb' 12 8 = b := by
  apply BitVec.eq_of_toNat_eq; simp only [toNat_append_add, toNat_extract, BitVec.toNat_ofNat]; omega
theorem offset21_11 : (a ++ b ++ c ++ d ++ 0#1 : BitVec 21).extractLsb' 11 1 = c := by
  apply BitVec.eq_of_toNat_eq; simp only [toNat_append_add, toNat_extract, BitVec.toNat_ofNat]; omega
theorem offset21_10_1 : (a ++ b ++ c ++ d ++ 0#1 : BitVec 21).extractLsb' 1 10 = d := by
  apply BitVec.eq_of_toNat_eq; simp only [toNat_append_add, toNat_extract, BitVec.toNat_ofNat]; omega
end jump

/-! ## The ranges that hold a whole split immediate -/

theorem eight_31_25 (a : BitVec 1) (b : BitVec 6) (c d : BitVec 5) (e : BitVec 3) (f : BitVec 4)
    (g : BitVec 1) (h : BitVec 7) :
    (a ++ b ++ c ++ d ++ e ++ f ++ g ++ h : BitVec 32).extractLsb' 25 7 = a ++ b := by
  apply BitVec.eq_of_toNat_eq; simp only [toNat_append_add, toNat_extract]; omega

theorem eight_11_7 (a : BitVec 1) (b : BitVec 6) (c d : BitVec 5) (e : BitVec 3) (f : BitVec 4)
    (g : BitVec 1) (h : BitVec 7) :
    (a ++ b ++ c ++ d ++ e ++ f ++ g ++ h : BitVec 32).extractLsb' 7 5 = f ++ g := by
  apply BitVec.eq_of_toNat_eq; simp only [toNat_append_add, toNat_extract]; omega

theorem jump_31_12 (a : BitVec 1) (b : BitVec 10) (c : BitVec 1) (d : BitVec 8) (e : BitVec 5)
    (f : BitVec 7) :
    (a ++ b ++ c ++ d ++ e ++ f : BitVec 32).extractLsb' 12 20 = a ++ b ++ c ++ d := by
  apply BitVec.eq_of_toNat_eq; simp only [toNat_append_add, toNat_extract]; omega

/-! ## The fixed bits of a row's pattern (R90) -/

/-- In a range that the mask covers a selected word has the bits of the pattern. -/
theorem extract_of_selects {w value mask : Word} {lo n : Nat}
    (h : (RowPattern.mk value mask).selects w = true)
    (hmask : mask.extractLsb' lo n = BitVec.allOnes n) :
    w.extractLsb' lo n = value.extractLsb' lo n := by
  have hmasked : w &&& mask = value := beq_iff_eq.mp h
  rw [← hmasked, BitVec.extractLsb'_and, hmask, BitVec.and_allOnes]

section fixed
variable (a : BitVec 7) (d : BitVec 3) (f : BitVec 7)

theorem fixedR_31_25 : (a ++ 0#10 ++ d ++ 0#5 ++ f : BitVec 32).extractLsb' 25 7 = a := by
  apply BitVec.eq_of_toNat_eq; simp only [toNat_append_add, toNat_extract, BitVec.toNat_ofNat]; omega
theorem fixedR_14_12 : (a ++ 0#10 ++ d ++ 0#5 ++ f : BitVec 32).extractLsb' 12 3 = d := by
  apply BitVec.eq_of_toNat_eq; simp only [toNat_append_add, toNat_extract, BitVec.toNat_ofNat]; omega
theorem fixedR_6_0 : (a ++ 0#10 ++ d ++ 0#5 ++ f : BitVec 32).extractLsb' 0 7 = f := by
  apply BitVec.eq_of_toNat_eq; simp only [toNat_append_add, toNat_extract, BitVec.toNat_ofNat]; omega
theorem fixedFunct_31_25 : (0#17 ++ d ++ 0#5 ++ f : BitVec 32).extractLsb' 25 7 = 0#7 := by
  apply BitVec.eq_of_toNat_eq; simp only [toNat_append_add, toNat_extract, BitVec.toNat_ofNat]; omega
theorem fixedFunct_14_12 : (0#17 ++ d ++ 0#5 ++ f : BitVec 32).extractLsb' 12 3 = d := by
  apply BitVec.eq_of_toNat_eq; simp only [toNat_append_add, toNat_extract, BitVec.toNat_ofNat]; omega
theorem fixedFunct_6_0 : (0#17 ++ d ++ 0#5 ++ f : BitVec 32).extractLsb' 0 7 = f := by
  apply BitVec.eq_of_toNat_eq; simp only [toNat_append_add, toNat_extract, BitVec.toNat_ofNat]; omega
theorem fixedOpcode_6_0 : (0#25 ++ f : BitVec 32).extractLsb' 0 7 = f := by
  apply BitVec.eq_of_toNat_eq; simp only [toNat_append_add, toNat_extract, BitVec.toNat_ofNat]; omega
end fixed

end Sys2Proof.Machine

namespace Sys2Proof

open Sys2Proof.Machine

/-! ## The codes a selected word carries -/

theorem RRow.codes_of_selects {x : RRow} {p : RowPattern} {w : Word} (h : x.pattern = some p)
    (hw : p.selects w = true) : w.extractLsb' 25 7 = trunc 7 x.funct7 ∧
      w.extractLsb' 12 3 = trunc 3 x.funct3 ∧ w.extractLsb' 0 7 = trunc 7 x.opcode := by
  unfold RRow.pattern at h
  split at h
  · cases h
    exact ⟨(extract_of_selects hw (by decide)).trans (fixedR_31_25 _ _ _),
      (extract_of_selects hw (by decide)).trans (fixedR_14_12 _ _ _),
      (extract_of_selects hw (by decide)).trans (fixedR_6_0 _ _ _)⟩
  · cases h

/-- Every format `I` row fixes bits [14:12] and [6:0]. -/
theorem IRow.codes_of_selects {x : IRow} {p : RowPattern} {w : Word} (h : x.pattern = some p)
    (hw : p.selects w = true) :
    w.extractLsb' 12 3 = trunc 3 x.funct3 ∧ w.extractLsb' 0 7 = trunc 7 x.opcode := by
  unfold IRow.pattern at h
  split at h
  · cases h
    refine ⟨(extract_of_selects hw ?_).trans (fixedFunct_14_12 _ _),
      (extract_of_selects hw ?_).trans (fixedFunct_6_0 _ _)⟩ <;>
      cases x.subKind <;> decide
  · cases h

/-- A shift row fixes bits [31:25] at zero as well (R17). -/
theorem IRow.upper_zero_of_selects {x : IRow} {p : RowPattern} {w : Word} (h : x.pattern = some p)
    (hk : x.subKind = .shift) (hw : p.selects w = true) : w.extractLsb' 25 7 = 0#7 := by
  unfold IRow.pattern at h
  rw [hk] at h
  split at h
  · cases h
    exact (extract_of_selects hw (by decide)).trans (fixedFunct_31_25 _ _)
  · cases h

theorem FunctRow.codes_of_selects {x : FunctRow} {p : RowPattern} {w : Word}
    (h : x.pattern = some p) (hw : p.selects w = true) :
    w.extractLsb' 12 3 = trunc 3 x.funct3 ∧ w.extractLsb' 0 7 = trunc 7 x.opcode := by
  unfold FunctRow.pattern at h
  split at h
  · cases h
    exact ⟨(extract_of_selects hw (by decide)).trans (fixedFunct_14_12 _ _),
      (extract_of_selects hw (by decide)).trans (fixedFunct_6_0 _ _)⟩
  · cases h

theorem OpcodeRow.code_of_selects {x : OpcodeRow} {p : RowPattern} {w : Word}
    (h : x.pattern = some p) (hw : p.selects w = true) : w.extractLsb' 0 7 = trunc 7 x.opcode := by
  unfold OpcodeRow.pattern at h
  split at h
  · cases h
    exact (extract_of_selects hw (by decide)).trans (fixedOpcode_6_0 _)
  · cases h

theorem SysRow.word_of_selects {x : SysRow} {p : RowPattern} {w : Word} (h : x.pattern = some p)
    (hw : p.selects w = true) : w = trunc 32 x.literal := by
  unfold SysRow.pattern at h
  split at h
  · cases h
    exact BitVec.and_allOnes.symm.trans (beq_iff_eq.mp hw)
  · cases h

/-! ## The layout of the fields of a selected word is the word -/

section reencode
variable {p : RowPattern} {w : Word} (hw : p.selects w = true)
include hw

theorem wordR_fields {x : RRow} (h : x.pattern = some p) :
    wordR x (rdOf w) (rs1Of w) (rs2Of w) = w := by
  obtain ⟨h7, h3, ho⟩ := RRow.codes_of_selects h hw
  simp only [wordR, rdOf, rs1Of, rs2Of, trunc_zext, ← h7, ← h3, ← ho]
  exact join_six w

theorem wordI_fields {x : IRow} (h : x.pattern = some p) :
    wordI x (rdOf w) (rs1Of w) (immIOf w) = w := by
  obtain ⟨h3, ho⟩ := IRow.codes_of_selects h hw
  simp only [wordI, rdOf, rs1Of, immIOf, trunc_zext, trunc_sext, ← h3, ← ho]
  exact join_five w

theorem wordShift_fields {x : IRow} (h : x.pattern = some p) (hk : x.subKind = .shift) :
    wordShift x (rdOf w) (rs1Of w) (shamtOf w) = w := by
  obtain ⟨h3, ho⟩ := IRow.codes_of_selects h hw
  have h7 := IRow.upper_zero_of_selects h hk hw
  simp only [wordShift, rdOf, rs1Of, shamtOf, trunc_zext, ← h7, ← h3, ← ho]
  exact join_six w

theorem wordS_fields {x : FunctRow} (h : x.pattern = some p) :
    wordS x (rs1Of w) (rs2Of w) (immSOf w) = w := by
  obtain ⟨h3, ho⟩ := FunctRow.codes_of_selects h hw
  simp only [wordS, rs1Of, rs2Of, immSOf, trunc_zext, trunc_sext, BitVec.extractLsb'_append_eq_left,
    BitVec.extractLsb'_append_eq_right, ← h3, ← ho]
  exact join_six w

theorem wordB_fields {x : FunctRow} (h : x.pattern = some p) :
    wordB x (rs1Of w) (rs2Of w) (immBOf w) = w := by
  obtain ⟨h3, ho⟩ := FunctRow.codes_of_selects h hw
  simp only [wordB, rs1Of, rs2Of, immBOf, trunc_zext, trunc_sext, offset13_12, offset13_11,
    offset13_10_5, offset13_4_1, ← h3, ← ho]
  exact join_eight w

theorem wordU_fields {x : OpcodeRow} (h : x.pattern = some p) :
    wordU x (rdOf w) (immUOf w) = w := by
  simp only [wordU, rdOf, immUOf, trunc_zext, trunc_sext, ← OpcodeRow.code_of_selects h hw]
  exact join_three w

theorem wordJ_fields {x : OpcodeRow} (h : x.pattern = some p) :
    wordJ x (rdOf w) (immJOf w) = w := by
  simp only [wordJ, rdOf, immJOf, trunc_zext, trunc_sext, offset21_20, offset21_19_12, offset21_11,
    offset21_10_1, ← OpcodeRow.code_of_selects h hw]
  exact join_jump w

end reencode

/-- The two shift rows of a structured catalog are shift rows (R156). -/
theorem shiftKinds {c : Catalog} (h : c.subKindsOk = true) :
    c.i[4].subKind = .shift ∧ c.i[5].subKind = .shift := by
  have h4 : (c.i.toList.map (·.subKind))[4]? = some c.i[4].subKind := by simp
  have h5 : (c.i.toList.map (·.subKind))[5]? = some c.i[5].subKind := by simp
  rw [beq_iff_eq.mp h] at h4 h5
  exact ⟨(Option.some.inj h4).symm, (Option.some.inj h5).symm⟩

/-! ## The instruction a word decodes to -/

/-- The instruction read from a word is of the row it is read for. -/
@[simp] theorem pattern_decodeFields (c : Config) (i : Instr) (w : Word) :
    (decodeFields i w).pattern c = i.pattern c := by
  cases i <;> rfl

/-- Every operand read from a word is legal: no bit pattern of a field is out of range (R81, R121). -/
theorem wf_decodeFields (i : Instr) (w : Word) : (decodeFields i w).wf = true := by
  have hrd : 0 ≤ rdOf w ∧ rdOf w ≤ 31 := zext_reg_range _
  have hrs1 : 0 ≤ rs1Of w ∧ rs1Of w ≤ 31 := zext_reg_range _
  have hrs2 : 0 ≤ rs2Of w ∧ rs2Of w ≤ 31 := zext_reg_range _
  have hshamt : 0 ≤ shamtOf w ∧ shamtOf w ≤ 31 := zext_reg_range _
  have hI : -2048 ≤ immIOf w ∧ immIOf w ≤ 2047 := sext_imm12_range _
  have hS : -2048 ≤ immSOf w ∧ immSOf w ≤ 2047 := sext_imm12_range _
  have hU : -524288 ≤ immUOf w ∧ immUOf w ≤ 524287 := sext_imm20_range _
  have hB : -4096 ≤ immBOf w ∧ immBOf w ≤ 4094 ∧ immBOf w % 2 = 0 := by
    have heq : immBOf w = 2 * sext _ := sext_append_zero (n := 12) _
    have hrange := sext_imm12_range
      (w.extractLsb' 31 1 ++ w.extractLsb' 7 1 ++ w.extractLsb' 25 6 ++ w.extractLsb' 8 4)
    omega
  have hJ : -1048576 ≤ immJOf w ∧ immJOf w ≤ 1048574 ∧ immJOf w % 2 = 0 := by
    have heq : immJOf w = 2 * sext _ := sext_append_zero (n := 20) _
    have hrange := sext_imm20_range
      (w.extractLsb' 31 1 ++ w.extractLsb' 12 8 ++ w.extractLsb' 20 1 ++ w.extractLsb' 21 10)
    omega
  cases i <;>
    simp only [decodeFields, fieldsR, fieldsI, fieldsShift, fieldsS, fieldsB, fieldsU, fieldsJ, Instr.wf,
      Instr.operands, UsedOperand.reg, UsedOperand.imm12, UsedOperand.shamt, UsedOperand.offset13,
      UsedOperand.imm20, UsedOperand.offset21, List.all_cons, List.all_nil, hrd, hrs1, hrs2, hshamt,
      hI, hS, hB, hU, hJ, and_self, decide_true, Bool.and_self]

/-- Under the row that selects a word, the word of the instruction read from it is the word itself (R90,
R135). -/
theorem encodeWith_decodeFields {c : Config} (hc : c.catalog.subKindsOk = true) {i : Instr} {w : Word}
    (hsel : i.selectedBy c w = true) : encodeWith c (decodeFields i w) = w := by
  obtain ⟨p, hp, hw⟩ := selectedBy_iff.mp hsel
  obtain ⟨hslli, hsrli⟩ := shiftKinds hc
  cases i
  case add | sub | and | or | xor | sll | srl | sra => exact wordR_fields hw hp
  case addi | andi | ori | xori | jalr | lb | lh | lw | lbu | lhu => exact wordI_fields hw hp
  case slli => exact wordShift_fields hw hp hslli
  case srli => exact wordShift_fields hw hp hsrli
  case sb | sh | sw => exact wordS_fields hw hp
  case beq | bne | blt | bge | bltu | bgeu => exact wordB_fields hw hp
  case lui | auipc => exact wordU_fields hw hp
  case jal => exact wordJ_fields hw hp
  case ecall | ebreak | fence | fenceTso | pause => exact (SysRow.word_of_selects hp hw).symm

/-- An instruction that `decode` answers is read from the word for a row that selects it (R136). -/
theorem decode_row {c : Config} {w : Word} {i : Instr} (h : decode c w = .row i) :
    ∃ row, row.selectedBy c w = true ∧ i = decodeFields row w := by
  unfold decode at h
  split at h
  next => cases h
  next row hrows =>
    have hmem : row ∈ catalogRows.filter (Instr.selectedBy c w) := by simp [hrows]
    exact ⟨row, (List.mem_filter.mp hmem).2, (DecodeVerdict.row.inj h).symm⟩
  next => cases h

/-! ## Immediate bits of the layouts -/

section immediates
open Sys2Proof.Spec

theorem bits_wordI (x : IRow) (rd rs1 imm : Int) : bits (wordI x rd rs1 imm) 31 20 = trunc 12 imm :=
  five_31_20 _ _ _ _ _

theorem bits_wordS_hi (x : FunctRow) (rs1 rs2 imm : Int) :
    bits (wordS x rs1 rs2 imm) 31 25 = bits (trunc 12 imm) 11 5 := six_31_25 _ _ _ _ _ _

theorem bits_wordS_lo (x : FunctRow) (rs1 rs2 imm : Int) :
    bits (wordS x rs1 rs2 imm) 11 7 = bits (trunc 12 imm) 4 0 := six_11_7 _ _ _ _ _ _

theorem bits_wordB_hi (x : FunctRow) (rs1 rs2 imm : Int) : bits (wordB x rs1 rs2 imm) 31 25 =
    bits (trunc 13 imm) 12 12 ++ bits (trunc 13 imm) 10 5 :=
  eight_31_25 _ _ _ _ _ _ _ _

theorem bits_wordB_lo (x : FunctRow) (rs1 rs2 imm : Int) : bits (wordB x rs1 rs2 imm) 11 7 =
    bits (trunc 13 imm) 4 1 ++ bits (trunc 13 imm) 11 11 :=
  eight_11_7 _ _ _ _ _ _ _ _

theorem bits_wordU (x : OpcodeRow) (rd imm : Int) : bits (wordU x rd imm) 31 12 = trunc 20 imm :=
  three_31_12 _ _ _

theorem bits_wordJ (x : OpcodeRow) (rd imm : Int) : bits (wordJ x rd imm) 31 12 =
    bits (trunc 21 imm) 20 20 ++ bits (trunc 21 imm) 10 1 ++ bits (trunc 21 imm) 11 11 ++
      bits (trunc 21 imm) 19 12 :=
  jump_31_12 _ _ _ _ _ _

end immediates

/-! ## The layout of each row's word -/

section rows
variable (c : Config) {mk : Int → Int → Int → Instr}

theorem encodeWith_rowsI (h : mk ∈ [Instr.addi, .andi, .ori, .xori, .jalr, .lb, .lh, .lw, .lbu, .lhu]) :
    ∃ x, ∀ rd rs1 imm, encodeWith c (mk rd rs1 imm) = wordI x rd rs1 imm := by
  simp only [List.mem_cons, List.not_mem_nil, or_false] at h
  rcases h with rfl | rfl | rfl | rfl | rfl | rfl | rfl | rfl | rfl | rfl <;>
    exact ⟨_, fun _ _ _ => rfl⟩

theorem encodeWith_rowsS (h : mk ∈ [Instr.sb, .sh, .sw]) :
    ∃ x, ∀ rs1 rs2 imm, encodeWith c (mk rs1 rs2 imm) = wordS x rs1 rs2 imm := by
  simp only [List.mem_cons, List.not_mem_nil, or_false] at h
  rcases h with rfl | rfl | rfl <;> exact ⟨_, fun _ _ _ => rfl⟩

theorem encodeWith_rowsB (h : mk ∈ [Instr.beq, .bne, .blt, .bge, .bltu, .bgeu]) :
    ∃ x, ∀ rs1 rs2 imm, encodeWith c (mk rs1 rs2 imm) = wordB x rs1 rs2 imm := by
  simp only [List.mem_cons, List.not_mem_nil, or_false] at h
  rcases h with rfl | rfl | rfl | rfl | rfl | rfl <;> exact ⟨_, fun _ _ _ => rfl⟩

theorem encodeWith_rowsU {mk : Int → Int → Instr} (h : mk ∈ [Instr.lui, .auipc]) :
    ∃ x, ∀ rd imm, encodeWith c (mk rd imm) = wordU x rd imm := by
  simp only [List.mem_cons, List.not_mem_nil, or_false] at h
  rcases h with rfl | rfl <;> exact ⟨_, fun _ _ => rfl⟩

end rows

end Sys2Proof

open Sys2Proof Sys2Proof.Machine Sys2Proof.Spec

/-- Settles O43: the row of the instruction selects its word and is the only one, and the word's fields are the
operands. -/
theorem decodeOfEncodeIsTheInstruction : Obligations.DecodeOfEncodeIsTheInstruction :=
  fun _ _ => decode_encodeWith

/-- Settles O44: the answer is read from the word for a selecting row, whose codes and fields are all 32 bits. -/
theorem encodeOfDecodeIsTheWord : Obligations.EncodeOfDecodeIsTheWord := by
  intro c w i hc h
  obtain ⟨-, hkinds, -⟩ := structured_parts hc
  obtain ⟨row, hsel, rfl⟩ := decode_row h
  obtain ⟨p, hp, -⟩ := selectedBy_iff.mp hsel
  refine ⟨wf_decodeFields row w, ?_, encodeWith_decodeFields hkinds hsel⟩
  rw [Instr.rowFits, pattern_decodeFields, hp]
  rfl

/-- Settles O30: the codec's encoding of a legal instruction of a row that fits is its layout (`encoding_eq`,
through `exec_emits`), and `emit` writes it when the image can take it. -/
theorem everyCatalogEmitsTheLayoutWord : Obligations.EveryCatalogEmitsTheLayoutWord := by
  intro i s hcause hwf hfit hemit
  obtain ⟨sink, hsink⟩ := List.head?_eq_some_iff.mp hemit.sink
  have hroom := (hasRoom_iff s).mpr hemit.room
  refine ⟨_, exec_emits ((not_halted_iff s).mpr hcause) hwf hfit, ?_⟩
  rw [emit_ok hroom hsink]
  exact emitted_of_writeWord rfl rfl hcause rfl

/-- Settles O47: the immediate bits of each layout are those of the truncated immediate, whose bits are all ones
or all zeros. -/
theorem allOnesAndAllZeros : Obligations.AllOnesAndAllZeros := by
  intro c r1 r2
  refine ⟨fun mk hmk => ?_, fun mk hmk => ?_, fun mk hmk => ?_, fun mk hmk => ?_, ?_, ?_⟩
  · obtain ⟨x, hx⟩ := encodeWith_rowsI c hmk
    rw [hx, hx, bits_wordI, bits_wordI]
    decide
  · obtain ⟨x, hx⟩ := encodeWith_rowsS c hmk
    rw [hx, hx, bits_wordS_hi, bits_wordS_lo, bits_wordS_hi, bits_wordS_lo]
    decide
  · obtain ⟨x, hx⟩ := encodeWith_rowsB c hmk
    rw [hx, hx, bits_wordB_hi, bits_wordB_lo, bits_wordB_hi, bits_wordB_lo]
    decide
  · obtain ⟨x, hx⟩ := encodeWith_rowsU c hmk
    rw [hx, hx, bits_wordU, bits_wordU]
    decide
  · exact (bits_wordJ _ r1 (-2)).trans (by decide)
  · exact (bits_wordJ _ r1 0).trans (by decide)

/-- Settles O41: each word is decoded by running the model. -/
theorem sampleWordsDecode : Obligations.SampleWordsDecode := by
  refine ⟨?_, ?_, ?_, ?_, ?_, ?_, ?_⟩ <;> decide
end

section
/-! # Proofs: what a request's step answers

One equation for the step on a request per outcome of its selection (`step_halted`, `step_raises`, `step_runs`);
fault entry, the halted state, the emission and the round trip of an `Ok` response follow. -/

namespace Sys2Proof.Machine

open Sys2Proof Sys2Proof.Spec

/-! ## The step on a request -/

/-- The accepted request with its oldest input written out. -/
theorem accept_eq {s : State} {x : Input} {later : List Input} (hi : s.inputs = x :: later)
    (draws : List Int) :
    s.accept draws = { s with inputs := later, draws := draws, response := none } := by
  rw [State.accept, hi, List.tail_cons]

/-- On a halted block (R107). -/
theorem step_halted {s : State} {req : Request} {later : List Input} (hc : s.cfg.structured = true)
    (hi : s.inputs = .request req :: later) (hh : s.halted = true) :
    step s = .next { s with inputs := later, response := some (.halted s.faultCause) } := by
  rw [step_request hc hi, performInputRequest_halted hh, accept_eq hi]
  rfl

/-- When the selection raises, the fault is taken at once (R118, R205). -/
theorem step_raises {s : State} {req : Request} {later : List Input} {info : FaultInfo}
    {left : List Int} (hc : s.cfg.structured = true) (hcause : s.faultCause = .none)
    (hi : s.inputs = .request req :: later) (hsel : select s.cfg req s.draws = .raises info left) :
    ∃ t, step s = .next t ∧ Faulted s info t ∧ t.draws = left ∧ t.inputs = later ∧
      t.sinkOk = s.sinkOk := by
  have hstep := performInputRequest_raises ((not_halted_iff s).mpr hcause) hsel
  rw [← step_request hc hi, accept_eq hi] at hstep
  exact ⟨_, hstep, ⟨rfl, rfl, rfl, fun _ => rfl⟩, rfl, rfl, rfl⟩

/-- When the selection runs an instruction and no sink answer is missing, the step is `exec` of it (R105). -/
theorem step_runs {s : State} {req : Request} {later : List Input} {i : Instr} {left : List Int}
    (hc : s.cfg.structured = true) (hcause : s.faultCause = .none)
    (hi : s.inputs = .request req :: later) (hsel : select s.cfg req s.draws = .runs i left)
    (hsink : s.imgPtr + 4 ≤ s.cfg.imageBase + s.cfg.imageBytes → s.sinkOk ≠ []) :
    step s = exec i { s with inputs := later, draws := left, response := none } := by
  rw [step_request hc hi, performInputRequest_runs ((not_halted_iff s).mpr hcause) hsel,
    ← accept_eq hi]
  rcases settle_exec i s left with ⟨-, -, hroom, hnone⟩ | ⟨t, r, hsettle, hexec, -⟩
  · exact absurd hnone (hsink ((hasRoom_iff s).mp hroom))
  · rw [hsettle, hexec]

/-- A step that takes an input and answers `Ok` ran a legal instruction, and the response is the word and the
text of its format (R117, R121). -/
theorem step_ok_selected {s t : State} {w : Word} {asm : String} {a : Nat} (h : step s = .next t)
    (htook : TookInput s t) (hok : t.response = some (.ok w asm a)) :
    ∃ req later i left, s.inputs = .request req :: later ∧
      select s.cfg req s.draws = .runs i left ∧ i.wf = true ∧ i.rowFits s.cfg = true ∧
      w = encodeWith s.cfg i ∧ asm = i.text s.cfg ∧ a = s.imgPtr := by
  obtain ⟨-, hcases⟩ := step_cases h
  rcases hcases with ⟨-, rfl⟩ | ⟨later, -, rfl⟩ | ⟨req, later, -, -, rfl⟩ |
    ⟨req, later, -, -, -, rfl⟩ | ⟨req, later, info, left, -, -, -, rfl⟩ |
    ⟨req, later, i, left, -, -, -, -, -, -, rfl⟩ | ⟨req, later, i, left, r, hi, -, hsel, hexec, -⟩
  · exact absurd htook (lt_irrefl _)
  · cases hok
  · cases hok
  · exact absurd htook (lt_irrefl _)
  · cases hok
  · exact absurd htook (lt_irrefl _)
  · cases execDoes_of_next hexec with
    | answersHalted => cases hok
    | faults => cases hok
    | holds => cases hok
    | emits sink _ hwf hfit =>
      cases hok
      exact ⟨req, later, i, left, hi, hsel, hwf, hfit, rfl, rfl, rfl⟩

/-! ## Causes and operands -/

/-- Every fault has a cause (R200). -/
theorem FaultInfo.cause_ne_none (info : FaultInfo) : info.cause ≠ .none := by
  cases info <;> simp [FaultInfo.cause]

end Sys2Proof.Machine

namespace Sys2Proof

open Sys2Proof.Machine

/-- The used operands stand in the order of R112. -/
theorem operands_in_order (i : Instr) :
    (i.operands.map (·.name)).Sublist [.rd, .rs1, .rs2, .imm] := by
  cases i
  case add | sub | and | or | xor | sll | srl | sra =>
    exact (by decide : [OperandName.rd, .rs1, .rs2].Sublist [.rd, .rs1, .rs2, .imm])
  case addi | andi | ori | xori | slli | srli | jalr | lb | lh | lw | lbu | lhu =>
    exact (by decide : [OperandName.rd, .rs1, .imm].Sublist [.rd, .rs1, .rs2, .imm])
  case sb | sh | sw | beq | bne | blt | bge | bltu | bgeu =>
    exact (by decide : [OperandName.rs1, .rs2, .imm].Sublist [.rd, .rs1, .rs2, .imm])
  case lui | auipc | jal => exact (by decide : [OperandName.rd, .imm].Sublist [.rd, .rs1, .rs2, .imm])
  case ecall | ebreak | fence | fenceTso | pause => exact List.nil_sublist _

/-- The first illegal operand is the one with only legal ones before it. -/
theorem firstIllegal_of_split {i : Instr} {before after : List UsedOperand} {o : UsedOperand}
    (hsplit : i.operands = before ++ o :: after) (hbefore : ∀ p ∈ before, p.legal = true)
    (ho : o.legal = false) : i.firstIllegal = some (o.name, o.value) := by
  have hnone : before.find? (fun p => !p.legal) = none := by simpa using hbefore
  rw [Instr.firstIllegal, hsplit, List.find?_append, hnone, Option.none_or,
    List.find?_cons_of_pos (by simp [ho])]
  rfl

end Sys2Proof

open Sys2Proof Sys2Proof.Machine Sys2Proof.Spec

/-- Settles O46: the response carries the word of the selected instruction, which decodes to it. -/
theorem okResponseRoundTrips : Obligations.OkResponseRoundTrips := by
  intro s t w asm a h htook hok
  obtain ⟨hc, -⟩ := step_cases h
  obtain ⟨req, later, i, left, hi, hsel, hwf, hfit, rfl, rfl, rfl⟩ := step_ok_selected h htook hok
  exact ⟨req, later, i, left, hi, hsel, hwf, decode_encodeWith hc hwf hfit, rfl, rfl⟩

/-- Settles O4: a request to the halted block is answered `Halted`; of the things a step does only the reset
input clears a recorded cause. -/
theorem haltedUntilReset : Obligations.HaltedUntilReset := by
  refine ⟨fun s req later hc hi hcause => step_halted hc hi ((halted_iff s).mpr hcause),
    fun i s hcause => exec_halted ((halted_iff s).mpr hcause) i, fun s t h hcause hchanged => ?_⟩
  cases step_does h with
  | keeps => exact absurd rfl hchanged
  | resets later hi => exact ⟨later, hi, rfl⟩
  | answersHalted => exact absurd rfl hchanged
  | faults _ _ _ _ _ _ _ hh => exact absurd ((not_halted_iff s).mp hh) hcause
  | emits => exact absurd rfl hchanged

/-- Settles O6: of the things a step does only `faults` answers `Fault`, and it writes out the whole next
state. -/
theorem faultEntryIsPrecise : Obligations.FaultEntryIsPrecise := by
  intro s t cause info h htook hfault
  cases step_does h with
  | keeps => exact absurd htook (lt_irrefl _)
  | resets => cases hfault
  | answersHalted => cases hfault
  | faults req later _ taken left sink _ hh hdraws _ hsink =>
    cases hfault
    exact ⟨(not_halted_iff s).mp hh, rfl, info.cause_ne_none, ⟨taken, hdraws⟩, hsink, rfl⟩
  | emits => cases hfault

/-- Settles O32: the operands before the illegal one are legal, so it is the first violation. -/
theorem firstIllegalOperandIsNamed : Obligations.FirstIllegalOperandIsNamed := by
  refine fun i => ⟨operands_in_order i, fun s before o after hcause hsplit hbefore ho => ?_⟩
  have hillegal := firstIllegal_of_split hsplit hbefore ho
  exact ⟨_, exec_illegal ((not_halted_iff s).mpr hcause) hillegal, faulted_takeFault _ s⟩

/-- Settles O33: the three answers of `emit` that are not a wait. -/
theorem emitOrIoFault : Obligations.EmitOrIoFault := by
  intro i s hcause hwf hfit
  have hexec := exec_emits ((not_halted_iff s).mpr hcause) hwf hfit
  refine ⟨fun hfull => ?_, fun hroom hsink => ?_, fun hroom hsink => ?_⟩
  · have hr : s.hasRoom = false := by
      rw [← Bool.not_eq_true, hasRoom_iff]
      omega
    rw [emit_no_room hr] at hexec
    exact ⟨_, hexec, faulted_takeFault _ s⟩
  · obtain ⟨sink, hs⟩ := List.head?_eq_some_iff.mp hsink
    rw [emit_refused ((hasRoom_iff s).mpr hroom) hs] at hexec
    exact ⟨_, hexec, rfl, rfl, rfl, fun _ => rfl⟩
  · obtain ⟨t, ht, hemitted⟩ := everyCatalogEmitsTheLayoutWord i s hcause hwf hfit ⟨hroom, hsink⟩
    exact ⟨t, _, _, ht, hemitted⟩

/-- Settles O8: the answer of `exec` is not a wait, so `settle` passes it on (`step_runs`). -/
theorem stepRunsSelectedInstruction : Obligations.StepRunsSelectedInstruction :=
  fun _ _ _ _ _ => step_runs

/-- Settles O15: both kinds of request raise before they take a draw. -/
theorem unknownTagRaisesSelect : Obligations.UnknownTagRaisesSelect := by
  intro s name req later hc hcause hi hreq
  have hsel : select s.cfg req s.draws = .raises (.select (.other name) .none) s.draws := by
    rcases hreq with rfl | ⟨mn, rd, rs1, rs2, imm, rfl⟩ <;> rfl
  obtain ⟨t, hstep, hfaulted, hdraws, -, -⟩ := step_raises hc hcause hi hsel
  exact ⟨t, hstep, hfaulted, hdraws⟩

/-- Settles O19: both requests select the instruction, so both steps are `exec` of it on the same state. -/
theorem randomAnswersAsDirected : Obligations.RandomAnswersAsDirected := by
  intro s tag later i left hc hcause hi hsel hsink
  rw [step_runs hc hcause hi hsel hsink]
  exact (step_runs (s := { s with inputs := .request (i.toRequest s.cfg) :: later, draws := left })
    hc hcause rfl (select_toRequest hc i left) hsink).symm
end

section
/-! # Proofs: the row and the operands a request names

What each draw of a random request does, in range (`drawR_in` and its like), out of range, and read back from the
instruction that is selected (`drawR_runs` and its like). The last draw of format `I` is one draw whose range
depends on the row (`drawI_eq`). -/

namespace Sys2Proof.Machine

open Sys2Proof Sys2Proof.Spec

/-! ## Directed requests -/

/-- The mnemonic at a position of the catalog selects the row at that position (R108). -/
theorem select_directed_at {c : Config} (hc : c.structured = true) {f : Fmt} {names : List String}
    (hnames : c.mnemonics f = names) (k : Nat) {mn : String} {rd rs1 rs2 imm : Int} {i : Instr}
    {draws : List Int} (hk : names[k]? = some mn) (hrow : rowAt f k rd rs1 rs2 imm = some i) :
    select c (.directed (.known f) mn rd rs1 rs2 imm) draws = .runs i draws :=
  select_directed_runs ((rowNamed_at hc (hnames ▸ hk) rd rs1 rs2 imm).trans hrow) draws

/-- The mnemonics of the system rows, written out (R190). -/
theorem mnemonics_sys (c : Config) : c.mnemonics .SYS =
    [c.sysLiterals[0].mnemonic, c.sysLiterals[1].mnemonic, c.sysLiterals[2].mnemonic,
      c.sysLiterals[3].mnemonic, c.sysLiterals[4].mnemonic] := by
  apply List.ext_getElem (by simp [Config.mnemonics])
  intro k hk _
  have hlt : k < 5 := by simpa [Config.mnemonics] using hk
  interval_cases k <;> simp [Config.mnemonics]

/-! ## The rows of a table -/

/-- An index that names a row is inside the table. -/
theorem index_in_table {α : Type} {rows : List α} {r : Int} {x : α} (hr : 0 ≤ r)
    (h : rows[r.toNat]? = some x) : 0 ≤ r ∧ r ≤ (rows.length : Int) - 1 := by
  obtain ⟨hlt, -⟩ := List.getElem?_eq_some_iff.mp h
  omega

theorem runRow_of_row {f : Fmt} {k : Nat} {rd rs1 rs2 imm : Int} {i : Instr} {left : List Int}
    (h : rowAt f k rd rs1 rs2 imm = some i) : runRow f k rd rs1 rs2 imm left = .runs i left := by
  rw [runRow, h]

theorem rowAt_of_runRow {f : Fmt} {k : Nat} {rd rs1 rs2 imm : Int} {i : Instr} {d left : List Int}
    (h : runRow f k rd rs1 rs2 imm d = .runs i left) : rowAt f k rd rs1 rs2 imm = some i := by
  unfold runRow at h
  split at h
  next hrow => cases h; exact hrow
  next => cases h

/-! ## The immediate draw of format `I` -/

/-- The least draw of the last operand of row `k` of format `I`: rows 4 and 5 are the shifts (R113). -/
def immLow (k : Nat) : Int := if k = 4 ∨ k = 5 then 0 else -2048

/-- The greatest draw of the last operand of row `k` of format `I` (R113). -/
def immHigh (k : Nat) : Int := if k = 4 ∨ k = 5 then 31 else 2047

theorem imm_range_iff {r imm : Int} (hr : 0 ≤ r) :
    (immLow r.toNat ≤ imm ∧ imm ≤ immHigh r.toNat) ↔
      if r = 4 ∨ r = 5 then InShamt imm else InImm12 imm := by
  have hshift : (r.toNat = 4 ∨ r.toNat = 5) ↔ (r = 4 ∨ r = 5) := by omega
  simp only [immLow, immHigh, hshift]
  split <;> rfl

/-- The sub-kinds of a structured catalog by row index (R85, R155 to R157). -/
theorem subKindAt_eq {c : Config} (hc : c.structured = true) (k : Nat) : c.subKindAt k =
    ([.arith, .arith, .arith, .arith, .shift, .shift, .mem, .mem, .mem, .mem, .mem, .mem] :
      List SubKind)[k]? := by
  obtain ⟨-, hkinds, -⟩ := structured_parts hc
  rw [Config.subKindAt, beq_iff_eq.mp hkinds]

/-- A row draw looks at its continuation for rows of the table alone. -/
theorem drawRow_congr {f : Fmt} {rows : Nat} {draws : List Int} {k k' : Nat → List Int → Selection}
    (h : ∀ r < rows, k r = k' r) : drawRow f rows draws k = drawRow f rows draws k' := by
  unfold drawRow
  split
  · rfl
  next r left =>
    split
    next hr =>
      simp only [inRange, Bool.and_eq_true, decide_eq_true_eq] at hr
      rw [h r.toNat (by omega)]
    next => rfl

/-- Under a structured catalog the draws of format `I` end with one draw from the range of the row (R113). -/
theorem drawI_eq {c : Config} (hc : c.structured = true) (draws : List Int) : drawI c draws =
    drawRow .I 12 draws fun r d => drawReg .rd d fun rd d => drawReg .rs1 d fun rs1 d =>
      drawOperand .imm (immLow r) (immHigh r) 1 d fun imm d => runRow .I r rd rs1 0 imm d := by
  refine drawRow_congr fun r hr => ?_
  simp only [subKindAt_eq hc]
  interval_cases r <;> rfl

/-! ## Draws in their ranges (R113 to R115) -/

section in_range
variable {r rd rs1 rs2 imm : Int} {mk : Int → Int → Int → Instr} {left : List Int}

theorem drawR_in (hr : 0 ≤ r) (hd : InReg rd) (h1 : InReg rs1) (h2 : InReg rs2)
    (hmk : rowsR[r.toNat]? = some mk) :
    drawR (r :: rd :: rs1 :: rs2 :: left) = .runs (mk rd rs1 rs2) left := by
  rw [drawR, drawRow_in (rows := 8) (index_in_table hr hmk), drawReg_in hd, drawReg_in h1, drawReg_in h2]
  exact runRow_of_row (congrArg (Option.map _) hmk)

theorem drawI_in {c : Config} (hc : c.structured = true) (hr : 0 ≤ r) (hd : InReg rd)
    (h1 : InReg rs1) (hi : if r = 4 ∨ r = 5 then InShamt imm else InImm12 imm)
    (hmk : rowsI[r.toNat]? = some mk) :
    drawI c (r :: rd :: rs1 :: imm :: left) = .runs (mk rd rs1 imm) left := by
  rw [drawI_eq hc, drawRow_in (rows := 12) (index_in_table hr hmk), drawReg_in hd, drawReg_in h1,
    drawOperand_in ((imm_range_iff hr).mpr hi), one_mul]
  exact runRow_of_row (congrArg (Option.map _) hmk)

theorem drawS_in (hr : 0 ≤ r) (h1 : InReg rs1) (h2 : InReg rs2) (hi : InImm12 imm)
    (hmk : rowsS[r.toNat]? = some mk) :
    drawS (r :: rs1 :: rs2 :: imm :: left) = .runs (mk rs1 rs2 imm) left := by
  rw [drawS, drawRow_in (rows := 3) (index_in_table hr hmk), drawReg_in h1, drawReg_in h2, drawOperand_in hi,
    one_mul]
  exact runRow_of_row (congrArg (Option.map _) hmk)

theorem drawB_in {k : Int} (hr : 0 ≤ r) (h1 : InReg rs1) (h2 : InReg rs2)
    (hk : -2048 ≤ k ∧ k ≤ 2047) (himm : k * 2 = imm) (hmk : rowsB[r.toNat]? = some mk) :
    drawB (r :: rs1 :: rs2 :: k :: left) = .runs (mk rs1 rs2 imm) left := by
  rw [drawB, drawRow_in (rows := 6) (index_in_table hr hmk), drawReg_in h1, drawReg_in h2,
    drawOperand_in hk, mul_comm, himm]
  exact runRow_of_row (congrArg (Option.map _) hmk)

theorem drawU_in {mk : Int → Int → Instr} (hr : 0 ≤ r) (hd : InReg rd) (hi : InImm20 imm)
    (hmk : rowsU[r.toNat]? = some mk) : drawU (r :: rd :: imm :: left) = .runs (mk rd imm) left := by
  rw [drawU, drawRow_in (rows := 2) (index_in_table hr hmk), drawReg_in hd, drawOperand_in hi, one_mul]
  exact runRow_of_row (congrArg (Option.map _) hmk)

theorem drawJ_in {v : Int} (hd : InReg rd) (hv : -524288 ≤ v ∧ v ≤ 524287) (himm : v * 2 = imm) :
    drawJ (rd :: v :: left) = .runs (.jal rd imm) left := by
  rw [drawJ, drawReg_in hd, drawOperand_in hv, mul_comm, himm]
  rfl

theorem drawSys_in {i : Instr} (hr : 0 ≤ r) (hmk : rowsSys[r.toNat]? = some i) :
    drawSys (r :: left) = .runs i left := by
  rw [drawSys, drawRow_in (rows := 5) (index_in_table hr hmk)]
  exact runRow_of_row hmk

end in_range

/-! ## The draws behind a selected instruction -/

section selected
variable {i : Instr} {draws left : List Int}

theorem drawOperand_runs {name : OperandName} {lo hi scale : Int} {k : Int → List Int → Selection}
    (h : drawOperand name lo hi scale draws k = .runs i left) :
    ∃ v d, (lo ≤ v ∧ v ≤ hi) ∧ k (scale * v) d = .runs i left := by
  cases draws with
  | nil => cases h
  | cons v d =>
    by_cases hv : lo ≤ v ∧ v ≤ hi
    · rw [drawOperand_in hv] at h
      exact ⟨v, d, hv, h⟩
    · rw [drawOperand_out hv] at h; cases h

theorem drawReg_runs {name : OperandName} {k : Int → List Int → Selection}
    (h : drawReg name draws k = .runs i left) : ∃ v d, InReg v ∧ k v d = .runs i left := by
  obtain ⟨v, d, hv, h⟩ := drawOperand_runs h
  exact ⟨v, d, hv, one_mul v ▸ h⟩

theorem drawRow_runs {f : Fmt} {rows : Nat} {k : Nat → List Int → Selection}
    (h : drawRow f rows draws k = .runs i left) : ∃ r d, k r d = .runs i left := by
  cases draws with
  | nil => cases h
  | cons r d =>
    by_cases hr : 0 ≤ r ∧ r ≤ rows - 1
    · rw [drawRow_in hr] at h
      exact ⟨r.toNat, d, h⟩
    · rw [drawRow_out hr] at h; cases h

end selected

end Sys2Proof.Machine

namespace Sys2Proof

open Sys2Proof.Machine Sys2Proof.Spec

/-! ## The operands of each table's rows -/

section rows
variable {k : Nat} {mk : Int → Int → Int → Instr}

theorem rowsR_operands (h : rowsR[k]? = some mk) (rd rs1 rs2 : Int) : (mk rd rs1 rs2).fmt = .R ∧
    (mk rd rs1 rs2).operands = [.reg .rd rd, .reg .rs1 rs1, .reg .rs2 rs2] := by
  have hmem := List.mem_of_getElem? h
  simp only [rowsR, List.mem_cons, List.not_mem_nil, or_false] at hmem
  rcases hmem with rfl | rfl | rfl | rfl | rfl | rfl | rfl | rfl <;> exact ⟨rfl, rfl⟩

theorem rowsI_operands (h : rowsI[k]? = some mk) (rd rs1 imm : Int) : (mk rd rs1 imm).fmt = .I ∧
    (mk rd rs1 imm).operands =
      [.reg .rd rd, .reg .rs1 rs1, if k = 4 ∨ k = 5 then .shamt imm else .imm12 imm] := by
  obtain ⟨hk, rfl⟩ := List.getElem?_eq_some_iff.mp h
  have hlt : k < 12 := hk
  interval_cases k <;> exact ⟨rfl, rfl⟩

theorem rowsS_operands (h : rowsS[k]? = some mk) (rs1 rs2 imm : Int) : (mk rs1 rs2 imm).fmt = .S ∧
    (mk rs1 rs2 imm).operands = [.reg .rs1 rs1, .reg .rs2 rs2, .imm12 imm] := by
  have hmem := List.mem_of_getElem? h
  simp only [rowsS, List.mem_cons, List.not_mem_nil, or_false] at hmem
  rcases hmem with rfl | rfl | rfl <;> exact ⟨rfl, rfl⟩

theorem rowsB_operands (h : rowsB[k]? = some mk) (rs1 rs2 imm : Int) : (mk rs1 rs2 imm).fmt = .B ∧
    (mk rs1 rs2 imm).operands = [.reg .rs1 rs1, .reg .rs2 rs2, .offset13 imm] := by
  have hmem := List.mem_of_getElem? h
  simp only [rowsB, List.mem_cons, List.not_mem_nil, or_false] at hmem
  rcases hmem with rfl | rfl | rfl | rfl | rfl | rfl <;> exact ⟨rfl, rfl⟩

theorem rowsU_operands {mk : Int → Int → Instr} (h : rowsU[k]? = some mk) (rd imm : Int) :
    (mk rd imm).fmt = .U ∧ (mk rd imm).operands = [.reg .rd rd, .imm20 imm] := by
  have hmem := List.mem_of_getElem? h
  simp only [rowsU, List.mem_cons, List.not_mem_nil, or_false] at hmem
  rcases hmem with rfl | rfl <;> exact ⟨rfl, rfl⟩

theorem rowsSys_operands {i : Instr} (h : rowsSys[k]? = some i) :
    i.fmt = .SYS ∧ i.operands = [] := by
  have hmem := List.mem_of_getElem? h
  simp only [rowsSys, List.mem_cons, List.not_mem_nil, or_false] at hmem
  rcases hmem with rfl | rfl | rfl | rfl | rfl <;> exact ⟨rfl, rfl⟩

end rows

/-! ## Legal operands (R10) -/

section legal
variable {name : OperandName} {v : Int}

theorem legal_reg : (UsedOperand.reg name v).legal = true ↔ InReg v := by simp [UsedOperand.reg]
theorem legal_imm12 : (UsedOperand.imm12 v).legal = true ↔ InImm12 v := by simp [UsedOperand.imm12]
theorem legal_shamt : (UsedOperand.shamt v).legal = true ↔ InShamt v := by simp [UsedOperand.shamt]
theorem legal_imm20 : (UsedOperand.imm20 v).legal = true ↔ InImm20 v := by simp [UsedOperand.imm20]
theorem legal_offset13 : (UsedOperand.offset13 v).legal = true ↔ InOffset13 v := by
  simp [UsedOperand.offset13]
theorem legal_offset21 : (UsedOperand.offset21 v).legal = true ↔ InOffset21 v := by
  simp [UsedOperand.offset21]

/-- A draw from the range of row `k` of format `I` is a legal last operand of the row. -/
theorem legal_immediate {k : Nat} (h : immLow k ≤ v ∧ v ≤ immHigh k) :
    (if k = 4 ∨ k = 5 then UsedOperand.shamt v else .imm12 v).legal = true := by
  by_cases hk : k = 4 ∨ k = 5
  · rw [immLow, immHigh, if_pos hk, if_pos hk] at h
    rw [if_pos hk]
    exact legal_shamt.mpr h
  · rw [immLow, immHigh, if_neg hk, if_neg hk] at h
    rw [if_neg hk]
    exact legal_imm12.mpr h

end legal

theorem wf_of_two {i : Instr} {a b : UsedOperand} (hos : i.operands = [a, b])
    (ha : a.legal = true) (hb : b.legal = true) : i.wf = true := by
  simp [Instr.wf, hos, ha, hb]

theorem wf_of_three {i : Instr} {a b c : UsedOperand} (hos : i.operands = [a, b, c])
    (ha : a.legal = true) (hb : b.legal = true) (hc : c.legal = true) : i.wf = true := by
  simp [Instr.wf, hos, ha, hb, hc]

/-! ## The instructions a format can draw (R116) -/

/-- An instruction a random request selects is a row of the format with legal operands. -/
theorem random_runs_legal {c : Config} (hc : c.structured = true) {f : Fmt} {i : Instr}
    {draws left : List Int} (h : select c (.random (.known f)) draws = .runs i left) :
    i.fmt = f ∧ i.wf = true := by
  rw [select] at h
  cases f with
  | R =>
    rw [selectRandom, drawR] at h
    obtain ⟨r, d, h⟩ := drawRow_runs h
    obtain ⟨rd, d, hd, h⟩ := drawReg_runs h
    obtain ⟨rs1, d, h1, h⟩ := drawReg_runs h
    obtain ⟨rs2, d, h2, h⟩ := drawReg_runs h
    obtain ⟨mk, hmk, rfl⟩ := Option.map_eq_some_iff.mp (rowAt_of_runRow h)
    obtain ⟨hfmt, hos⟩ := rowsR_operands hmk rd rs1 rs2
    exact ⟨hfmt, wf_of_three hos (legal_reg.mpr hd) (legal_reg.mpr h1) (legal_reg.mpr h2)⟩
  | I =>
    rw [selectRandom, drawI_eq hc] at h
    obtain ⟨r, d, h⟩ := drawRow_runs h
    obtain ⟨rd, d, hd, h⟩ := drawReg_runs h
    obtain ⟨rs1, d, h1, h⟩ := drawReg_runs h
    obtain ⟨imm, d, hi, h⟩ := drawOperand_runs h
    rw [one_mul] at h
    obtain ⟨mk, hmk, rfl⟩ := Option.map_eq_some_iff.mp (rowAt_of_runRow h)
    obtain ⟨hfmt, hos⟩ := rowsI_operands hmk rd rs1 imm
    exact ⟨hfmt, wf_of_three hos (legal_reg.mpr hd) (legal_reg.mpr h1) (legal_immediate hi)⟩
  | S =>
    rw [selectRandom, drawS] at h
    obtain ⟨r, d, h⟩ := drawRow_runs h
    obtain ⟨rs1, d, h1, h⟩ := drawReg_runs h
    obtain ⟨rs2, d, h2, h⟩ := drawReg_runs h
    obtain ⟨imm, d, hi, h⟩ := drawOperand_runs h
    rw [one_mul] at h
    obtain ⟨mk, hmk, rfl⟩ := Option.map_eq_some_iff.mp (rowAt_of_runRow h)
    obtain ⟨hfmt, hos⟩ := rowsS_operands hmk rs1 rs2 imm
    exact ⟨hfmt, wf_of_three hos (legal_reg.mpr h1) (legal_reg.mpr h2) (legal_imm12.mpr hi)⟩
  | B =>
    rw [selectRandom, drawB] at h
    obtain ⟨r, d, h⟩ := drawRow_runs h
    obtain ⟨rs1, d, h1, h⟩ := drawReg_runs h
    obtain ⟨rs2, d, h2, h⟩ := drawReg_runs h
    obtain ⟨k, d, hk, h⟩ := drawOperand_runs h
    have hi : InOffset13 (2 * k) := by omega
    obtain ⟨mk, hmk, rfl⟩ := Option.map_eq_some_iff.mp (rowAt_of_runRow h)
    obtain ⟨hfmt, hos⟩ := rowsB_operands hmk rs1 rs2 (2 * k)
    exact ⟨hfmt, wf_of_three hos (legal_reg.mpr h1) (legal_reg.mpr h2) (legal_offset13.mpr hi)⟩
  | U =>
    rw [selectRandom, drawU] at h
    obtain ⟨r, d, h⟩ := drawRow_runs h
    obtain ⟨rd, d, hd, h⟩ := drawReg_runs h
    obtain ⟨imm, d, hi, h⟩ := drawOperand_runs h
    rw [one_mul] at h
    obtain ⟨mk, hmk, rfl⟩ := Option.map_eq_some_iff.mp (rowAt_of_runRow h)
    obtain ⟨hfmt, hos⟩ := rowsU_operands hmk rd imm
    exact ⟨hfmt, wf_of_two hos (legal_reg.mpr hd) (legal_imm20.mpr hi)⟩
  | J =>
    rw [selectRandom, drawJ] at h
    obtain ⟨rd, d, hd, h⟩ := drawReg_runs h
    obtain ⟨v, d, hv, h⟩ := drawOperand_runs h
    have hi : InOffset21 (2 * v) := by omega
    obtain rfl : Instr.jal rd (2 * v) = i := Option.some.inj (rowAt_of_runRow h)
    exact ⟨rfl, wf_of_two rfl (legal_reg.mpr hd) (legal_offset21.mpr hi)⟩
  | SYS =>
    rw [selectRandom, drawSys] at h
    obtain ⟨r, d, h⟩ := drawRow_runs h
    obtain ⟨hfmt, hos⟩ := rowsSys_operands (rowAt_of_runRow h)
    exact ⟨hfmt, by rw [Instr.wf, hos]; rfl⟩

/-- The draws that name an instruction: its row, unless the format has one row, and its operands in their order
(R113), a `B` or `J` offset halved (R114). -/
def Instr.draws (i : Instr) : List Int :=
  match i with
  | .add rd rs1 rs2 | .sub rd rs1 rs2 | .and rd rs1 rs2 | .or rd rs1 rs2
  | .xor rd rs1 rs2 | .sll rd rs1 rs2 | .srl rd rs1 rs2 | .sra rd rs1 rs2 =>
    [i.rowIndex, rd, rs1, rs2]
  | .addi rd rs1 imm | .andi rd rs1 imm | .ori rd rs1 imm | .xori rd rs1 imm
  | .slli rd rs1 imm | .srli rd rs1 imm | .jalr rd rs1 imm
  | .lb rd rs1 imm | .lh rd rs1 imm | .lw rd rs1 imm | .lbu rd rs1 imm | .lhu rd rs1 imm =>
    [i.rowIndex, rd, rs1, imm]
  | .sb rs1 rs2 imm | .sh rs1 rs2 imm | .sw rs1 rs2 imm => [i.rowIndex, rs1, rs2, imm]
  | .beq rs1 rs2 imm | .bne rs1 rs2 imm | .blt rs1 rs2 imm | .bge rs1 rs2 imm
  | .bltu rs1 rs2 imm | .bgeu rs1 rs2 imm => [i.rowIndex, rs1, rs2, imm / 2]
  | .lui rd imm | .auipc rd imm => [i.rowIndex, rd, imm]
  | .jal rd imm => [rd, imm / 2]
  | .ecall | .ebreak | .fence | .fenceTso | .pause => [i.rowIndex]

/-- The draws that name a legal instruction select it. -/
theorem select_random_draws {c : Config} (hc : c.structured = true) {i : Instr} (hwf : i.wf = true)
    (left : List Int) : select c (.random (.known i.fmt)) (i.draws ++ left) = .runs i left := by
  cases i <;>
    simp only [Instr.wf, Instr.operands, List.all_cons, List.all_nil, Bool.and_true, Bool.and_eq_true,
      legal_reg, legal_imm12, legal_shamt, legal_imm20, legal_offset13, legal_offset21] at hwf <;>
    simp only [Instr.fmt, Instr.draws, Instr.rowIndex, List.cons_append, List.nil_append, select,
      selectRandom]
  case add | sub | and | or | xor | sll | srl | sra =>
    obtain ⟨hd, h1, h2⟩ := hwf
    exact drawR_in (Int.natCast_nonneg _) hd h1 h2 rfl
  case addi | andi | ori | xori | slli | srli | jalr | lb | lh | lw | lbu | lhu =>
    obtain ⟨hd, h1, hi⟩ := hwf
    exact drawI_in hc (Int.natCast_nonneg _) hd h1 hi rfl
  case sb | sh | sw =>
    obtain ⟨h1, h2, hi⟩ := hwf
    exact drawS_in (Int.natCast_nonneg _) h1 h2 hi rfl
  case beq | bne | blt | bge | bltu | bgeu =>
    obtain ⟨h1, h2, hi⟩ := hwf
    exact drawB_in (Int.natCast_nonneg _) h1 h2 (by omega) (by omega) rfl
  case lui | auipc =>
    obtain ⟨hd, hi⟩ := hwf
    exact drawU_in (Int.natCast_nonneg _) hd hi rfl
  case jal =>
    obtain ⟨hd, hi⟩ := hwf
    exact drawJ_in hd (by omega) (by omega)
  case ecall | ebreak | fence | fenceTso | pause => exact drawSys_in (Int.natCast_nonneg _) rfl

end Sys2Proof

open Sys2Proof Sys2Proof.Machine Sys2Proof.Spec

/-- Settles O16: each mnemonic stands at the position of its row in the table of its format. -/
theorem directedRequestSelectsRow : Obligations.DirectedRequestSelectsRow := by
  intro c rd rs1 rs2 imm d hc
  obtain ⟨hnames, -⟩ := structured_parts hc
  obtain ⟨hR, hI, hS, hB, hU, hJ⟩ := mnemonics_eq hnames
  have row {f : Fmt} {names : List String} (hf : c.mnemonics f = names) (k : Nat) {mn : String}
      {i : Instr} (hk : names[k]? = some mn) (hi : rowAt f k rd rs1 rs2 imm = some i) :
      select c (.directed (.known f) mn rd rs1 rs2 imm) d = .runs i d :=
    select_directed_at hc hf k hk hi
  have hSys := mnemonics_sys c
  exact ⟨⟨row hR 0 rfl rfl, row hR 1 rfl rfl, row hR 2 rfl rfl, row hR 3 rfl rfl, row hR 4 rfl rfl,
      row hR 5 rfl rfl, row hR 6 rfl rfl, row hR 7 rfl rfl⟩,
    ⟨row hI 0 rfl rfl, row hI 1 rfl rfl, row hI 2 rfl rfl, row hI 3 rfl rfl, row hI 4 rfl rfl,
      row hI 5 rfl rfl, row hI 6 rfl rfl, row hI 7 rfl rfl, row hI 8 rfl rfl, row hI 9 rfl rfl,
      row hI 10 rfl rfl, row hI 11 rfl rfl⟩,
    ⟨row hS 0 rfl rfl, row hS 1 rfl rfl, row hS 2 rfl rfl⟩,
    ⟨row hB 0 rfl rfl, row hB 1 rfl rfl, row hB 2 rfl rfl, row hB 3 rfl rfl, row hB 4 rfl rfl,
      row hB 5 rfl rfl⟩,
    ⟨row hU 0 rfl rfl, row hU 1 rfl rfl, row hJ 0 rfl rfl⟩,
    ⟨row hSys 0 rfl rfl, row hSys 1 rfl rfl, row hSys 2 rfl rfl, row hSys 3 rfl rfl,
      row hSys 4 rfl rfl⟩,
    fun f mn hmn => select_directed_unknown hmn rd rs1 rs2 imm d⟩

/-- Settles O17: format by format, each draw in its range. -/
theorem randomDrawsNameRowAndOperands : Obligations.RandomDrawsNameRowAndOperands := by
  intro c left hc
  exact ⟨fun r rd rs1 rs2 mk hr hd h1 h2 hmk => drawR_in hr hd h1 h2 hmk,
    fun r rd rs1 imm mk hr hd h1 hmk hi => drawI_in hc hr hd h1 hi hmk,
    fun r rs1 rs2 imm mk hr h1 h2 hi hmk => drawS_in hr h1 h2 hi hmk,
    fun r rs1 rs2 k mk hr h1 h2 hlo hhi hmk =>
      ⟨drawB_in hr h1 h2 ⟨hlo, hhi⟩ rfl hmk, by omega⟩,
    fun rd imm hd hi => ⟨drawU_in le_rfl hd hi rfl, drawU_in zero_le_one hd hi rfl⟩,
    fun rd v hd hlo hhi => ⟨drawJ_in hd ⟨hlo, hhi⟩ rfl, by omega⟩,
    fun r i hr hmk => drawSys_in hr hmk⟩

/-- Settles O20: the selected instruction is legal, and a legal one is selected by its own draws. -/
theorem randomReachesExactlyLegalInstructions :
    Obligations.RandomReachesExactlyLegalInstructions := by
  intro c f i hc
  constructor
  · rintro ⟨draws, left, h⟩
    exact random_runs_legal hc h
  · rintro ⟨rfl, hwf⟩
    exact ⟨_, [], select_random_draws hc hwf []⟩

/-- Settles O18: the draws before the one out of range are peeled off one by one, and that one raises. The clauses
stand in the order of the draws: row, `rd`, `rs1`, `rs2`, last operand. -/
theorem randomDrawOutOfRangeRaises : Obligations.RandomDrawOutOfRangeRaises := by
  refine ⟨fun s req later info left => step_raises, fun c left hc => ?_⟩
  simp only [select, selectRandom]
  refine ⟨?_, ?_, ?_, ?_, ?_, ?_, ?_, ?_, ?_, ?_, ?_, ?_⟩
  · intro f rows r hf hr
    simp only [List.mem_cons, List.not_mem_nil, or_false, Prod.mk.injEq] at hf
    rcases hf with ⟨rfl, rfl⟩ | ⟨rfl, rfl⟩ | ⟨rfl, rfl⟩ | ⟨rfl, rfl⟩ | ⟨rfl, rfl⟩ | ⟨rfl, rfl⟩ <;>
      exact drawRow_out hr left _
  · intro f rows r rd hf hlo hhi hd
    simp only [List.mem_cons, List.not_mem_nil, or_false, Prod.mk.injEq] at hf
    rcases hf with ⟨rfl, rfl⟩ | ⟨rfl, rfl⟩ | ⟨rfl, rfl⟩ <;>
      exact (drawRow_in (by omega) _ _).trans (drawReg_out hd left _)
  · intro rd hd
    exact drawReg_out hd left _
  · intro f rows r rd rs1 hf hlo hhi hd h1
    simp only [List.mem_cons, List.not_mem_nil, or_false, Prod.mk.injEq] at hf
    rcases hf with ⟨rfl, rfl⟩ | ⟨rfl, rfl⟩ <;>
      exact (drawRow_in (by omega) _ _).trans ((drawReg_in hd _ _).trans (drawReg_out h1 left _))
  · intro f rows r rs1 hf hlo hhi h1
    simp only [List.mem_cons, List.not_mem_nil, or_false, Prod.mk.injEq] at hf
    rcases hf with ⟨rfl, rfl⟩ | ⟨rfl, rfl⟩ <;>
      exact (drawRow_in (by omega) _ _).trans (drawReg_out h1 left _)
  · intro f rows r rs1 rs2 hf hlo hhi h1 h2
    simp only [List.mem_cons, List.not_mem_nil, or_false, Prod.mk.injEq] at hf
    rcases hf with ⟨rfl, rfl⟩ | ⟨rfl, rfl⟩ <;>
      exact (drawRow_in (by omega) _ _).trans ((drawReg_in h1 _ _).trans (drawReg_out h2 left _))
  · intro r rd rs1 rs2 hlo hhi hd h1 h2
    rw [drawR, drawRow_in (rows := 8) ⟨hlo, hhi⟩, drawReg_in hd, drawReg_in h1, drawReg_out h2]
  · intro r rd rs1 imm hlo hhi hd h1 hi
    rw [drawI_eq hc, drawRow_in (rows := 12) ⟨hlo, hhi⟩, drawReg_in hd, drawReg_in h1,
      drawOperand_out (mt (imm_range_iff hlo).mp hi), one_mul]
  · intro r rs1 rs2 imm hlo hhi h1 h2 hi
    rw [drawS, drawRow_in (rows := 3) ⟨hlo, hhi⟩, drawReg_in h1, drawReg_in h2,
      drawOperand_out hi, one_mul]
  · intro r rs1 rs2 k hlo hhi h1 h2 hk
    rw [drawB, drawRow_in (rows := 6) ⟨hlo, hhi⟩, drawReg_in h1, drawReg_in h2,
      drawOperand_out hk, mul_comm]
  · intro r rd imm hlo hhi hd hi
    rw [drawU, drawRow_in (rows := 2) ⟨hlo, hhi⟩, drawReg_in hd, drawOperand_out hi, one_mul]
  · intro rd v hd hv
    rw [drawJ, drawReg_in hd, drawOperand_out hv, mul_comm]
end

section
/-! # Proofs: the Field Codec and the decode port

Each primitive of the Field Codec as arithmetic on integers: the range and the pattern of `packField`, the value and
the bits of `extractBits`, the fields of a `concat`. The decode port answers with the one row that selects a word,
and a word it answers is run by the next step when the requester presents it. -/

namespace Sys2Proof.Machine

open Sys2Proof

/-! ## packField -/

theorem fitsField_signed_iff {v : Int} {n : Nat} : fitsField v n .signed = true ↔
    -(2 : Int) ^ (n - 1) ≤ v ∧ v ≤ 2 ^ (n - 1) - 1 := by
  simp [fitsField]

theorem fitsField_unsigned_iff {v : Int} {n : Nat} : fitsField v n .unsigned = true ↔
    0 ≤ v ∧ v ≤ (2 : Int) ^ n - 1 := by
  simp [fitsField]

/-- The pattern of a value is its residue (R13, R82). -/
theorem toNat_trunc (n : Nat) (v : Int) : ((trunc n v).toNat : Int) = v % 2 ^ n := by
  have hnonneg : 0 ≤ v % 2 ^ n := Int.emod_nonneg v (by positivity)
  simp [trunc, BitVec.toNat_ofInt, hnonneg]

/-- A value that fits is packed as its residue (R125). -/
theorem packField_residue {v : Int} {n : Nat} {s : Signedness} (hn : 1 ≤ n)
    (h : fitsField v n s = true) :
    ∃ p : BitVec n, packField v n s = .ok ⟨n, p⟩ ∧ (p.toNat : Int) = v % 2 ^ n :=
  ⟨trunc n v, packField_fits (n := n) (by omega) h, toNat_trunc n v⟩

/-- A value outside the range raises (R125). -/
theorem packField_raises {v : Int} {n : Nat} {s : Signedness} (hn : 1 ≤ n)
    (h : ¬ fitsField v n s = true) : packField v n s = .error (.packMisfit v n s) :=
  packField_misfit (n := n) (by omega) (Bool.not_eq_true _ ▸ h)

/-! ## extractBits -/

/-- A range that is not inside the pattern raises (R128). -/
theorem extractBits_outside {p : Field} {hi lo : Int}
    (h : hi < lo ∨ lo < 0 ∨ (p.width : Int) ≤ hi) :
    extractBits p hi lo = .error (.extractRange hi lo) := if_pos h

/-! ## concat -/

/-- A concatenation that is a word has its width and its value (R130). -/
theorem concatWord_ok {fs : List Field} {w : Word} (h : concatWord fs = .ok w) :
    (concatFields fs).width = 32 ∧ w.toNat = concatNat fs := by
  unfold concatWord at h
  split at h
  · cases h
    exact ⟨‹_›, BitVec.toNat_cast _ _⟩
  · cases h

/-- Widths that sum to 32 give a word (R130). -/
theorem concatWord_exists {fs : List Field} (h : (concatFields fs).width = 32) :
    ∃ w, concatWord fs = .ok w :=
  ⟨_, dif_pos h⟩

theorem concatNat_lt (fs : List Field) : concatNat fs < 2 ^ (concatFields fs).width :=
  (concatFields fs).bits.isLt

theorem concatFields_append_width (fs gs : List Field) :
    (concatFields (fs ++ gs)).width = (concatFields fs).width + (concatFields gs).width := by
  simp [concatFields_width]

/-- Joining two lists of fields puts the first above the second (R130, R131). -/
theorem concatNat_append (fs gs : List Field) :
    concatNat (fs ++ gs) = concatNat fs * 2 ^ (concatFields gs).width + concatNat gs := by
  induction fs with
  | nil => simp [concatNat_nil]
  | cons f fs ih =>
    rw [List.cons_append, concatNat_cons, concatNat_cons, ih, concatFields_append_width, pow_add]
    ring

/-- A field is the quotient by the fields below it, modulo the fields above it (R132). -/
theorem concatNat_field (before : List Field) (f : Field) (after : List Field) :
    concatNat (before ++ f :: after) / 2 ^ (concatFields after).width % 2 ^ f.width =
      f.bits.toNat := by
  have hpos : 0 < 2 ^ (concatFields after).width := Nat.two_pow_pos _
  have hvalue : concatNat (before ++ f :: after) = concatNat after +
      2 ^ (concatFields after).width * (f.bits.toNat + 2 ^ f.width * concatNat before) := by
    rw [concatNat_append, concatNat_cons, concatFields_cons_width, pow_add]
    ring
  rw [hvalue, Nat.add_mul_div_left _ _ hpos, Nat.div_eq_of_lt (concatNat_lt after), zero_add,
    Nat.add_mul_mod_self_left, Nat.mod_eq_of_lt f.bits.isLt]

/-! ## The presented word -/

/-- A word is its own table word (R65). -/
@[simp] theorem tableWord_toNat (w : Word) : tableWord 32 w.toNat = w := by
  rw [tableWord, Nat.mod_eq_of_lt w.isLt, BitVec.ofNat_toNat, BitVec.setWidth_eq]

/-- Presenting a word that decodes to an instruction presents the instruction (R223). -/
theorem withFetchWord_row {s : State} {w : Word} {i : Instr} (h : s.decodePort w = .row i) :
    s.withFetchWord 32 w.toNat = presentInstr i s := by
  rw [State.withFetchWord, tableWord_toNat, h]

/-- A presented instruction has a sink answer waiting. -/
theorem presentInstr_sinkOk (i : Instr) (s : State) :
    (presentInstr i s).sinkOk = if s.sinkOk = [] then [true] else s.sinkOk := by
  simp [presentInstr]

theorem presentInstr_sinkOk_ne_nil (i : Instr) (s : State) : (presentInstr i s).sinkOk ≠ [] := by
  rw [presentInstr_sinkOk]
  split
  · exact List.cons_ne_nil _ _
  · assumption

/-- The step on a presented instruction is `exec` of it (R105, R108). -/
theorem step_presentInstr {s : State} (i : Instr) (hc : s.cfg.structured = true)
    (hcause : s.faultCause = .none) :
    step (presentInstr i s) =
      exec i { s with sinkOk := if s.sinkOk = [] then [true] else s.sinkOk, response := none } := by
  rw [← presentInstr_sinkOk i s]
  exact step_runs (s := presentInstr i s) hc hcause rfl (select_toRequest hc i s.draws)
    fun _ => presentInstr_sinkOk_ne_nil i s

end Sys2Proof.Machine

namespace Sys2Proof

open Sys2Proof.Machine

/-! ## The selecting row -/

/-- At most one catalog row of a structured configuration selects a word (R38, R136). -/
theorem selecting_row_unique {c : Config} (h : c.disambiguated = true) {w : Word} {row other : Instr}
    (hrow : row ∈ catalogRows) (hsel : row.selectedBy c w = true) (hother : other ∈ catalogRows)
    (hselOther : other.selectedBy c w = true) : other = row := by
  have hsymm : Std.Symm fun _ _ : Instr => False := ⟨fun _ _ => id⟩
  by_contra hne
  exact (selecting_rows_le_one h w).forall (List.mem_filter.mpr ⟨hother, hselOther⟩)
    (List.mem_filter.mpr ⟨hrow, hsel⟩) hne

/-- A word that no row selects is not in the catalog (R92, R136). -/
theorem decode_of_no_selects {c : Config} {w : Word}
    (h : ∀ row ∈ catalogRows, row.selectedBy c w = false) : decode c w = .notInCatalog := by
  have hnil : catalogRows.filter (Instr.selectedBy c w) = [] := by
    simpa [List.filter_eq_nil_iff] using h
  rw [decode, hnil]

end Sys2Proof

open Sys2Proof Sys2Proof.Machine Sys2Proof.Spec

/-- Settles O42: either a row selects the word, and then it is the only one because the patterns are disjoint, or
none does. -/
theorem decodeAnswersTheSelectingRow : Obligations.DecodeAnswersTheSelectingRow := by
  intro c w hc
  obtain ⟨-, -, -, hdisamb, -⟩ := structured_parts hc
  by_cases hsome : ∃ row ∈ catalogRows, row.selectedBy c w = true
  · obtain ⟨row, hmem, hsel⟩ := hsome
    exact .inl ⟨row, hmem, hsel, fun other => selecting_row_unique hdisamb hmem hsel,
      decode_of_selects hdisamb hmem hsel⟩
  · have hnone : ∀ row ∈ catalogRows, row.selectedBy c w = false := by simpa using hsome
    exact .inr ⟨hnone, decode_of_no_selects hnone⟩

/-- Settles O50: a range inside the pattern lies at natural numbers, where `extractBits` is a bit range. -/
theorem extractBitsOfRange : Obligations.ExtractBitsOfRange := by
  refine fun p hi lo => ⟨extractBits_outside, fun hlo hle hhi => ?_⟩
  lift lo to Nat using hlo
  lift hi to Nat using by omega
  have hwidth : ((hi : Int) - lo + 1).toNat = hi - lo + 1 := by omega
  refine ⟨_, extractBits_inside p (by omega) (by omega), ?_, fun k => ?_⟩
  · rw [hwidth, Int.toNat_natCast, toNat_extract]
  · have hk : k < hi - lo + 1 ↔ (k : Int) ≤ hi - lo := by omega
    rw [BitVec.testBit_toNat, BitVec.getLsbD_extractLsb', decide_eq_decide.mpr hk, Int.toNat_natCast]

/-- Settles O51: the width is the sum of the widths, and the value is that of the two halves side by side. -/
theorem concatJoinsMostSignificantFirst : Obligations.ConcatJoinsMostSignificantFirst := by
  refine ⟨concatFields_width, fun f fs => ?_, fun fs hsum => ?_, fun fs hsum => ?_⟩
  · rw [← concatFields_width]
    exact concatNat_cons f fs
  · obtain ⟨w, hw⟩ := concatWord_exists ((concatFields_width fs).trans hsum)
    exact ⟨w, hw, (concatWord_ok hw).2⟩
  · rw [← concatFields_width] at hsum ⊢
    exact concatWord_misfit hsum

/-- Settles O52: the range of a field takes the fields below it away by division and those above it by the
remainder. -/
theorem concatenatedFieldReadsBack : Obligations.ConcatenatedFieldReadsBack := by
  rintro before f after w lo hword hwidth rfl
  obtain ⟨hsum, hvalue⟩ := concatWord_ok hword
  rw [concatFields_append_width, concatFields_cons_width] at hsum
  rw [← concatFields_width]
  have hhi : ((concatFields after).width : Int) + f.width - 1 =
      ((concatFields after).width + f.width - 1 : Nat) := by omega
  have hcount : (concatFields after).width + f.width - 1 - (concatFields after).width + 1 = f.width := by
    omega
  rw [hhi, extractBits_inside ⟨32, w⟩ (by omega) (by simp only; omega), hcount, toNat_extract, hvalue,
    concatNat_field]

/-- Settles O9: the word presents its instruction, whose directed request selects it. -/
theorem presentedWordRuns : Obligations.PresentedWordRuns := by
  intro s w i hc hcause hdecode
  rw [withFetchWord_row hdecode, step_presentInstr i hc hcause]

/-- Settles O49: the range of each signedness is what `packField` tests, and its pattern is the residue. -/
theorem packFieldPattern : Obligations.PackFieldPattern := by
  refine ⟨fun v n s hn => if_pos hn, fun v n hn => ⟨fun hv => ?_, fun hv => ?_, fun hlo hhi => ?_,
    fun hlo hhi => ?_⟩⟩
  · exact packField_raises hn (mt fitsField_signed_iff.mp hv)
  · exact packField_raises hn (mt fitsField_unsigned_iff.mp hv)
  · exact packField_residue hn (fitsField_signed_iff.mpr ⟨hlo, hhi⟩)
  · exact packField_residue hn (fitsField_unsigned_iff.mpr ⟨hlo, hhi⟩)
end

section
/-! # Proofs: the rows of format `R`

The two answers of a row of any format under the default tables: `emitted_of_legal` for legal operands and
`faulted_of_three` for the first illegal of three. Format `R` follows for every row index at once. -/

namespace Sys2Proof.Machine

open Sys2Proof Sys2Proof.Spec

/-! ## A row under the default tables -/

/-- The default tables at the image base and size of the state. -/
theorem cfg_of_defaultTables {s : State} (h : DefaultTables s) : s.cfg =
    { Config.default with imageBase := s.cfg.imageBase, imageBytes := s.cfg.imageBytes } := by
  rcases hs : s.cfg with ⟨catalog, literals, base, bytes⟩
  obtain ⟨hcatalog, hliterals⟩ := h
  rw [hs] at hcatalog hliterals
  subst hcatalog hliterals
  rfl

/-- Every default row fits its fields (R37). -/
theorem rowFits_default {s : State} (h : DefaultTables s) (i : Instr) : i.rowFits s.cfg = true := by
  rw [cfg_of_defaultTables h]
  cases i <;> rfl

/-- A legal instruction of the default tables is emitted as its layout and its text. -/
theorem emitted_of_legal {s : State} {i : Instr} {w : Word} {asm : String} (htables : DefaultTables s)
    (hcause : s.faultCause = .none) (hwf : i.wf = true) (hemit : CanEmit s)
    (hword : encodeWith s.cfg i = w) (htext : i.text s.cfg = asm) :
    ∃ t, exec i s = .next t ∧ Emitted s w asm t := by
  subst hword htext
  exact everyCatalogEmitsTheLayoutWord i s hcause hwf (rowFits_default htables i) hemit

/-- Of three used operands the first illegal one is named (R112). -/
theorem faulted_of_three {s : State} {i : Instr} {a b c : UsedOperand} (hcause : s.faultCause = .none)
    (hos : i.operands = [a, b, c]) :
    (¬ a.legal = true → ∃ t, exec i s = .next t ∧ Faulted s (.range a.name a.value) t) ∧
    (a.legal = true → ¬ b.legal = true →
      ∃ t, exec i s = .next t ∧ Faulted s (.range b.name b.value) t) ∧
    (a.legal = true → b.legal = true → ¬ c.legal = true →
      ∃ t, exec i s = .next t ∧ Faulted s (.range c.name c.value) t) := by
  obtain ⟨-, named⟩ := firstIllegalOperandIsNamed i
  refine ⟨fun ha => ?_, fun ha hb => ?_, fun ha hb hc => ?_⟩
  · exact named s [] a [b, c] hcause hos (by simp) (by simpa using ha)
  · exact named s [a] b [c] hcause hos (by simpa using ha) (by simpa using hb)
  · exact named s [a, b] c [] hcause hos (by simpa using ⟨ha, hb⟩) (by simpa using hc)

/-! ## Format `R` -/

/-- The word and the text of row `k` of format `R` are those of the catalog's row `k`. -/
theorem layout_rowsR (c : Config) (k : Fin 8) {mk : Int → Int → Int → Instr}
    (hmk : rowsR[k.val]? = some mk) (rd rs1 rs2 : Int) :
    encodeWith c (mk rd rs1 rs2) = wordR c.catalog.r[k] rd rs1 rs2 ∧
      (mk rd rs1 rs2).text c = textR c.catalog.r[k].mnemonic rd rs1 rs2 := by
  fin_cases k <;> cases hmk <;> exact ⟨rfl, rfl⟩

theorem default_opcode_R : ∀ k : Fin 8, Catalog.default.r[k].opcode = 0b0110011 := by decide

/-- Row `k` of format `R` emits the codes and the mnemonic of the default row `k` (R145). -/
theorem registerRow_default (k : Fin 8) {mk : Int → Int → Int → Instr}
    (hmk : rowsR[k.val]? = some mk) :
    RegisterRow mk Catalog.default.r[k].mnemonic (trunc 7 Catalog.default.r[k].funct7)
      (trunc 3 Catalog.default.r[k].funct3) := by
  intro s rd rs1 rs2 htables hcause
  obtain ⟨-, hos⟩ := rowsR_operands hmk rd rs1 rs2
  obtain ⟨hword, htext⟩ := layout_rowsR s.cfg k hmk rd rs1 rs2
  rw [htables.catalog] at hword htext
  rw [wordR, default_opcode_R] at hword
  rw [textR_joined] at htext
  obtain ⟨faultRd, faultRs1, faultRs2⟩ := faulted_of_three hcause hos
  simp only [legal_reg] at faultRd faultRs1 faultRs2
  refine ⟨fun hd h1 h2 hemit => ?_, faultRd, faultRs1, faultRs2⟩
  have hwf := wf_of_three hos (legal_reg.mpr hd) (legal_reg.mpr h1) (legal_reg.mpr h2)
  exact emitted_of_legal htables hcause hwf hemit hword htext

/-- A register index is its five-bit field (R13). -/
theorem reg_eq_of_field {v v' : Int} (hv : InReg v) (hv' : InReg v') (h : field 5 v = field 5 v') :
    v = v' :=
  calc v = zext (trunc 5 v) := (zext_trunc (fits_reg hv)).symm
    _ = zext (trunc 5 v') := congrArg zext h
    _ = v' := zext_trunc (fits_reg hv')

/-- The register fields of the layout of format `R` are pieces of its word (R67). -/
theorem fields_of_wordR {funct7 : BitVec 7} {funct3 : BitVec 3} {opcode : BitVec 7}
    {d a b d' a' b' : BitVec 5} (h : (funct7 ++ b ++ a ++ funct3 ++ d ++ opcode : BitVec 32) =
      funct7 ++ b' ++ a' ++ funct3 ++ d' ++ opcode) : d = d' ∧ a = a' ∧ b = b' := by
  have hd := congrArg (BitVec.extractLsb' 7 5) h
  have ha := congrArg (BitVec.extractLsb' 15 5) h
  have hb := congrArg (BitVec.extractLsb' 20 5) h
  rw [six_11_7, six_11_7] at hd
  rw [six_19_15, six_19_15] at ha
  rw [six_24_20, six_24_20] at hb
  exact ⟨hd, ha, hb⟩

end Sys2Proof.Machine

open Sys2Proof Sys2Proof.Machine Sys2Proof.Spec

/-- Settles O21: the eight rows of `registerRow_default`; equal words have equal register fields, and each field
is its register. -/
theorem arithmeticRegisterRows : Obligations.ArithmeticRegisterRows := by
  refine ⟨registerRow_default 0 rfl, registerRow_default 1 rfl, registerRow_default 2 rfl,
    registerRow_default 3 rfl, registerRow_default 4 rfl, registerRow_default 5 rfl,
    registerRow_default 6 rfl, registerRow_default 7 rfl, ?_⟩
  intro funct7 funct3 rd rs1 rs2 rd' rs1' rs2' hd h1 h2 hd' h1' h2' hword
  obtain ⟨fd, f1, f2⟩ := fields_of_wordR hword
  exact ⟨reg_eq_of_field hd hd' fd, reg_eq_of_field h1 h1' f1, reg_eq_of_field h2 h2' f2⟩
end

section
/-! # Proofs: the rows of format `I`

`answers_of_two_regs` gives the four answers of a row with two registers and a last operand of any kind. The sub-kind
of a row of format `I` chooses its layout, its text template and its last operand, so each sub-kind has one lemma. -/

namespace Sys2Proof.Machine

open Sys2Proof Sys2Proof.Spec

/-- The answers of a row that uses two registers and an operand `c` which is legal when `P` holds: the word and the
text of legal operands, or the fault of the first illegal operand (R112). -/
theorem answers_of_two_regs {s : State} {i : Instr} {m n : OperandName} {x y : Int} {c : UsedOperand}
    {P : Prop} {w : Word} {asm : String} (htables : DefaultTables s) (hcause : s.faultCause = .none)
    (hos : i.operands = [.reg m x, .reg n y, c]) (hlast : c.legal = true ↔ P)
    (hword : encodeWith s.cfg i = w) (htext : i.text s.cfg = asm) :
    (InReg x → InReg y → P → CanEmit s → ∃ t, exec i s = .next t ∧ Emitted s w asm t) ∧
    (¬ InReg x → ∃ t, exec i s = .next t ∧ Faulted s (.range m x) t) ∧
    (InReg x → ¬ InReg y → ∃ t, exec i s = .next t ∧ Faulted s (.range n y) t) ∧
    (InReg x → InReg y → ¬ P → ∃ t, exec i s = .next t ∧ Faulted s (.range c.name c.value) t) := by
  have faults := faulted_of_three hcause hos
  simp only [legal_reg, hlast] at faults
  refine ⟨fun hx hy hP hemit => ?_, faults⟩
  have hwf := wf_of_three hos (legal_reg.mpr hx) (legal_reg.mpr hy) (hlast.mpr hP)
  exact emitted_of_legal htables hcause hwf hemit hword htext

/-! ## Format `I` by sub-kind -/

/-- The sub-kind of the default row `k` of format `I` (R89). -/
abbrev kindI (k : Fin 12) : SubKind := Catalog.default.i[k].subKind

/-- The default opcode of the arithmetic and shift rows (R155, R156). -/
theorem default_opcode_I : ∀ k : Fin 12, kindI k ≠ .mem → Catalog.default.i[k].opcode = 0b0010011 := by
  decide

section rows
variable (k : Fin 12) {mk : Int → Int → Int → Instr} (hmk : rowsI[k.val]? = some mk)
include hmk

/-- Row `k` of format `I` packs a shift amount or an immediate by its sub-kind (R68, R69). -/
theorem encodeWith_rowI (c : Config) (rd rs1 imm : Int) : encodeWith c (mk rd rs1 imm) =
    if kindI k = .shift then wordShift c.catalog.i[k] rd rs1 imm
    else wordI c.catalog.i[k] rd rs1 imm := by
  fin_cases k <;> cases hmk <;> rfl

/-- Row `k` of format `I` prints in the template of its sub-kind (R98). -/
theorem text_rowI (c : Config) (rd rs1 imm : Int) : (mk rd rs1 imm).text c =
    if kindI k = .mem then textMem c.catalog.i[k].mnemonic rd rs1 imm
    else textI c.catalog.i[k].mnemonic rd rs1 imm := by
  fin_cases k <;> cases hmk <;> rfl

/-- The last operand of row `k` of format `I` is a shift amount or an immediate by its sub-kind (R109). -/
theorem operands_rowI (rd rs1 imm : Int) : (mk rd rs1 imm).operands =
    [.reg .rd rd, .reg .rs1 rs1, if kindI k = .shift then .shamt imm else .imm12 imm] := by
  have hshift : ∀ k : Fin 12, (k.val = 4 ∨ k.val = 5) ↔ kindI k = .shift := by decide
  simpa only [hshift] using (rowsI_operands hmk rd rs1 imm).2

/-- An `arith` row emits the code and the mnemonic of its default row (R155). -/
theorem arithRow_default (hkind : kindI k = .arith) :
    ArithRow mk Catalog.default.i[k].mnemonic (trunc 3 Catalog.default.i[k].funct3) := by
  intro s rd rs1 imm htables hcause
  have hos := operands_rowI k hmk rd rs1 imm
  rw [hkind, if_neg (by decide)] at hos
  refine answers_of_two_regs htables hcause hos legal_imm12 ?_ ?_
  · rw [encodeWith_rowI k hmk, hkind, if_neg (by decide), htables.catalog, wordI,
      default_opcode_I k (by simp [hkind])]
    rfl
  · rw [text_rowI k hmk, hkind, if_neg (by decide), htables.catalog, textI_joined]

/-- A `shift` row emits the code and the mnemonic of its default row (R156). -/
theorem shiftRow_default (hkind : kindI k = .shift) :
    ShiftRow mk Catalog.default.i[k].mnemonic (trunc 3 Catalog.default.i[k].funct3) := by
  intro s rd rs1 shamt htables hcause
  have hos := operands_rowI k hmk rd rs1 shamt
  rw [if_pos hkind] at hos
  refine answers_of_two_regs htables hcause hos legal_shamt ?_ ?_
  · rw [encodeWith_rowI k hmk, if_pos hkind, htables.catalog, wordShift,
      default_opcode_I k (by simp [hkind])]
    rfl
  · rw [text_rowI k hmk, hkind, if_neg (by decide), htables.catalog, textI_joined]

/-- A `mem` row emits the codes and the mnemonic of its default row (R157). -/
theorem memRow_default (hkind : kindI k = .mem) :
    MemRow mk Catalog.default.i[k].mnemonic (trunc 3 Catalog.default.i[k].funct3)
      (trunc 7 Catalog.default.i[k].opcode) := by
  intro s rd rs1 imm htables hcause
  have hos := operands_rowI k hmk rd rs1 imm
  rw [hkind, if_neg (by decide)] at hos
  refine answers_of_two_regs htables hcause hos legal_imm12 ?_ ?_
  · rw [encodeWith_rowI k hmk, hkind, if_neg (by decide), htables.catalog]
    rfl
  · rw [text_rowI k hmk, if_pos hkind, htables.catalog, textMem_joined]

end rows

end Sys2Proof.Machine

open Sys2Proof Sys2Proof.Machine Sys2Proof.Spec

/-- Settles O22: the four `arith` rows of `arithRow_default`. -/
theorem immediateArithmeticRows : Obligations.ImmediateArithmeticRows :=
  ⟨arithRow_default 0 rfl rfl, arithRow_default 1 rfl rfl, arithRow_default 2 rfl rfl,
    arithRow_default 3 rfl rfl⟩

/-- Settles O23: the two `shift` rows of `shiftRow_default`. -/
theorem immediateShiftRows : Obligations.ImmediateShiftRows :=
  ⟨shiftRow_default 4 rfl rfl, shiftRow_default 5 rfl rfl⟩

/-- Settles O24: the six `mem` rows of `memRow_default`, `jalr` first. -/
theorem jalrAndLoadRows : Obligations.JalrAndLoadRows :=
  ⟨memRow_default 6 rfl rfl, memRow_default 7 rfl rfl, memRow_default 8 rfl rfl,
    memRow_default 9 rfl rfl, memRow_default 10 rfl rfl, memRow_default 11 rfl rfl⟩
end

section
/-! # Proofs: the rows of format `S`, and where words of two rows differ

A store row's word and text are those of the catalog's row of the same index; under the default tables that gives the
row's answers. Two store rows of a structured configuration that fit share their opcode, so their words, piece by
piece, differ only where `funct3` stands. -/

namespace Sys2Proof

/-- A row of format `S` or `B` has a pattern exactly when its values fit (R37). -/
theorem FunctRow.isSome_pattern (x : FunctRow) : x.pattern.isSome = x.fits := by
  rw [FunctRow.pattern]
  cases x.fits <;> rfl

end Sys2Proof

namespace Sys2Proof.Machine

open Sys2Proof Sys2Proof.Spec

/-! ## Format `S` -/

theorem default_opcode_S : ∀ k : Fin 3, Catalog.default.s[k].opcode = 0b0100011 := by decide

section rows
variable (k : Fin 3) {mk : Int → Int → Int → Instr} (hmk : rowsS[k.val]? = some mk)
include hmk

/-- The word and the text of row `k` of format `S` are those of the catalog's row `k`. -/
theorem layout_rowsS (c : Config) (rs1 rs2 imm : Int) :
    encodeWith c (mk rs1 rs2 imm) = wordS c.catalog.s[k] rs1 rs2 imm ∧
      (mk rs1 rs2 imm).text c = textS c.catalog.s[k].mnemonic rs1 rs2 imm := by
  fin_cases k <;> cases hmk <;> exact ⟨rfl, rfl⟩

/-- Row `k` of format `S` fits when the catalog's row `k` does (R37). -/
theorem rowFits_rowsS (c : Config) (rs1 rs2 imm : Int) :
    (mk rs1 rs2 imm).rowFits c = c.catalog.s[k].fits := by
  have hpattern : (mk rs1 rs2 imm).pattern c = c.catalog.s[k].pattern := by
    fin_cases k <;> cases hmk <;> rfl
  rw [Instr.rowFits, hpattern, FunctRow.isSome_pattern]

/-- Row `k` of format `S` emits the code and the mnemonic of the default row `k` (R170). -/
theorem storeRow_default :
    StoreRow mk Catalog.default.s[k].mnemonic (trunc 3 Catalog.default.s[k].funct3) := by
  intro s rs1 rs2 imm htables hcause
  obtain ⟨-, hos⟩ := rowsS_operands hmk rs1 rs2 imm
  obtain ⟨hword, htext⟩ := layout_rowsS k hmk s.cfg rs1 rs2 imm
  rw [htables.catalog] at hword htext
  rw [wordS, default_opcode_S] at hword
  rw [textS_joined] at htext
  exact answers_of_two_regs htables hcause hos legal_imm12 hword htext

end rows

/-- A constructor of format `S` is one of its three rows. -/
theorem index_rowsS {mk : Int → Int → Int → Instr} (h : mk ∈ rowsS) :
    ∃ k : Fin 3, rowsS[k.val]? = some mk := by
  obtain ⟨k, hk⟩ := List.mem_iff_getElem?.mp h
  obtain ⟨hlt, -⟩ := List.getElem?_eq_some_iff.mp hk
  exact ⟨⟨k, hlt⟩, hk⟩

/-! ## Where two words differ -/

/-- Two words of the six-piece layout that agree but for `funct3` differ only in bits [14:12]. -/
theorem xor_six_funct3 (a : BitVec 7) (b c : BitVec 5) (d d' : BitVec 3) (e : BitVec 5)
    (f : BitVec 7) :
    ((a ++ b ++ c ++ d ++ e ++ f : BitVec 32) ^^^ (a ++ b ++ c ++ d' ++ e ++ f)) &&& 0xFFFF8FFF#32 =
      0#32 := by
  have hxor : (a ++ b ++ c ++ d ++ e ++ f) ^^^ (a ++ b ++ c ++ d' ++ e ++ f) =
      0#17 ++ (d ^^^ d') ++ 0#5 ++ 0#7 := by
    simp only [BitVec.xor_append, BitVec.xor_self]
  have hmask : ∀ z : BitVec 3,
      (0#17 ++ z ++ 0#5 ++ 0#7 : BitVec 32) &&& 0xFFFF8FFF#32 = 0#32 := by decide
  exact (congrArg (· &&& 0xFFFF8FFF#32) hxor).trans (hmask _)

/-- Two words of the three-piece layout with equal operands differ as their opcodes do. -/
theorem xor_three_opcode (a : BitVec 20) (b : BitVec 5) (c c' : BitVec 7) :
    (a ++ b ++ c) ^^^ (a ++ b ++ c') = 0#25 ++ (c ^^^ c') := by
  simp only [BitVec.xor_append, BitVec.xor_self]

/-- Store rows of one opcode give words that differ only in `funct3` (R174). -/
theorem xor_wordS {x y : FunctRow} (hopcode : x.opcode = y.opcode) (rs1 rs2 imm : Int) :
    (wordS x rs1 rs2 imm ^^^ wordS y rs1 rs2 imm) &&& 0xFFFF8FFF#32 = 0#32 := by
  rw [wordS, wordS, hopcode]
  exact xor_six_funct3 _ _ _ _ _ _ _

/-- Rows of format `U` give words that differ only in the opcode (R186). -/
theorem xor_wordU (x y : OpcodeRow) (rd imm : Int) :
    wordU x rd imm ^^^ wordU y rd imm = 0#25 ++ (trunc 7 x.opcode ^^^ trunc 7 y.opcode) :=
  xor_three_opcode _ _ _ _

end Sys2Proof.Machine

open Sys2Proof Sys2Proof.Machine Sys2Proof.Spec

/-- Settles O25: the three rows of `storeRow_default`. -/
theorem storeRows : Obligations.StoreRows :=
  ⟨storeRow_default 0 rfl, storeRow_default 1 rfl, storeRow_default 2 rfl⟩

/-- Settles O48: store rows that fit have one opcode (`store_opcodes`); `lui` and `auipc` have opcodes that differ in
bit 5. -/
theorem rowsDifferOnlyWhereStated : Obligations.RowsDifferOnlyWhereStated := by
  refine ⟨fun c rs1 rs2 imm hc mk hmk mk' hmk' hfit hfit' => ?_, fun rd imm => ?_⟩
  · obtain ⟨k, hk⟩ := index_rowsS hmk
    obtain ⟨k', hk'⟩ := index_rowsS hmk'
    rw [rowFits_rowsS k hk] at hfit
    rw [rowFits_rowsS k' hk'] at hfit'
    rw [(layout_rowsS k hk c rs1 rs2 imm).1, (layout_rowsS k' hk' c rs1 rs2 imm).1]
    exact xor_wordS (store_opcodes hc (by simp) (by simp) hfit hfit') rs1 rs2 imm
  · exact (xor_wordU Catalog.default.u[0] Catalog.default.u[1] rd imm).trans (by decide)
end

section
/-! # Proofs: the rows of format `B`

A branch row's word and text are those of the catalog's row of the same index, with the last operand an even offset;
under the default tables that gives the row's answers. -/

namespace Sys2Proof.Machine

open Sys2Proof Sys2Proof.Spec

theorem default_opcode_B : ∀ k : Fin 6, Catalog.default.b[k].opcode = 0b1100011 := by decide

section rows
variable (k : Fin 6) {mk : Int → Int → Int → Instr} (hmk : rowsB[k.val]? = some mk)
include hmk

/-- The word and the text of row `k` of format `B` are those of the catalog's row `k`. -/
theorem layout_rowsB (c : Config) (rs1 rs2 imm : Int) :
    encodeWith c (mk rs1 rs2 imm) = wordB c.catalog.b[k] rs1 rs2 imm ∧
      (mk rs1 rs2 imm).text c = textB c.catalog.b[k].mnemonic rs1 rs2 imm := by
  fin_cases k <;> cases hmk <;> exact ⟨rfl, rfl⟩

/-- Row `k` of format `B` emits the code and the mnemonic of the default row `k` (R175). -/
theorem branchRow_default :
    BranchRow mk Catalog.default.b[k].mnemonic (trunc 3 Catalog.default.b[k].funct3) := by
  intro s rs1 rs2 imm htables hcause
  obtain ⟨-, hos⟩ := rowsB_operands hmk rs1 rs2 imm
  obtain ⟨hword, htext⟩ := layout_rowsB k hmk s.cfg rs1 rs2 imm
  rw [htables.catalog] at hword htext
  rw [wordB, default_opcode_B] at hword
  rw [textB_joined] at htext
  exact answers_of_two_regs htables hcause hos legal_offset13 hword htext

end rows

end Sys2Proof.Machine

open Sys2Proof Sys2Proof.Machine Sys2Proof.Spec

/-- Settles O26: the six rows of `branchRow_default`. -/
theorem branchRows : Obligations.BranchRows :=
  ⟨branchRow_default 0 rfl, branchRow_default 1 rfl, branchRow_default 2 rfl,
    branchRow_default 3 rfl, branchRow_default 4 rfl, branchRow_default 5 rfl⟩
end

section
/-! # Proofs: the rows of format `U`

`answers_of_one_reg` gives the three answers of a row with one register and a last operand of any kind. The word and
the text of a row of format `U` are those of the catalog's row of the same index. -/

namespace Sys2Proof.Machine

open Sys2Proof Sys2Proof.Spec

/-- The answers of a row that uses one register and an operand `b` which is legal when `P` holds: the word and the
text of legal operands, or the fault of the first illegal operand (R112). -/
theorem answers_of_one_reg {s : State} {i : Instr} {m : OperandName} {x : Int} {b : UsedOperand}
    {P : Prop} {w : Word} {asm : String} (htables : DefaultTables s) (hcause : s.faultCause = .none)
    (hos : i.operands = [.reg m x, b]) (hlast : b.legal = true ↔ P)
    (hword : encodeWith s.cfg i = w) (htext : i.text s.cfg = asm) :
    (InReg x → P → CanEmit s → ∃ t, exec i s = .next t ∧ Emitted s w asm t) ∧
    (¬ InReg x → ∃ t, exec i s = .next t ∧ Faulted s (.range m x) t) ∧
    (InReg x → ¬ P → ∃ t, exec i s = .next t ∧ Faulted s (.range b.name b.value) t) := by
  obtain ⟨-, named⟩ := firstIllegalOperandIsNamed i
  refine ⟨fun hx hP hemit => ?_, fun hx => ?_, fun hx hP => ?_⟩
  · have hwf := wf_of_two hos (legal_reg.mpr hx) (hlast.mpr hP)
    exact emitted_of_legal htables hcause hwf hemit hword htext
  · exact named s [] (.reg m x) [b] hcause hos (by simp) (by simpa using mt legal_reg.mp hx)
  · exact named s [.reg m x] b [] hcause hos (by simpa using legal_reg.mpr hx)
      (by simpa using mt hlast.mp hP)

/-! ## Format `U` -/

section rows
variable (k : Fin 2) {mk : Int → Int → Instr} (hmk : rowsU[k.val]? = some mk)
include hmk

/-- The word and the text of row `k` of format `U` are those of the catalog's row `k`. -/
theorem layout_rowsU (c : Config) (rd imm : Int) :
    encodeWith c (mk rd imm) = wordU c.catalog.u[k] rd imm ∧
      (mk rd imm).text c = textU c.catalog.u[k].mnemonic rd imm := by
  fin_cases k <;> cases hmk <;> exact ⟨rfl, rfl⟩

/-- Row `k` of format `U` emits the opcode and the mnemonic of the default row `k` (R184, R185). -/
theorem upperRow_default :
    UpperRow mk Catalog.default.u[k].mnemonic (trunc 7 Catalog.default.u[k].opcode) := by
  intro s rd imm htables hcause
  obtain ⟨-, hos⟩ := rowsU_operands hmk rd imm
  obtain ⟨hword, htext⟩ := layout_rowsU k hmk s.cfg rd imm
  rw [htables.catalog] at hword htext
  rw [textU_joined] at htext
  exact answers_of_one_reg htables hcause hos legal_imm20 hword htext

end rows

end Sys2Proof.Machine

open Sys2Proof Sys2Proof.Machine Sys2Proof.Spec

/-- Settles O27: the two rows of `upperRow_default`. -/
theorem upperImmediateRows : Obligations.UpperImmediateRows :=
  ⟨upperRow_default 0 rfl, upperRow_default 1 rfl⟩
end

section
/-! # Proofs: the row of format `J`

The word and the text of `jal` are those of the catalog's only row of format `J`; under the default tables
`answers_of_one_reg` gives the row's answers, with an even offset as the last operand. -/

namespace Sys2Proof.Machine

open Sys2Proof Sys2Proof.Spec

/-- The word and the text of `jal` are those of the catalog's row of format `J` (R73, R98). -/
theorem layout_jal (c : Config) (rd imm : Int) :
    encodeWith c (.jal rd imm) = wordJ c.catalog.j[0] rd imm ∧
      (Instr.jal rd imm).text c = textU c.catalog.j[0].mnemonic rd imm :=
  ⟨rfl, rfl⟩

end Sys2Proof.Machine

open Sys2Proof Sys2Proof.Machine Sys2Proof.Spec

/-- Settles O28: the answers of a row with one register and an even offset, at the default row `jal`. -/
theorem jumpRow : Obligations.JumpRow := by
  intro s rd imm htables hcause
  obtain ⟨hword, htext⟩ := layout_jal s.cfg rd imm
  rw [htables.catalog] at hword htext
  rw [textU_joined] at htext
  exact answers_of_one_reg htables hcause rfl legal_offset21 hword htext
end

section
/-! # Proofs: system rows, the order of a request's checks, held requests and reset

The rows of format `SYS` have no operand, so their only answer is the literal. A fault of `exec` is the fault of the
step (`step_faults_of_exec`), whatever the sink says. A draw that is missing makes the selection wait, wherever the
draws break off: `drawRow_waits` and `drawReg_waits` go through the draws that are there. -/

namespace Sys2Proof.Machine

open Sys2Proof Sys2Proof.Spec

/-! ## Format `SYS` -/

section rows
variable (k : Fin 5) {i : Instr} (hi : rowsSys[k.val]? = some i)
include hi

/-- The word and the text of row `k` of format `SYS` are the literal and the mnemonic of the row `k` of the
configuration (R74, R190). -/
theorem layout_rowsSys (c : Config) :
    encodeWith c i = trunc 32 c.sysLiterals[k].literal ∧ i.text c = c.sysLiterals[k].mnemonic := by
  fin_cases k <;> cases hi <;> exact ⟨rfl, rfl⟩

/-- Row `k` of format `SYS` emits the literal of the default row `k`, its bytes and its mnemonic (R190). -/
theorem systemRow_default {w : Word}
    (hw : trunc 32 Config.defaultSysLiterals[k].literal = w) :
    SystemRow i w (bits w 7 0) (bits w 15 8) (bits w 23 16) (bits w 31 24)
      Config.defaultSysLiterals[k].mnemonic := by
  intro s htables hcause hemit
  obtain ⟨-, hos⟩ := rowsSys_operands hi
  obtain ⟨hword, htext⟩ := layout_rowsSys k hi s.cfg
  rw [htables.literals] at hword htext
  have hwf : i.wf = true := by rw [Instr.wf, hos, List.all_nil]
  obtain ⟨t, hexec, hout⟩ := emitted_of_legal htables hcause hwf hemit (hword.trans hw) htext
  exact ⟨t, hexec, hout, hout.byte0, hout.byte1, hout.byte2, hout.byte3⟩

end rows

/-! ## The step on a selected row -/

section selected
variable {s : State} {req : Request} {later : List Input} {i : Instr} {left : List Int}
  (hc : s.cfg.structured = true) (hcause : s.faultCause = .none)
  (hi : s.inputs = .request req :: later) (hsel : select s.cfg req s.draws = .runs i left)
include hc hcause hi hsel

/-- The step on a selected row is the settled answer of `exec` on the accepted request (R105, R227). -/
theorem step_settles : step s = settle s (exec i (s.accept left)) := by
  rw [step_request hc hi, performInputRequest_runs ((not_halted_iff s).mpr hcause) hsel]

/-- A fault of the selected row is the fault of the step (R118). -/
theorem step_faults_of_exec {info : FaultInfo} {t : State}
    (hexec : exec i (s.accept left) = .next t) (hfaulted : Faulted (s.accept left) info t) :
    step s = .next t ∧ Faulted s info t := by
  obtain ⟨hrecorded, hresponse, hptr, himage⟩ := hfaulted
  refine ⟨?_, hrecorded, hresponse, hptr, himage⟩
  rw [step_settles hc hcause hi hsel, hexec, settle, hresponse]
  rfl

/-- A word that has room but no sink answer is held (R227). -/
theorem step_holds_without_sink (hwf : i.wf = true) (hfit : i.rowFits s.cfg = true)
    (hroom : s.imgPtr + 4 ≤ s.cfg.imageBase + s.cfg.imageBytes) (hsink : s.sinkOk = []) :
    step s = .next s := by
  have hexec := exec_emits (s := s.accept left) ((not_halted_iff s).mpr hcause) hwf hfit
  rw [emit_waits (s := s.accept left) ((hasRoom_iff s).mpr hroom) hsink] at hexec
  rw [step_settles hc hcause hi hsel, hexec]
  rfl

end selected

/-! ## Draws that break off (R227) -/

section waits
variable {sofar rest : List Int}

/-- A row draw in its table waits when it is missing, or when the draws after it do. -/
theorem drawRow_waits {f : Fmt} {rows : Nat} {r : Int} {k : Nat → List Int → Selection}
    (hr : 0 ≤ r ∧ r ≤ rows - 1) (hsofar : sofar <+: r :: rest)
    (hk : ∀ d, d <+: rest → k r.toNat d = .waits) : drawRow f rows sofar k = .waits := by
  rcases List.prefix_cons_iff.mp hsofar with rfl | ⟨d, rfl, hd⟩
  · rfl
  · rw [drawRow_in hr, hk d hd]

/-- A register draw in its range waits when it is missing, or when the draws after it do. -/
theorem drawReg_waits {name : OperandName} {v : Int} {k : Int → List Int → Selection}
    (hv : InReg v) (hsofar : sofar <+: v :: rest) (hk : ∀ d, d <+: rest → k v d = .waits) :
    drawReg name sofar k = .waits := by
  rcases List.prefix_cons_iff.mp hsofar with rfl | ⟨d, rfl, hd⟩
  · rfl
  · rw [drawReg_in hv, hk d hd]

/-- The last operand waits when no draw is there for it. -/
theorem drawOperand_waits {name : OperandName} {lo hi scale : Int} {k : Int → List Int → Selection}
    (hsofar : sofar <+: []) : drawOperand name lo hi scale sofar k = .waits := by
  rw [List.prefix_nil.mp hsofar]
  rfl

end waits

/-- Every row of format `I` has a sub-kind (R36). -/
theorem subKindAt_of_lt (c : Config) {k : Nat} (hk : k < 12) : ∃ kind, c.subKindAt k = some kind :=
  ⟨_, List.getElem?_eq_getElem (by simpa using hk)⟩

section formats
variable {r x y : Int} {sofar : List Int} (hr : 0 ≤ r) (hx : InReg x) (hy : InReg y)
include hx

theorem drawJ_waits (hsofar : sofar <+: [x]) : drawJ sofar = .waits :=
  drawReg_waits hx hsofar fun _ => drawOperand_waits

include hr

theorem drawU_waits (hlast : r ≤ 1) (hsofar : sofar <+: [r, x]) : drawU sofar = .waits :=
  drawRow_waits (rows := 2) ⟨hr, hlast⟩ hsofar fun _ hd =>
    drawReg_waits hx hd fun _ => drawOperand_waits

include hy

theorem drawR_waits (hlast : r ≤ 7) (hsofar : sofar <+: [r, x, y]) : drawR sofar = .waits :=
  drawRow_waits (rows := 8) ⟨hr, hlast⟩ hsofar fun _ hd => drawReg_waits hx hd fun _ hd =>
    drawReg_waits hy hd fun _ => drawOperand_waits

/-- Whatever the sub-kind of the row, its last operand is drawn (R113). -/
theorem drawI_waits (c : Config) (hlast : r ≤ 11) (hsofar : sofar <+: [r, x, y]) :
    drawI c sofar = .waits := by
  obtain ⟨kind, hkind⟩ := subKindAt_of_lt c (k := r.toNat) (by omega)
  refine drawRow_waits (rows := 12) ⟨hr, hlast⟩ hsofar fun _ hd => drawReg_waits hx hd fun _ hd =>
    drawReg_waits hy hd fun _ hd => ?_
  rw [hkind]
  cases kind <;> exact drawOperand_waits hd

theorem drawS_waits (hlast : r ≤ 2) (hsofar : sofar <+: [r, x, y]) : drawS sofar = .waits :=
  drawRow_waits (rows := 3) ⟨hr, hlast⟩ hsofar fun _ hd => drawReg_waits hx hd fun _ hd =>
    drawReg_waits hy hd fun _ => drawOperand_waits

theorem drawB_waits (hlast : r ≤ 5) (hsofar : sofar <+: [r, x, y]) : drawB sofar = .waits :=
  drawRow_waits (rows := 6) ⟨hr, hlast⟩ hsofar fun _ hd => drawReg_waits hx hd fun _ hd =>
    drawReg_waits hy hd fun _ => drawOperand_waits

end formats

/-- A random request without any draw waits (R113). -/
theorem select_random_nil (c : Config) (f : Fmt) : select c (.random (.known f)) [] = .waits := by
  cases f <;> rfl

/-- A directed request raises or runs: it issues no draw (R108). -/
theorem select_directed_ne_waits (c : Config) (tag : FmtTag) (mn : String) (rd rs1 rs2 imm : Int)
    (draws : List Int) : select c (.directed tag mn rd rs1 rs2 imm) draws ≠ .waits := by
  cases tag with
  | other name => nofun
  | known f =>
    simp only [select]
    cases rowNamed c f mn rd rs1 rs2 imm with
    | none => nofun
    | some i => nofun

/-! ## Reset -/

/-- No word stands in the image right after reset, so every word of it is one of the catalog. -/
theorem wordsInv_resetWith (cfg : Config) (inputs : List Input) (draws : List Int)
    (sinkOk : List Bool) : WordsInv (State.resetWith cfg inputs draws sinkOk) := by
  intro k hk
  simp only [resetWith_cfg, resetWith_imgPtr] at hk
  omega

/-- Right after reset under a structured configuration the invariant holds (R221). -/
theorem inv_resetWith {cfg : Config} (hc : cfg.structured = true) (inputs : List Input)
    (draws : List Int) (sinkOk : List Bool) : Inv (State.resetWith cfg inputs draws sinkOk) := by
  have hempty := holdsWords_reset cfg inputs draws sinkOk
  exact ⟨hc, hempty.ptr, hempty.image, wordsInv_resetWith cfg inputs draws sinkOk⟩

end Sys2Proof.Machine

open Sys2Proof Sys2Proof.Machine Sys2Proof.Spec

/-- Settles O29: the five rows of `systemRow_default`, at the literals of the default tables. -/
theorem systemRows : Obligations.SystemRows :=
  ⟨systemRow_default 0 rfl rfl, systemRow_default 1 rfl rfl, systemRow_default 2 rfl rfl,
    systemRow_default 3 rfl rfl, systemRow_default 4 rfl rfl⟩

/-- Settles O7: the halt test and the selector answer before `exec`; every later check is one of `exec` on the
accepted request, whose fault is the step's. -/
theorem requestFaultPriority : Obligations.RequestFaultPriority := by
  intro s req later hc hi
  refine ⟨fun hcause => ⟨_, step_halted hc hi ((halted_iff s).mpr hcause), rfl⟩,
    fun hcause => ⟨?_, fun i left hsel => ?_⟩⟩
  · rintro f mn rd rs1 rs2 imm rfl hmn
    have hraises := select_directed_unknown hmn rd rs1 rs2 imm s.draws
    obtain ⟨t, hstep, hfaulted, -⟩ := step_raises hc hcause hi hraises
    exact ⟨t, hstep, hfaulted⟩
  have hh : (s.accept left).halted = false := (not_halted_iff s).mpr hcause
  refine ⟨fun n v hillegal => ?_, fun hwf hfit => ?_, fun hwf hfit hfull => ?_,
    fun hwf hfit hroom hsink => ?_⟩
  · exact ⟨_, step_faults_of_exec hc hcause hi hsel (exec_illegal hh hillegal)
      (faulted_takeFault _ _)⟩
  · obtain ⟨v, n, hmem, hmisfit, hexec⟩ := exec_misfit hh hwf hfit
    exact ⟨_, v, n, hmem, hmisfit,
      step_faults_of_exec hc hcause hi hsel hexec (faulted_takeFault _ _)⟩
  · have hexec := exec_emits hh hwf hfit
    have hr : (s.accept left).hasRoom = false := by
      rw [← Bool.not_eq_true, hasRoom_iff]
      exact hfull.not_ge
    rw [emit_no_room hr] at hexec
    obtain ⟨hstep, hfaulted⟩ :=
      step_faults_of_exec hc hcause hi hsel hexec (faulted_takeFault _ _)
    exact ⟨_, hstep, hfaulted, rfl⟩
  · have hexec := exec_emits hh hwf hfit
    obtain ⟨sink, hs⟩ := List.head?_eq_some_iff.mp hsink
    rw [emit_refused (s := s.accept left) ((hasRoom_iff s).mpr hroom) hs] at hexec
    obtain ⟨hstep, hfaulted⟩ :=
      step_faults_of_exec hc hcause hi hsel hexec ⟨rfl, rfl, rfl, fun _ => rfl⟩
    exact ⟨_, hstep, hfaulted, by rw [hs]; rfl⟩

/-- Settles O13: the two ways a step holds; then format by format, draws that break off anywhere. -/
theorem heldRequestChangesNothing : Obligations.HeldRequestChangesNothing := by
  refine ⟨fun s req later hc hcause hi => ⟨fun hsel => ?_, fun i left hsel => ?_⟩,
    select_random_nil, fun c r x y sofar hr hx hy => ?_, select_directed_ne_waits⟩
  · rw [step_request hc hi, performInputRequest_waits ((not_halted_iff s).mpr hcause) hsel]
  · exact step_holds_without_sink hc hcause hi hsel
  · exact ⟨drawR_waits hr hx hy, drawI_waits hr hx hy c, drawS_waits hr hx hy, drawB_waits hr hx hy,
      drawU_waits hr hx, drawJ_waits hx⟩

/-- Settles O1: each register of `State.resetWith` has the value of R221. -/
theorem resetValues : Obligations.ResetValues :=
  ⟨fun _ _ _ _ => ⟨rfl, rfl, rfl, fun _ => rfl, rfl, rfl⟩, Config.default, [], [], [], rfl⟩

/-- Settles O2: the step on the reset input is `applyReset`, halted or not. -/
theorem resetInputRestarts : Obligations.ResetInputRestarts :=
  fun _ _ hc hi => ⟨_, step_reset hc hi, rfl, rfl, fun _ => rfl, rfl, rfl, rfl, rfl, rfl⟩

/-- Settles O3: `inv_resetWith`, at the default configuration for `State.reset`. -/
theorem resetMeetsInvariant : Obligations.ResetMeetsInvariant :=
  ⟨fun _ inputs draws sinkOk hc => inv_resetWith hc inputs draws sinkOk,
    inv_resetWith (by decide) [] [] []⟩
end
